-- ==== Sys2Proof/Word.lean ====
section
/-! DEFINITION. The values of the block: bits, bytes and EEPROM addresses (00_scope.md R6, R10). -/

namespace Sys2Proof

/-- A one-bit value; `true` is 1 and `false` is 0 (R10). -/
abbrev Bit := Bool

/-- A byte, the width `DATA_W = 8` of every access (R6, R57). -/
abbrev Byte := BitVec 8

/-- An EEPROM memory address, `ADDR_W = 16` (R6, R51). -/
abbrev Addr := BitVec 16

end Sys2Proof
end

