-- ==== Sys2Proof/Config.lean ====
section
/-! DEFINITION. What an implementation fixes (R6), the parameters it leaves open (R7), and the free values the
spec leaves unspecified (R27, R104, D17), each an uninterpreted constant. -/

namespace Sys2Proof

/-- The six constants of the timing unit, in microseconds (R25). -/
structure Timing where
  gap : Nat
  stbyLow : Nat
  stbyHigh : Nat
  hdr : Nat
  quarter : Nat
  fudge : Nat
deriving DecidableEq, Repr

/-- The open parameters a master is built with, beside `DEVADDR` (R7). -/
structure Params where
  /-- most polls WAIT_WIP makes; `none` is the reference behaviour (D14) -/
  pollLimit : Option Nat
  /-- largest `n` a READ accepts; `none` is no bound (D12) -/
  maxLen : Option Nat
  /-- whether ERAL and SETAL may be issued (D15) -/
  bulkOps : Bool
  /-- the level that wins a contention (D6); no rule of the master reads it -/
  dominantLevel : Bit
deriving DecidableEq, Repr

/-- The result codes of R220; `badlen` and `refused` are those of the refusal `declined` (R243). -/
inductive Result where
  | ok
  | nosak
  | boundary
  | timeout
  | badlen
  | refused
deriving DecidableEq, Repr, Inhabited

/-- The working registers (R27 to R35) as one record, so that one free value stands for all of them. -/
structure Scratch where
  shreg : Byte
  sa : Bit
  sb : Bit
  sakf : Bit
  addr : Addr
  len : Nat
  wbuf : List Byte
  rbuf : List Byte
  result : Result
  pollcnt : Nat
deriving DecidableEq, Repr, Inhabited

/-- The default timing of R6 and R25. -/
def Config.timing : Timing :=
  { gap := 10, stbyLow := 10, stbyHigh := 600, hdr := 5, quarter := 10, fudge := 5 }

/-- `PAGE`, the EEPROM page size in bytes (R6, R52). -/
def Config.page : Nat := 16

/-- One more than the highest address the master can name (R51). -/
def Config.addrTop : Nat := 0x10000

/-- `START_HEADER` (R6, R78). -/
def Config.startHeader : Byte := 0x55

/-- `MAK_LAST` (R6, R142). UNVERIFIED polarity: log 27. -/
def Config.makLast : Bit := true

/-- `MAK_MORE` (R6, R142). UNVERIFIED polarity: log 27. -/
def Config.makMore : Bit := false

/-- The parameter `DEVADDR` (R7, R21): any of the 256 values. No body: log 5. -/
opaque Config.deviceAddress : Byte

/-- The parameter `DOMINANT_LEVEL` (R7, D6). No body: log 5. -/
opaque Config.dominantLevel : Bit

/-- FREE VALUE (R104, D5, U8, U10): the answer of the line environment to the `k`-th sample it is asked for,
where no script of answers is left. No body: log 2. -/
opaque Config.lineSample : Nat → Bit

/-- FREE VALUE (R27, U19, D17): what the working registers hold where their value is unspecified, the `k`-th
time this happens. No body: log 8 and log 9. -/
opaque Config.scratch : Nat → Scratch

/-- FREE VALUE (R58, U4): what the array holds at an address of a page the `k`-th time that page has become
unspecified. No body: log 28. -/
opaque Config.lostByte : Nat → Nat → Byte

/-- The open parameters at their stated defaults (R7). -/
def Config.params : Params :=
  { pollLimit := none, maxLen := none, bulkOps := false, dominantLevel := Config.dominantLevel }

end Sys2Proof
end

