-- ==== Sys2Proof/Syntax.lean ====
section
/-! DEFINITION. The instructions of the block: one constructor per row of spec/opcode_table.json, the host's
request ports (R40, R88), and the names of what the decoder refuses. -/

namespace Sys2Proof

/-- What the master can be asked to do: the eight opcodes (R85), the start header (R78, R168) and the two
pseudo-instructions (R89). -/
inductive Instr where
  /-- READ a, n (R184) -/
  | read (a : Addr) (n : Nat)
  /-- WRITE a, n, p (R186) -/
  | write (a : Addr) (n : Nat) (p : List Byte)
  /-- WREN (R188) -/
  | wren
  /-- WRDI (R189) -/
  | wrdi
  /-- RDSR (R190) -/
  | rdsr
  /-- WRSR v (R192) -/
  | wrsr (v : Byte)
  /-- ERAL (R194) -/
  | eral
  /-- SETAL (R195) -/
  | setal
  /-- START_HEADER (R168) -/
  | startHeader
  /-- WAIT_WIP (R198) -/
  | waitWip
  /-- PAGED_WRITE a, n, p (R201) -/
  | pagedWrite (a : Addr) (n : Nat) (p : List Byte)
deriving DecidableEq, Repr

/-- The closed enumeration of opcodes (R85, R86). -/
inductive Opcode where
  | read
  | write
  | wren
  | wrdi
  | rdsr
  | wrsr
  | eral
  | setal
deriving DecidableEq, Repr

/-- The enumeration of the `cmd` port: the commands of 44_commands.md (R40, R88). -/
inductive Cmd where
  | read
  | write
  | wren
  | wrdi
  | rdsr
  | wrsr
  | eral
  | setal
  | waitWip
  | pagedWrite
deriving DecidableEq, Repr

/-- What the host presents at `start` (R40, R41). -/
inductive Request where
  /-- the ports `cmd`, `cmd_addr`, `cmd_len`, `cmd_wdata` (R40) -/
  | call (cmd : Cmd) (addr : Addr) (len : Nat) (wdata : List Byte)
  /-- DESIGN CHOICE (log 11): the same request with the command named by the bytes of its command frame (R80)
  or by the header byte (R78), the length and the payload on their ports -/
  | image (frame : List Byte) (len : Nat) (wdata : List Byte)
deriving DecidableEq, Repr

/-- Why a request names no command (R86, R240). -/
inductive DecodeError where
  /-- no byte at all -/
  | emptyFrame
  /-- one byte that is not the start header (R78) -/
  | loneByte (b : Byte)
  /-- byte 1 is none of the eight opcodes (R86, U12) -/
  | reservedOpcode (op : Byte)
  /-- the frame is not as long as its opcode's format (R80) -/
  | wrongLength (op : Opcode) (bytes : Nat)
  /-- WRSR's value port does not hold one byte (R40, R192) -/
  | badStatusOperand (bytes : Nat)
deriving DecidableEq, Repr

end Sys2Proof
end

