-- ==== Sys2Proof/WellFormed.lean ====
section
/-! DEFINITION. The operand checks an instruction passes whatever the machine's parameters are (R55, R181, R184,
R186, R201): an ill-formed instruction is still an instruction, and its meaning ends with BADLEN or BOUNDARY. -/

namespace Sys2Proof

/-- READ moves at least one byte (R184, D12). -/
def WellFormed.read (n : Nat) : Bool := decide (1 ≤ n)

/-- WRITE moves at least one byte, has a payload of its length, and stays in one page (R55, R186). -/
def WellFormed.write (a : Addr) (n : Nat) (p : List Byte) : Bool :=
  decide (1 ≤ n) && decide (p.length = n) && decide (a.toNat % Config.page + n ≤ Config.page)

/-- PAGED_WRITE moves at least one byte, has a payload of its length, and ends by the top (R201, R203). -/
def WellFormed.pagedWrite (a : Addr) (n : Nat) (p : List Byte) : Bool :=
  decide (1 ≤ n) && decide (p.length = n) && decide (a.toNat + n ≤ Config.addrTop)

/-- The operands of `i` pass the checks the spec makes before any event. -/
def Instr.wf (i : Instr) : Bool :=
  match i with
  | .read _ n => WellFormed.read n
  | .write a n p => WellFormed.write a n p
  | .pagedWrite a n p => WellFormed.pagedWrite a n p
  | .wren => true
  | .wrdi => true
  | .rdsr => true
  | .wrsr _ => true
  | .eral => true
  | .setal => true
  | .startHeader => true
  | .waitWip => true

end Sys2Proof
end

