-- ==== Sys2Proof/Decode.lean ====
section
/-! DEFINITION. The opcode map (R85), the command frame as bytes (R80, R183) read back into an instruction, the
host's request ports read into an instruction (R40, R88), and the encoders beside them. -/

namespace Sys2Proof

/-- The opcode values of R85. -/
def Opcode.code (o : Opcode) : Byte :=
  match o with
  | .read => 0x03
  | .write => 0x6C
  | .wren => 0x96
  | .wrdi => 0x91
  | .rdsr => 0x05
  | .wrsr => 0x6E
  | .eral => 0x6D
  | .setal => 0x67

/-- The opcode a byte names; the other 248 values name none (R86). -/
def decodeOpcode (b : Byte) : Option Opcode :=
  if b = 0x03 then some .read
  else if b = 0x6C then some .write
  else if b = 0x96 then some .wren
  else if b = 0x91 then some .wrdi
  else if b = 0x05 then some .rdsr
  else if b = 0x6E then some .wrsr
  else if b = 0x6D then some .eral
  else if b = 0x67 then some .setal
  else none

/-- The high byte `a[15:8]` of an address (R81). -/
def addrHigh (a : Addr) : Byte := BitVec.extractLsb' 8 8 a

/-- The low byte `a[7:0]` of an address (R81). -/
def addrLow (a : Addr) : Byte := BitVec.extractLsb' 0 8 a

/-- `{h, l}`: the address the two bytes of a frame carry (R81, R196(c)). -/
def addrOf (h l : Byte) : Addr := h ++ l

/-- What the bytes after the opcode say, by the opcode's format (R80); `len` and `wdata` are the operands that
are never put in the command frame (R81, R82). -/
def decodeOperands (o : Opcode) (rest : List Byte) (len : Nat) (wdata : List Byte) : Except DecodeError Instr :=
  match o, rest with
  | .read, [h, l] => .ok (.read (addrOf h l) len)
  | .write, [h, l] => .ok (.write (addrOf h l) len wdata)
  | .wren, [] => .ok .wren
  | .wrdi, [] => .ok .wrdi
  | .rdsr, [] => .ok .rdsr
  | .wrsr, [v] => .ok (.wrsr v)
  | .eral, [] => .ok .eral
  | .setal, [] => .ok .setal
  | o, rest => .error (.wrongLength o (rest.length + 2))

/-- A command frame, byte 0 first, read back into the instruction it is the frame of (R80). Byte 0, the device
address, is a parameter and no operand (R21, R81; log 12). One byte is the start header or nothing (R78). -/
def decode (frame : List Byte) (len : Nat) (wdata : List Byte) : Except DecodeError Instr :=
  match frame with
  | [] => .error .emptyFrame
  | [b] => if b = Config.startHeader then .ok .startHeader else .error (.loneByte b)
  | _ :: op :: rest =>
    match decodeOpcode op with
    | some o => decodeOperands o rest len wdata
    | none => .error (.reservedOpcode op)

/-- `cmdframe2(op)` of R183, format `F2`. -/
def cmdframe2 (d : Byte) (o : Opcode) : List Byte := [d, o.code]

/-- `cmdframe3(op, v)` of R183, format `F3`. -/
def cmdframe3 (d : Byte) (o : Opcode) (v : Byte) : List Byte := [d, o.code, v]

/-- `cmdframe4(op, a)` of R183, format `F4`. -/
def cmdframe4 (d : Byte) (o : Opcode) (a : Addr) : List Byte := [d, o.code, addrHigh a, addrLow a]

/-- The bytes of an instruction: its command frame at device address `d` (R80), the header byte for
START_HEADER (R78); the two pseudo-instructions have none of their own (R89). -/
def encode (d : Byte) (i : Instr) : Option (List Byte) :=
  match i with
  | .read a _ => some (cmdframe4 d .read a)
  | .write a _ _ => some (cmdframe4 d .write a)
  | .wren => some (cmdframe2 d .wren)
  | .wrdi => some (cmdframe2 d .wrdi)
  | .rdsr => some (cmdframe2 d .rdsr)
  | .wrsr v => some (cmdframe3 d .wrsr v)
  | .eral => some (cmdframe2 d .eral)
  | .setal => some (cmdframe2 d .setal)
  | .startHeader => some [Config.startHeader]
  | .waitWip => none
  | .pagedWrite _ _ _ => none

/-- The `length` operand of an instruction, 0 where it has none (R88). -/
def Instr.lenOperand (i : Instr) : Nat :=
  match i with
  | .read _ n => n
  | .write _ n _ => n
  | .pagedWrite _ n _ => n
  | _ => 0

/-- The `payload` operand of an instruction, empty where it has none (R88). -/
def Instr.payloadOperand (i : Instr) : List Byte :=
  match i with
  | .write _ _ p => p
  | .pagedWrite _ _ p => p
  | _ => []

/-- The instruction the host's ports ask for (R40, R88). -/
def decodeRequest (r : Request) : Except DecodeError Instr :=
  match r with
  | .image frame len wdata => decode frame len wdata
  | .call .read a n _ => .ok (.read a n)
  | .call .write a n p => .ok (.write a n p)
  | .call .wren _ _ _ => .ok .wren
  | .call .wrdi _ _ _ => .ok .wrdi
  | .call .rdsr _ _ _ => .ok .rdsr
  | .call .wrsr _ _ [v] => .ok (.wrsr v)
  | .call .wrsr _ _ p => .error (.badStatusOperand p.length)
  | .call .eral _ _ _ => .ok .eral
  | .call .setal _ _ _ => .ok .setal
  | .call .waitWip _ _ _ => .ok .waitWip
  | .call .pagedWrite a n p => .ok (.pagedWrite a n p)

/-- What the host puts on its ports to ask for `i` (R40, R88); START_HEADER has no `cmd` value and is asked for by
its byte (log 13). -/
def encodeRequest (i : Instr) : Request :=
  match i with
  | .read a n => .call .read a n []
  | .write a n p => .call .write a n p
  | .wren => .call .wren 0 0 []
  | .wrdi => .call .wrdi 0 0 []
  | .rdsr => .call .rdsr 0 0 []
  | .wrsr v => .call .wrsr 0 0 [v]
  | .eral => .call .eral 0 0 []
  | .setal => .call .setal 0 0 []
  | .startHeader => .image [Config.startHeader] 0 []
  | .waitWip => .call .waitWip 0 0 []
  | .pagedWrite a n p => .call .pagedWrite a n p

/-- The `k` bytes of a table word, byte 0 the most significant (R80; "byte_order" of opcode_table.json). -/
def tableBytes (k w : Nat) : List Byte :=
  match k with
  | 0 => []
  | k + 1 => BitVec.ofNat 8 (w >>> (8 * k)) :: tableBytes k w

/-- The length that stands beside a table word, which gives it no bits: the least that READ and WRITE take (R184, R186;
log 11). -/
def tableLen : Nat := 1

/-- The payload that stands beside a table word: as many bytes, all zero (log 11). -/
def tablePayload : List Byte := [0]

/-- The instruction the decoder reads from a row's `nbits` bits `w`, numbered as the table numbers them, with the
length and the payload above beside them (log 11). -/
def decodeTableWord (nbits w : Nat) : Option Instr :=
  match decode (tableBytes (nbits / 8) w) tableLen tablePayload with
  | .ok i => some i
  | .error _ => none

end Sys2Proof
end

