-- ==== Sys2Proof/Machine/State.lean ====
section
/-! DEFINITION. Everything the spec gives the machine, as plain data, and the machine right after reset
(10_state.md, 70_reset_and_hazards.md R260). -/

namespace Sys2Proof.Machine

/-- `DIR`: the master drives the line or only senses it (R22). -/
inductive Dir where
  | output
  | input
deriving DecidableEq, Repr

/-- The event alphabet of R100. -/
inductive Event where
  /-- `OUT` -/
  | out
  /-- `IN` -/
  | inp
  /-- `DRV(v)` -/
  | drv (v : Bit)
  /-- `SMP(v)` -/
  | smp (v : Bit)
  /-- `DLY(n)`, a lower bound in microseconds -/
  | dly (n : Nat)
  /-- `LOCK` -/
  | lock
  /-- `UNLOCK` -/
  | unlock
deriving DecidableEq, Repr

/-- The five named constants a `Wait` is given (R109). -/
inductive Delay where
  | gap
  | stbyLow
  | stbyHigh
  | hdr
  | quarter
deriving DecidableEq, Repr

/-- One operation of the pseudocode of 41 to 44, as the sequencer holds it while a command is under way (R33,
R175): a position in the pseudocode is the list of operations still to be done. -/
inductive Op where
  | setOutput
  | setInput
  | setLevel (v : Bit)
  /-- `SA <- ReadLevel()` -/
  | sampleA
  /-- `SB <- ReadLevel()` -/
  | sampleB
  | wait (c : Delay)
  | lock
  | unlock
  | xferBit (w : Bit)
  | recvBit
  | sendByte (v : Byte) (last : Bit)
  /-- the loop of `SEND_BYTE`, `k` turns to go -/
  | sendBits (k : Nat)
  /-- `SHREG <- {SHREG[6:0], 0}` -/
  | shiftOut
  | recvByte (last : Bit)
  /-- the loop of `RECV_BYTE`, `k` turns to go -/
  | recvBits (k : Nat)
  /-- `SHREG <- {SHREG[6:0], r}` -/
  | shiftIn
  /-- `SAKF <- ` the value of the closing receive slot -/
  | latchSak
  | sendFrame (bytes : List Byte) (final : Bit)
  /-- the test of `SAKF` after a byte of a frame -/
  | checkSak
  | recvFrame (n : Nat)
  /-- the loop of `RECV_FRAME`, `k` bytes to go -/
  | recvBytes (k : Nat)
  /-- `RBUF <- RBUF followed by d` -/
  | storeByte
  | standbyPulse
  | startHeader
  | gap
  /-- the building of a command frame, and the loading of the payload of a WRITE, in `WBUF` -/
  | loadWbuf (bytes : List Byte)
  /-- `ADDR <- a; LEN <- n` -/
  | loadAddr (a : Addr) (n : Nat)
  /-- the place after the `UNLOCK` of a WRITE at `a`: nothing is to do where it was acknowledged (R58) -/
  | written (a : Addr)
  /-- the page of `a` becomes unspecified: a WRITE there has failed (R58) -/
  | losePage (a : Addr)
  /-- WREN as a step of PAGED_WRITE -/
  | wren
  /-- WRITE as a step of PAGED_WRITE -/
  | write (a : Addr) (n : Nat) (p : List Byte)
  /-- `POLLCNT <- 0` -/
  | pollStart
  /-- the head of the loop of WAIT_WIP -/
  | pollLoop
  /-- `POLLCNT <- POLLCNT + 1` -/
  | countPoll
  /-- the test of bit 0 of the status byte -/
  | testWip
  /-- the head of the page loop of PAGED_WRITE: the address and the payload still to be written -/
  | pages (a : Addr) (p : List Byte)
  /-- the command ends with a result code and no data -/
  | ret (r : Result)
  /-- the command ends with `OK` and `RBUF` -/
  | retData
deriving DecidableEq, Repr

/-- What the reference slave is waiting for (95_test_vectors.md section 3). -/
inductive Phase where
  /-- not in a command: silent until the next standby pulse or header -/
  | silent
  /-- the start-header byte -/
  | header
  /-- the device-address byte -/
  | address
  /-- the opcode byte -/
  | opcode
  /-- the first address byte of a READ (`false`) or a WRITE (`true`) -/
  | addrHigh (write : Bool)
  /-- the second address byte -/
  | addrLow (write : Bool) (hi : Byte)
  /-- sending array bytes, the next one from `a` -/
  | sendData (a : Nat)
  /-- sending the status byte -/
  | sendStatus
  /-- taking payload bytes for `a`, those taken so far in `buf` -/
  | recvData (a : Nat) (buf : List Byte)
  /-- the value byte of a WRSR -/
  | statusValue
deriving DecidableEq, Repr

/-- How much of a low pulse without a sample (a standby pulse or a header hold) the slave has seen. -/
inductive Pulse where
  | none
  | fell
  | held
deriving DecidableEq, Repr

/-- The reference slave of 95_test_vectors.md section 3: the EEPROM array, its status register (R26) and its
protocol state machine (R37). -/
structure Slave where
  /-- the slave answers the samples; `false`: the oracle does (log 14) -/
  answers : Bool
  /-- `present` -/
  present : Bool
  /-- `SADDR` -/
  saddr : Byte
  /-- `MEM`, in canonical form -/
  mem : List Host.Cell
  /-- `STATUS` -/
  status : Byte
  /-- `K`, status reads that shall still show `WIP = 1` -/
  k : Nat
  /-- `K0`, the length of a write cycle in polls -/
  k0 : Nat
  phase : Phase
  /-- the bit slot of the byte slot, 0 to 9 (R75) -/
  slot : Nat
  /-- the next sample is the second one of its slot -/
  second : Bool
  /-- the bits read in this byte slot -/
  shift : Byte
  /-- the value read in the MAK slot -/
  mak : Bit
  pulse : Pulse
deriving DecidableEq, Repr

/-- The line environment behind `ReadLevel()` (R104). -/
structure Env where
  /-- the answers to the next samples, the next one first (log 2) -/
  script : List Bit
  /-- how many samples the oracle has answered; indexes the free values -/
  draws : Nat
  slave : Slave
deriving DecidableEq, Repr

structure State where
  /-- `DEVADDR[7:0]` (R21) -/
  devaddr : Byte
  /-- `DIR` (R22) -/
  dir : Dir
  /-- `LVL` (R23) -/
  lvl : Bit
  /-- `GUARD` (R24) -/
  guard : Bit
  /-- the `T_*` constants (R25) -/
  timing : Timing
  /-- the open parameters (R7) -/
  params : Params
  /-- `SHREG[7:0]` (R28) -/
  shreg : Byte
  /-- `SA` (R29) -/
  sa : Bit
  /-- `SB` (R29) -/
  sb : Bit
  /-- `SAKF` (R30) -/
  sakf : Bit
  /-- `ADDR[15:0]` (R31) -/
  addr : Addr
  /-- `LEN` (R31) -/
  len : Nat
  /-- `WBUF` (R32) -/
  wbuf : List Byte
  /-- `RBUF` (R32) -/
  rbuf : List Byte
  /-- `SEQ` (R33): empty is `IDLE` (log 1) -/
  seq : List Op
  /-- `RESULT` (R34) -/
  result : Result
  /-- `POLLCNT` (R35) -/
  pollcnt : Nat
  /-- the commands the host will issue, the next one first (R40, R41; log 10) -/
  host : List Request
  /-- port `done` (R40) -/
  done : Bool
  /-- port `rdata` (R40, R226) -/
  rdata : Option (List Byte)
  /-- the line environment (R8, R104) -/
  env : Env
  /-- the event trace, newest event first (R9, R36; log 7) -/
  trace : List Event
  /-- how often the working registers have become unspecified (log 8) -/
  epoch : Nat
deriving DecidableEq, Repr

/-- Why a step stops with a fault. -/
inductive Fault where
  /-- `LOCK()` at `GUARD = 1` (R172, U17). Raised by `lock`. Safe: the spec itself calls it a fault of the
  model and says that no command reaches it. -/
  | guardHeld
deriving DecidableEq, Repr

/-- Why a step has no meaning. -/
inductive Refusal where
  /-- an instruction without a meaning yet; raised by `exec` only. Safe. -/
  | notModelled (mnemonic : String)
  /-- a command issued while another runs (R41, R243). Raised by `issue`. Safe. -/
  | busy
  /-- a request that R220 and R243 call a refusal, with its code: `BADLEN` from READ, WRITE and PAGED_WRITE, `REFUSED`
  from ERAL and SETAL. Raised by `decline`. Safe. -/
  | declined (code : Result)
  /-- a request that names no command (R86, R243). Raised by `step`. Safe. -/
  | undecodable (e : DecodeError)
deriving DecidableEq, Repr

/-- The reference slave before anything is known of it (R261): it does not answer, the oracle does. DESIGN
CHOICE of the other values: log 14. -/
def Slave.reset : Slave :=
  { answers := false, present := true, saddr := 0xA0, mem := [], status := 0, k := 0, k0 := 0,
    phase := .silent, slot := 0, second := false, shift := 0, mak := false, pulse := .none }

/-- The line environment at reset: no answer is laid down. -/
def Env.reset : Env := { script := [], draws := 0, slave := Slave.reset }

/-- The master right after reset (R38, R260). DESIGN CHOICE of the working registers: log 3. -/
def State.reset : State :=
  { devaddr := Config.deviceAddress, dir := .output, lvl := true, guard := false,
    timing := Config.timing, params := Config.params,
    shreg := 0, sa := false, sb := false, sakf := false, addr := 0, len := 0, wbuf := [], rbuf := [],
    seq := [], result := .ok, pollcnt := 0, host := [], done := false, rdata := none,
    env := Env.reset, trace := [], epoch := 0 }

end Sys2Proof.Machine
end

