-- ==== Sys2Proof/Machine/Memory.lean ====
section
/-! DEFINITION. The EEPROM array as a list of cells in one canonical form: addresses strictly rising and below the
top, no cell equal to what an unlisted address reads as (20_memory.md R50, R51, R60). -/

namespace Sys2Proof.Machine

/-- What an unlisted address of the array reads as. DESIGN CHOICE (log 17): the erased byte program P2 of
95_test_vectors.md starts from. -/
def Memory.blank : Byte := 0xFF

/-- The byte at address `a`. -/
def Memory.read (m : List Host.Cell) (a : Nat) : Byte :=
  match m with
  | [] => Memory.blank
  | (b, v) :: rest => if b = a then v else Memory.read rest a

/-- The array with byte `v` at address `a`. -/
def Memory.write (m : List Host.Cell) (a : Nat) (v : Byte) : List Host.Cell :=
  match m with
  | [] => if v = Memory.blank then [] else [(a, v)]
  | (b, w) :: rest =>
    if a < b then (if v = Memory.blank then (b, w) :: rest else (a, v) :: (b, w) :: rest)
    else if a = b then (if v = Memory.blank then rest else (a, v) :: rest)
    else (b, w) :: Memory.write rest a v

/-- The bytes of `vs` at `a`, `a + 1`, and so on (R53). -/
def Memory.writeMany (m : List Host.Cell) (a : Nat) (vs : List Byte) : List Host.Cell :=
  match vs with
  | [] => m
  | v :: rest => Memory.writeMany (Memory.write m a v) (a + 1) rest

/-- The `n` bytes at `a`, `a + 1`, and so on (R53). -/
def Memory.readMany (m : List Host.Cell) (a n : Nat) : List Byte :=
  match n with
  | 0 => []
  | n + 1 => Memory.read m a :: Memory.readMany m (a + 1) n

/-- The cells from `lo` on are in canonical form. -/
def Memory.wfFrom (lo : Nat) (m : List Host.Cell) : Bool :=
  match m with
  | [] => true
  | (a, v) :: rest =>
    decide (lo ≤ a) && decide (a < Config.addrTop) && decide (v ≠ Memory.blank) && Memory.wfFrom (a + 1) rest

/-- The array is in canonical form. -/
def Memory.wf (m : List Host.Cell) : Bool := Memory.wfFrom 0 m

end Sys2Proof.Machine
end

