-- ==== Sys2Proof/Machine/Environment.lean ====
section
/-! DEFINITION. The line environment: the oracle of R104 (a script of answers, then free values), and the reference
slave of 95_test_vectors.md section 3, which follows the master's events. -/

namespace Sys2Proof.Machine

/-- `{b[6:0], v}`: shift left by one place, `v` into bit 0 (R149). -/
def shiftLeftIn (b : Byte) (v : Bit) : Byte := b <<< (1 : Nat) ||| (if v then 1 else 0)

/-- Whether the byte slot that is running is acknowledged (section 3, rules 3 and 4). -/
def Slave.acks (sl : Slave) : Bool :=
  match sl.phase with
  | .silent => false
  | .header => false
  | .address => decide (sl.shift = sl.saddr)
  | _ => true

/-- The byte the slave sends in the byte slot that is running, if it sends one (section 3, rule 5). -/
def Slave.sends (sl : Slave) : Option Byte :=
  match sl.phase with
  | .sendData a => some (Memory.read sl.mem a)
  | .sendStatus => some sl.status
  | _ => none

/-- The bit the slave presents in a receive slot; `none` is silence (section 3, rules 2 to 6). -/
def Slave.presents (sl : Slave) : Option Bit :=
  if sl.present = false then none
  else if sl.slot < 8 then sl.sends.map (fun b => b.getLsbD (7 - sl.slot))
  else if sl.slot = 9 && sl.acks then some true
  else none

/-- The level of the wire at the next sample: what the master drives (section 3, rule 1), else bit 1 as low then
high, bit 0 as high then low, silence as high (rule 2). -/
def Slave.level (sl : Slave) (dir : Dir) (lvl : Bit) : Bit :=
  match dir with
  | .output => lvl
  | .input =>
    match sl.presents with
    | some b => if sl.second then b else !b
    | none => true

/-- The status register after one read of it (section 3, rule 5, opcode 0x05). -/
def Slave.statusRead (sl : Slave) : Slave :=
  if sl.k = 0 then sl
  else if sl.k = 1 then { sl with k := 0, status := sl.status &&& 0xFE }
  else { sl with k := sl.k - 1 }

/-- The end of a WRITE: the payload is stored and the write cycle begins (section 3, rule 5, opcode 0x6C). A
payload that would pass the top of the array leaves the slave under no law (log 16). -/
def Slave.store (sl : Slave) (a : Nat) (buf : List Byte) : Slave :=
  if a + buf.length ≤ Config.addrTop then
    { sl with mem := Memory.writeMany sl.mem a buf, k := sl.k0,
              status := if sl.k0 = 0 then sl.status else sl.status ||| 0x01, phase := .silent }
  else { sl with answers := false, phase := .silent }

/-- What the slave does with the opcode byte (section 3, rule 5). An opcode section 3 gives no behaviour leaves it
under no law (log 16). -/
def Slave.opcodeRead (sl : Slave) : Slave :=
  match decodeOpcode sl.shift with
  | some .rdsr => { sl with phase := .sendStatus }
  | some .read => { sl with phase := .addrHigh false }
  | some .write => { sl with phase := .addrHigh true }
  | some .wren => { sl with phase := .silent }
  | some .wrdi => { sl with phase := .silent }
  | some .wrsr => { sl with phase := .statusValue }
  | _ => { sl with answers := false, phase := .silent }

/-- The end of a byte slot (section 3, rules 3 to 5). -/
def Slave.byteDone (sl : Slave) : Slave :=
  match sl.phase with
  | .silent => sl
  | .header => { sl with phase := .address }
  | .address => { sl with phase := if sl.present && sl.acks then .opcode else .silent }
  | .opcode => sl.opcodeRead
  | .addrHigh w => { sl with phase := .addrLow w sl.shift }
  | .addrLow w hi =>
    { sl with phase := if w then .recvData (addrOf hi sl.shift).toNat [] else .sendData (addrOf hi sl.shift).toNat }
  | .sendData a =>
    if sl.mak = Config.makLast then { sl with phase := .silent }
    else if a + 1 < Config.addrTop then { sl with phase := .sendData (a + 1) }
    else { sl with answers := false, phase := .silent }
  | .sendStatus => { sl.statusRead with phase := .silent }
  | .recvData a buf =>
    if sl.mak = Config.makLast then sl.store a (buf ++ [sl.shift])
    else { sl with phase := .recvData a (buf ++ [sl.shift]) }
  | .statusValue =>
    { sl with status := (sl.shift &&& 0xFE) ||| (sl.status &&& 0x01), phase := .silent }

/-- The end of a bit slot: a bit the master drove is the level of the second half (section 3, rule 4). -/
def Slave.slotDone (sl : Slave) (dir : Dir) (lvl : Bit) : Slave :=
  if sl.slot < 8 then
    { sl with second := false, slot := sl.slot + 1,
              shift := if dir = .output then shiftLeftIn sl.shift lvl else sl.shift }
  else if sl.slot = 8 then { sl with second := false, slot := 9, mak := lvl }
  else { sl.byteDone with second := false, slot := 0, shift := 0 }

/-- A standby pulse or a header hold puts the slave at the start of a command (section 3, rule 3). DESIGN CHOICE
(log 29): every header hold does, in the middle of a transaction too, where section 3 says nothing (U7). -/
def Slave.restart (sl : Slave) : Slave :=
  { sl with phase := .header, slot := 0, second := false, shift := 0 }

/-- What the slave makes of an event of the master. DESIGN CHOICE (log 15): a standby pulse and a header hold are
known by a low phase in which no sample falls. -/
def Slave.observe (sl : Slave) (dir : Dir) (lvl : Bit) (e : Event) : Slave :=
  match e with
  | .drv true => if sl.pulse = .held then { sl.restart with pulse := .none } else { sl with pulse := .none }
  | .drv false => { sl with pulse := .fell }
  | .dly _ => { sl with pulse := if sl.pulse = .fell then .held else .none }
  | .smp _ => if sl.second then { sl.slotDone dir lvl with pulse := .none } else { sl with second := true, pulse := .none }
  | .out => { sl with pulse := .none }
  | .inp => { sl with pulse := .none }
  | .lock => { sl with pulse := .none }
  | .unlock => { sl with pulse := .none }

/-- The answer to the next sample: the slave's where it answers, else the script's, else a free value (R104). -/
def Env.answer (e : Env) (dir : Dir) (lvl : Bit) : Bit :=
  if e.slave.answers then e.slave.level dir lvl
  else match e.script with
    | v :: _ => v
    | [] => Config.lineSample e.draws

/-- The environment after an event: the oracle has answered one more sample, or the slave has followed it. DESIGN
CHOICE (log 31): while the oracle answers, no event changes the array or the status register State holds. -/
def Env.observe (e : Env) (dir : Dir) (lvl : Bit) (ev : Event) : Env :=
  if e.slave.answers then { e with slave := e.slave.observe dir lvl ev }
  else match ev with
    | .smp _ => { e with script := e.script.tail, draws := e.draws + 1 }
    | _ => e

end Sys2Proof.Machine
end

