-- ==== Sys2Proof/Machine/Ops.lean ====
section
/-! DEFINITION. The named operations every meaning is made of: the six primitives of the line and timing units
(40_line_and_timing.md), the guard (R172, R173), the issue of a command (R41), its end, and the entry into a
failure (R225). -/

namespace Sys2Proof.Machine

/-- `emit E`: append the event to the trace (R11, R100); the environment sees it. -/
def emit (e : Event) (s : State) : State :=
  { s with trace := e :: s.trace, env := s.env.observe s.dir s.lvl e }

/-- The event trace, oldest event first (R9). -/
def State.events (s : State) : List Event := s.trace.reverse

/-- `SetOutput()` (R101). -/
def setOutput (s : State) : State := emit .out { s with dir := .output }

/-- `SetInput()` (R102). -/
def setInput (s : State) : State := emit .inp { s with dir := .input }

/-- `SetLevel(v)`: the latch takes `v` whatever the direction is (R103, D4). -/
def setLevel (v : Bit) (s : State) : State := emit (.drv v) { s with lvl := v }

/-- `ReadLevel()` into `SA`: the value is the environment's answer (R104). -/
def sampleA (s : State) : State :=
  emit (.smp (s.env.answer s.dir s.lvl)) { s with sa := s.env.answer s.dir s.lvl }

/-- `ReadLevel()` into `SB` (R104). -/
def sampleB (s : State) : State :=
  emit (.smp (s.env.answer s.dir s.lvl)) { s with sb := s.env.answer s.dir s.lvl }

/-- `Delay(n)`: at least `n` microseconds pass (R107). -/
def delay (n : Nat) (s : State) : State := emit (.dly n) s

/-- The constant a `Wait` names (R109). -/
def delayConstant (t : Timing) (c : Delay) : Nat :=
  match c with
  | .gap => t.gap
  | .stbyLow => t.stbyLow
  | .stbyHigh => t.stbyHigh
  | .hdr => t.hdr
  | .quarter => t.quarter

/-- The microseconds `Wait(c)` requests: the fudge factor is added to every delay (R109, C1). -/
def requestedDelay (t : Timing) (c : Delay) : Nat := delayConstant t c + t.fudge

/-- `Wait(c)` (R109). -/
def wait (c : Delay) (s : State) : State := delay (requestedDelay s.timing c) s

/-- `GUARD <- 1` and the event `LOCK` (R172). -/
def takeGuard (s : State) : State := emit .lock { s with guard := true }

/-- `LOCK()`: a fault at `GUARD = 1` (R172). -/
def lock (s : State) : Except Fault State :=
  if s.guard then .error .guardHeld else .ok (takeGuard s)

/-- `UNLOCK()` (R173). -/
def unlock (s : State) : State := emit .unlock { s with guard := false }

/-- The start of a command: no working register survives from the command before (R27, U19; log 8), and nothing
is valid on the result ports until the command ends (R40). -/
def begin (s : State) : State :=
  { s with shreg := (Config.scratch s.epoch).shreg, sa := (Config.scratch s.epoch).sa,
           sb := (Config.scratch s.epoch).sb, sakf := (Config.scratch s.epoch).sakf,
           addr := (Config.scratch s.epoch).addr, len := (Config.scratch s.epoch).len,
           wbuf := (Config.scratch s.epoch).wbuf, rbuf := (Config.scratch s.epoch).rbuf,
           result := (Config.scratch s.epoch).result, pollcnt := (Config.scratch s.epoch).pollcnt,
           epoch := s.epoch + 1, done := false, rdata := none }

/-- The end of a command with result code `r` and no data: `RESULT <- r`, `SEQ` is `IDLE` (R14, R33, R34). A command
rejected before any event touches nothing else (R181, R262). After a missing acknowledgement `RBUF` is
unspecified (R226, D17; log 9). DESIGN CHOICE (log 32): between commands the working registers are unspecified (R20,
R27, D28, U19); here the others keep what they held at the end of the command until the next one starts. -/
def ret (r : Result) (s : State) : State :=
  { s with seq := [], result := r, done := true, rdata := none,
           rbuf := if r = .nosak then (Config.scratch s.epoch).rbuf else s.rbuf,
           epoch := if r = .nosak then s.epoch + 1 else s.epoch }

/-- The end of a command with `OK` and the bytes of `RBUF` (R180, R226). DESIGN CHOICE (log 32): the working registers,
which R20 leaves unspecified between commands, keep what they held until the next one starts. -/
def retData (s : State) : State :=
  { s with seq := [], result := .ok, done := true, rdata := some s.rbuf }

/-- The first address of the page of `a` (R52). -/
def pageStart (a : Addr) : Nat := a.toNat - a.toNat % Config.page

/-- The free values of `n` addresses from `a` on, the `k`-th time. -/
def lostBytes (k a n : Nat) : List Byte :=
  match n with
  | 0 => []
  | n + 1 => Config.lostByte k a :: lostBytes k (a + 1) n

/-- The free values of the page that starts at `a`, the `k`-th time. Irreducible: its laws are `lostPage_length` and
`losePage_inside`, and nothing has to unfold it. -/
@[irreducible] def lostPage (k a : Nat) : List Byte := lostBytes k a Config.page

/-- Every byte of the page of `a` becomes unspecified (R58, U4; log 28): a free value, whoever answers the samples. -/
def losePage (a : Addr) (s : State) : State :=
  { s with env := { s.env with slave := { s.env.slave with
      mem := Memory.writeMany s.env.slave.mem (pageStart a) (lostPage s.epoch (pageStart a)) } } }

/-- What a WRITE at `a` with result `r` leaves of its page: unspecified after a missing acknowledgement (R58). DESIGN
CHOICE (log 31): after `OK` the array is what the environment made of it, and while the oracle answers that is nothing. -/
def endWrite (a : Addr) (r : Result) (s : State) : State :=
  match r with
  | .nosak => losePage a s
  | _ => s

/-- The end of a WRITE at `a`, its `UNLOCK` done (R58); the fault is that of `LOCK()`. -/
def finishWrite (a : Addr) (r : Except Fault (Result × State)) : Except Fault (Result × State) :=
  match r with
  | .error f => .error f
  | .ok (r, t) => .ok (r, endWrite a r t)

/-- `WBUF <-` the bytes to send (R32). -/
def loadWbuf (bytes : List Byte) (s : State) : State := { s with wbuf := bytes }

/-- `ADDR <- a; LEN <- n` (R31, R184, R186). -/
def loadAddr (a : Addr) (n : Nat) (s : State) : State := { s with addr := a, len := n }

/-- A command is issued at `IDLE` only; a start while a command runs has no meaning (R41, R243). -/
def issue (k : State → Host.Outcome State Fault Refusal) (s : State) : Host.Outcome State Fault Refusal :=
  match s.seq with
  | [] => k s
  | _ :: _ => .refused .busy

/-- A request whose check raises `code`, `BADLEN` or `REFUSED`: "the model gives the request no meaning" (R243, R220;
log 6). -/
def decline (code : Result) : Host.Outcome State Fault Refusal := .refused (.declined code)

/-- The last step of a command without data (R180); the fault is that of `LOCK()`. -/
def conclude (r : Except Fault (Result × State)) : Host.Outcome State Fault Refusal :=
  match r with
  | .error f => .fault f
  | .ok (r, t) => .next (ret r t)

/-- The end of a command that returns data when its result is `OK` (R180, R226). -/
def retWith (r : Result) (s : State) : State :=
  match r with
  | .ok => retData s
  | r => ret r s

/-- The last step of a command that returns data when its result is `OK` (R180, R226). -/
def concludeData (r : Except Fault (Result × State)) : Host.Outcome State Fault Refusal :=
  match r with
  | .error f => .fault f
  | .ok (r, t) => .next (retWith r t)

/-- The port `line_oe` (R40). -/
def State.lineOe (s : State) : Bit := decide (s.dir = .output)

/-- The port `line_out` (R40). -/
def State.lineOut (s : State) : Bit := s.lvl

/-- The level of the wire when the environment drives `ext` (`none`: nothing), where anybody drives it (R106, D6). -/
def State.wire (s : State) (ext : Option Bit) : Option Bit :=
  match s.dir, ext with
  | .input, ext => ext
  | .output, none => some s.lvl
  | .output, some e => some (if e = s.lvl then e else s.params.dominantLevel)

end Sys2Proof.Machine
end

