-- ==== Sys2Proof/Machine/Flags.lean ====
section
/-! DEFINITION. The condition values of the block: the value of a bit slot from `SA` and `SB` (R71, R121), `SAKF`
(R30), bit 0 of the status byte (R26, R196(d)), and the numbers of the result codes (R220). -/

namespace Sys2Proof.Machine

/-- The value read in the last bit slot: `SB AND NOT SA` (R71). -/
def slotValue (s : State) : Bit := s.sb && !s.sa

/-- `SAKF <-` the value of the closing receive slot (R30, R140, R144). -/
def latchSak (s : State) : State := { s with sakf := slotValue s }

/-- `WIP`: bit 0 of the status byte, the first byte of `RBUF` (R26, R198). Where `RBUF` is empty, which no command
reaches, the byte is the free value of log 8. -/
def statusBusy (s : State) : Bit := (s.rbuf.headD (Config.scratch s.epoch).shreg).getLsbD 0

/-- The numbers of the result codes (R220). -/
def resultCode (r : Result) : Nat :=
  match r with
  | .ok => 0
  | .nosak => 1
  | .boundary => 2
  | .timeout => 3
  | .badlen => 4
  | .refused => 5

end Sys2Proof.Machine
end

