-- ==== Sys2Proof/Machine/Operands.lean ====
section
/-! DEFINITION. The operand forms of the commands: the checks made before any event (R181, R229), the MAK value
(R142), the chunks of PAGED_WRITE (R201, R202). -/

namespace Sys2Proof.Machine

/-- `mak(last)` (R142). -/
def mak (last : Bit) : Bit := if last then Config.makLast else Config.makMore

/-- READ refuses `n = 0` and an `n` above `MAX_LEN` (R184, D12). -/
def readBadLen (p : Params) (n : Nat) : Bool :=
  decide (n = 0) || (match p.maxLen with
    | some m => decide (m < n)
    | none => false)

/-- WRITE refuses `n = 0` and a payload whose length is not `n` (R186, D12). -/
def writeBadLen (n : Nat) (p : List Byte) : Bool := decide (n = 0) || decide (p.length ≠ n)

/-- `(a mod 16) + n > 16`, without wrap (R55, R187, R196). -/
def crossesPage (a : Addr) (n : Nat) : Bool := decide (a.toNat % Config.page + n > Config.page)

/-- PAGED_WRITE refuses `n = 0`, a payload whose length is not `n`, and a range past the top (R201, D13). -/
def pagedBadLen (a : Addr) (n : Nat) (p : List Byte) : Bool :=
  decide (n = 0) || decide (p.length ≠ n) || decide (a.toNat + n > Config.addrTop)

/-- The size of the next chunk: to the end of the page or of the request, whichever is nearer (R201, R202). -/
def chunkLen (a : Addr) (left : Nat) : Nat := min left (Config.page - a.toNat % Config.page)

/-- `a + c`; exact in every range PAGED_WRITE accepts (R196(e)). -/
def addrPlus (a : Addr) (c : Nat) : Addr := a + BitVec.ofNat 16 c

/-- `POLL_LIMIT` is set and as many polls were made (R198). -/
def limitReached (s : State) : Bool :=
  match s.params.pollLimit with
  | some k => decide (s.pollcnt = k)
  | none => false

end Sys2Proof.Machine
end

