-- ==== Sys2Proof/Machine/Bits.lean ====
section
/-! DEFINITION. The bit transceiver (41_bit_transceiver.md). -/

namespace Sys2Proof.Machine

/-- `XFER_BIT(w)` (R120); its result is `slotValue` (R121). -/
def xferBit (w : Bit) (s : State) : State :=
  wait .quarter (sampleB (wait .quarter (setLevel w (wait .quarter (sampleA (wait .quarter (setLevel (!w) s)))))))

/-- `RECV_BIT()` (R124); its result is `slotValue` (R126). -/
def recvBit (s : State) : State := setOutput (xferBit true (setInput s))

end Sys2Proof.Machine
end

