-- ==== Sys2Proof/Machine/Bytes.lean ====
section
/-! DEFINITION. The byte framer (42_byte_framer.md). -/

namespace Sys2Proof.Machine

/-- `SHREG <- v`. -/
def loadShreg (v : Byte) (s : State) : State := { s with shreg := v }

/-- `SHREG <- {SHREG[6:0], 0}` (R140, R149). -/
def shiftOut (s : State) : State := { s with shreg := shiftLeftIn s.shreg false }

/-- `SHREG <- {SHREG[6:0], r}`, `r` the value of the receive slot just run (R144, R149). -/
def shiftIn (s : State) : State := { s with shreg := shiftLeftIn s.shreg (slotValue s) }

/-- The loop of `SEND_BYTE`, `k` turns (R140). -/
def sendBits (k : Nat) (s : State) : State :=
  match k with
  | 0 => s
  | k + 1 => sendBits k (shiftOut (xferBit (s.shreg.getLsbD 7) s))

/-- The loop of `RECV_BYTE`, `k` turns (R144). -/
def recvBits (k : Nat) (s : State) : State :=
  match k with
  | 0 => s
  | k + 1 => recvBits k (shiftIn (recvBit s))

/-- The MAK slot and the SAK slot that close every byte slot (R75, R76, R77). -/
def handshake (last : Bit) (s : State) : State := latchSak (recvBit (xferBit (mak last) s))

/-- `SEND_BYTE(v, last)` (R140); its result is `SAKF` (R143). -/
def sendByte (v : Byte) (last : Bit) (s : State) : State := handshake last (sendBits 8 (loadShreg v s))

/-- `RECV_BYTE(last)` (R144); its result is `SHREG`, to be used only when `SAKF` is 1. -/
def recvByte (last : Bit) (s : State) : State := handshake last (recvBits 8 (loadShreg 0 s))

end Sys2Proof.Machine
end

