-- ==== Sys2Proof/Machine/Frames.lean ====
section
/-! DEFINITION. The frame codec and the guard (43_frame_codec.md), and the shape of a transaction (R180). -/

namespace Sys2Proof.Machine

/-- `SEND_FRAME(bytes, final)` (R160): stops at the first byte that is not acknowledged. -/
def sendFrame (bytes : List Byte) (final : Bit) (s : State) : Result × State :=
  match bytes with
  | [] => (.ok, s)
  | b :: rest =>
    if (sendByte b (final && rest.isEmpty) s).sakf then sendFrame rest final (sendByte b (final && rest.isEmpty) s)
    else (.nosak, sendByte b (final && rest.isEmpty) s)

/-- `RBUF <- RBUF followed by d`. -/
def storeByte (s : State) : State := { s with rbuf := s.rbuf ++ [s.shreg] }

/-- `RBUF <- empty`. -/
def clearRbuf (s : State) : State := { s with rbuf := [] }

/-- The loop of `RECV_FRAME`, `k` bytes to go (R163). -/
def recvBytes (k : Nat) (s : State) : Result × State :=
  match k with
  | 0 => (.ok, s)
  | k + 1 =>
    if (recvByte (decide (k = 0)) s).sakf then recvBytes k (storeByte (recvByte (decide (k = 0)) s))
    else (.nosak, recvByte (decide (k = 0)) s)

/-- `RECV_FRAME(n)` (R163). -/
def recvFrame (n : Nat) (s : State) : Result × State := recvBytes n (clearRbuf s)

/-- `STANDBY_PULSE()` (R166). -/
def standbyPulse (s : State) : State := wait .stbyHigh (setLevel true (wait .stbyLow (setLevel false s)))

/-- `START_HEADER()` (R168): the header's MAK slot is a literal 1 (C3) and its acknowledgement is not looked at. -/
def startHeader (s : State) : State := sendByte Config.startHeader true (wait .hdr (setLevel false s))

/-- `GAP()` (R170). -/
def gap (s : State) : State := wait .gap s

/-- The inside of the guard (R174): header, command frame, and the data frame when the command frame was
acknowledged (R182). -/
def transactionBody (frame : List Byte) (final : Bit) (data : State → Result × State) (s : State) : Result × State :=
  match sendFrame frame final (startHeader s) with
  | (.ok, t) => data t
  | (r, t) => (r, t)

/-- `LOCK()`, the body, and `UNLOCK()` on every path (R173, R225). -/
def guarded (body : State → Result × State) (s : State) : Except Fault (Result × State) :=
  match lock s with
  | .error f => .error f
  | .ok t => .ok ((body t).1, unlock (body t).2)

/-- One transaction that opens with a standby pulse (R180). `WBUF` takes the command frame and the payload of a
WRITE behind it (R32) before the first event, so that nothing but the frames is inside the guard (R174). DESIGN CHOICE
(log 30): the spec does not say when `WBUF` takes the payload. -/
def transact (frame payload : List Byte) (final : Bit) (data : State → Result × State) (s : State) :
    Except Fault (Result × State) :=
  guarded (transactionBody frame final data) (standbyPulse (loadWbuf (frame ++ payload) s))

/-- No data frame (R83). -/
def noData (s : State) : Result × State := (.ok, s)

/-- The payload of a WRITE as the final frame (R186). -/
def sendPayload (p : List Byte) (s : State) : Result × State := sendFrame p true s

end Sys2Proof.Machine
end

