-- ==== Sys2Proof/Machine/Bulk.lean ====
section
/-! DEFINITION. ERAL and SETAL (44_commands.md section 5). -/

namespace Sys2Proof.Machine

/-- The body of ERAL (R194). DESIGN CHOICE (log 31): what it does in the device is open (N14), and the array State holds
keeps its bytes. -/
def eralOp (s : State) : Except Fault (Result × State) := transact (cmdframe2 s.devaddr .eral) [] true noData s

/-- ERAL: REFUSED with no event unless `BULK_OPS` (R194). -/
def execEral (s : State) : Host.Outcome State Fault Refusal :=
  issue (fun s => if s.params.bulkOps then conclude (eralOp (begin s)) else decline .refused) s

/-- The body of SETAL (R195). DESIGN CHOICE (log 31): as of ERAL. -/
def setalOp (s : State) : Except Fault (Result × State) := transact (cmdframe2 s.devaddr .setal) [] true noData s

/-- SETAL: REFUSED with no event unless `BULK_OPS` (R195). -/
def execSetal (s : State) : Host.Outcome State Fault Refusal :=
  issue (fun s => if s.params.bulkOps then conclude (setalOp (begin s)) else decline .refused) s

end Sys2Proof.Machine
end

