-- ==== Sys2Proof/Machine/Header.lean ====
section
/-! DEFINITION. START_HEADER as an instruction of its own (43_frame_codec.md section 4). -/

namespace Sys2Proof.Machine

/-- START_HEADER (R168): the operation alone; it has no result code and no failure (log 13). -/
def execStartHeader (s : State) : Host.Outcome State Fault Refusal := issue (fun s => .next (startHeader s)) s

end Sys2Proof.Machine
end

