-- ==== Sys2Proof/Machine/Enable.lean ====
section
/-! DEFINITION. WREN and WRDI (44_commands.md section 3). -/

namespace Sys2Proof.Machine

/-- The body of WREN (R188): also a step of PAGED_WRITE. -/
def wrenOp (s : State) : Except Fault (Result × State) := transact (cmdframe2 s.devaddr .wren) [] true noData s

/-- WREN (R188). -/
def execWren (s : State) : Host.Outcome State Fault Refusal := issue (fun s => conclude (wrenOp (begin s))) s

/-- The body of WRDI (R189). -/
def wrdiOp (s : State) : Except Fault (Result × State) := transact (cmdframe2 s.devaddr .wrdi) [] true noData s

/-- WRDI (R189). -/
def execWrdi (s : State) : Host.Outcome State Fault Refusal := issue (fun s => conclude (wrdiOp (begin s))) s

end Sys2Proof.Machine
end

