-- ==== Sys2Proof/Machine/Polling.lean ====
section
/-! DEFINITION. WAIT_WIP (44_commands.md section 7). -/

namespace Sys2Proof.Machine

/-- How a run of WAIT_WIP or PAGED_WRITE leaves off: it has its result, or the last poll read `WIP = 1` and no
limit bounds the polls, so that it goes on from the head of the poll loop, `todo` after the loop (R200; log 19). -/
inductive Ending where
  | ends (r : Result)
  | polling (todo : List Op)
deriving DecidableEq, Repr

/-- `POLL()` (R197): RDSR without its standby pulse. -/
def poll (s : State) : Except Fault (Result × State) :=
  guarded (transactionBody (cmdframe2 s.devaddr .rdsr) false (recvFrame 1)) (loadWbuf (cmdframe2 s.devaddr .rdsr) s)

/-- `POLLCNT <- 0`. -/
def pollStart (s : State) : State := { s with pollcnt := 0 }

/-- `POLLCNT <- POLLCNT + 1`. -/
def countPoll (s : State) : State := { s with pollcnt := s.pollcnt + 1 }

/-- At most `turns` turns of the loop of WAIT_WIP (R198). -/
def waitTurns (turns : Nat) (s : State) : Except Fault (Ending × State) :=
  match turns with
  | 0 => .ok (.polling [], s)
  | turns + 1 =>
    if limitReached s then .ok (.ends .timeout, s)
    else match poll (gap s) with
      | .error f => .error f
      | .ok (.ok, t) =>
        if statusBusy (countPoll t) then waitTurns turns (countPoll t) else .ok (.ends .ok, countPoll t)
      | .ok (r, t) => .ok (.ends r, countPoll t)

/-- The turns one run of WAIT_WIP makes: all it can make where `POLL_LIMIT` bounds them, the limit test of the last
one included, else one (R198, R200; log 19). -/
def turnsPerRun (s : State) : Nat :=
  match s.params.pollLimit with
  | some k => k + 1
  | none => 1

/-- The body of WAIT_WIP (R198): also a step of PAGED_WRITE. -/
def waitOp (s : State) : Except Fault (Ending × State) := waitTurns (turnsPerRun s) (pollStart s)

/-- The last step of a command that may go on polling. -/
def concludeEnding (r : Except Fault (Ending × State)) : Host.Outcome State Fault Refusal :=
  match r with
  | .error f => .fault f
  | .ok (.ends r, t) => .next (ret r t)
  | .ok (.polling todo, t) => .next { t with seq := .pollLoop :: (todo ++ [.ret .ok]) }

/-- WAIT_WIP (R198). -/
def execWaitWip (s : State) : Host.Outcome State Fault Refusal :=
  issue (fun s => concludeEnding (waitOp (begin s))) s

end Sys2Proof.Machine
end

