-- ==== Sys2Proof/Machine/ReadWrite.lean ====
section
/-! DEFINITION. READ and WRITE (44_commands.md section 2). -/

namespace Sys2Proof.Machine

/-- The body of READ after its check (R184). -/
def readOp (a : Addr) (n : Nat) (s : State) : Except Fault (Result × State) :=
  transact (cmdframe4 s.devaddr .read a) [] false (recvFrame n) (loadAddr a n s)

/-- READ a, n (R184). -/
def execRead (a : Addr) (n : Nat) (s : State) : Host.Outcome State Fault Refusal :=
  issue (fun s => if readBadLen s.params n then decline .badlen else concludeData (readOp a n (begin s))) s

/-- The body of WRITE after its checks (R186), its page unspecified where it was not acknowledged (R58): also a step
of PAGED_WRITE, whose chunks pass both checks (R201, R202). -/
def writeOp (a : Addr) (n : Nat) (p : List Byte) (s : State) : Except Fault (Result × State) :=
  finishWrite a (transact (cmdframe4 s.devaddr .write a) p false (sendPayload p) (loadAddr a n s))

/-- WRITE a, n, p: `BADLEN` before `BOUNDARY` (R186, R229, D23). A rejected WRITE touches nothing (R181, R222). -/
def execWrite (a : Addr) (n : Nat) (p : List Byte) (s : State) : Host.Outcome State Fault Refusal :=
  issue (fun s =>
    if writeBadLen n p then decline .badlen
    else if crossesPage a n then .next (ret .boundary s)
    else conclude (writeOp a n p (begin s))) s

end Sys2Proof.Machine
end

