-- ==== Sys2Proof/Machine/Paged.lean ====
section
/-! DEFINITION. PAGED_WRITE (44_commands.md section 8). -/

namespace Sys2Proof.Machine

/-- WREN then WRITE of one chunk (R201). -/
def chunkOp (a : Addr) (chunk : List Byte) (s : State) : Except Fault (Result × State) :=
  match wrenOp s with
  | .error f => .error f
  | .ok (.ok, t) => writeOp a chunk.length chunk t
  | .ok (r, t) => .ok (r, t)

/-- At most `turns` turns of the page loop, `p` the payload still to be written, from `a` on (R201); `ADDR` and `LEN`
hold what is still to be written at the head of each turn (R31; log 24). -/
def pagedTurns (turns : Nat) (a : Addr) (p : List Byte) (s : State) : Except Fault (Ending × State) :=
  match turns with
  | 0 => .ok (.ends .ok, s)
  | turns + 1 =>
    if p.isEmpty then .ok (.ends .ok, s)
    else match chunkOp a (p.take (chunkLen a p.length)) (loadAddr a p.length s) with
      | .error f => .error f
      | .ok (.ok, t) =>
        (match waitOp t with
        | .error f => .error f
        | .ok (.ends .ok, u) =>
          pagedTurns turns (addrPlus a (chunkLen a p.length)) (p.drop (chunkLen a p.length)) u
        | .ok (.ends r, u) => .ok (.ends r, u)
        | .ok (.polling todo, u) =>
          .ok (.polling (todo ++ [.pages (addrPlus a (chunkLen a p.length)) (p.drop (chunkLen a p.length))]), u))
      | .ok (r, t) => .ok (.ends r, t)

/-- PAGED_WRITE a, n, p (R201): every chunk has at least one byte, so `p.length` turns are enough. -/
def execPagedWrite (a : Addr) (n : Nat) (p : List Byte) (s : State) : Host.Outcome State Fault Refusal :=
  issue (fun s =>
    if pagedBadLen a n p then decline .badlen
    else concludeEnding (pagedTurns p.length a p (begin s))) s

end Sys2Proof.Machine
end

