-- ==== Sys2Proof/Machine/Status.lean ====
section
/-! DEFINITION. RDSR and WRSR (44_commands.md section 4). -/

namespace Sys2Proof.Machine

/-- The body of RDSR (R190). -/
def rdsrOp (s : State) : Except Fault (Result × State) :=
  transact (cmdframe2 s.devaddr .rdsr) [] false (recvFrame 1) s

/-- RDSR (R190). -/
def execRdsr (s : State) : Host.Outcome State Fault Refusal := issue (fun s => concludeData (rdsrOp (begin s))) s

/-- The body of WRSR: the value is byte 2 of the command frame, sent as given (R192, R193). -/
def wrsrOp (v : Byte) (s : State) : Except Fault (Result × State) :=
  transact (cmdframe3 s.devaddr .wrsr v) [] true noData s

/-- WRSR v (R192). -/
def execWrsr (v : Byte) (s : State) : Host.Outcome State Fault Refusal :=
  issue (fun s => conclude (wrsrOp v (begin s))) s

end Sys2Proof.Machine
end

