-- ==== Sys2Proof/Machine/Dispatch.lean ====
section
/-! DEFINITION. One arm per instruction, each one call of its meaning. -/

namespace Sys2Proof.Machine

def exec (i : Instr) (s : State) : Host.Outcome State Fault Refusal :=
  match i with
  | .read a n => Sys2Proof.Machine.execRead a n s
  | .write a n p => Sys2Proof.Machine.execWrite a n p s
  | .wren => Sys2Proof.Machine.execWren s
  | .wrdi => Sys2Proof.Machine.execWrdi s
  | .rdsr => Sys2Proof.Machine.execRdsr s
  | .wrsr v => Sys2Proof.Machine.execWrsr v s
  | .eral => Sys2Proof.Machine.execEral s
  | .setal => Sys2Proof.Machine.execSetal s
  | .startHeader => Sys2Proof.Machine.execStartHeader s
  | .waitWip => Sys2Proof.Machine.execWaitWip s
  | .pagedWrite a n p => Sys2Proof.Machine.execPagedWrite a n p s

end Sys2Proof.Machine
end

