-- ==== Sys2Proof/Machine/Sequencer.lean ====
section
/-! DEFINITION. The sequencer `SEQ` (R33, R175): the pseudocode of every command as a list of operations, and the
step that does the first of them, which emits at most one event. -/

namespace Sys2Proof.Machine

/-- The operations of a transaction that opens with a standby pulse (R180). -/
def transactionOps (frame payload : List Byte) (final : Bit) (data : List Op) : List Op :=
  [.loadWbuf (frame ++ payload), .standbyPulse, .lock, .startHeader, .sendFrame frame final] ++ data ++ [.unlock]

/-- The operations of WREN inside PAGED_WRITE. -/
def wrenOps (s : State) : List Op := transactionOps (cmdframe2 s.devaddr .wren) [] true []

/-- The operations of a WRITE after its checks (R186). -/
def writeOps (a : Addr) (n : Nat) (p : List Byte) (s : State) : List Op :=
  .loadAddr a n :: transactionOps (cmdframe4 s.devaddr .write a) p false [.sendFrame p true] ++ [.written a]

/-- One turn of the poll loop (R197, R198). -/
def pollOps (s : State) : List Op :=
  [.gap, .loadWbuf (cmdframe2 s.devaddr .rdsr), .lock, .startHeader,
   .sendFrame (cmdframe2 s.devaddr .rdsr) false, .recvFrame 1, .unlock, .countPoll, .testWip]

/-- One turn of the page loop (R201). -/
def pageOps (a : Addr) (p : List Byte) : List Op :=
  [.wren, .write a (p.take (chunkLen a p.length)).length (p.take (chunkLen a p.length)), .pollStart, .pollLoop,
   .pages (addrPlus a (chunkLen a p.length)) (p.drop (chunkLen a p.length))]

/-- The bit slot (R120). -/
def slotOps (w : Bit) : List Op :=
  [.setLevel (!w), .wait .quarter, .sampleA, .wait .quarter, .setLevel w, .wait .quarter, .sampleB, .wait .quarter]

/-- What is left to do when a byte of a frame was not acknowledged: no further byte slot and no further frame, the
guard is dropped, a poll is counted (R198), the page of a WRITE becomes unspecified (R58), and the command ends with
`NOSAK` (R225). -/
def failOps (rest : List Op) : List Op :=
  match rest.dropWhile (fun op => decide (op ≠ .unlock)) with
  | _ :: .countPoll :: _ => [.unlock, .countPoll, .ret .nosak]
  | _ :: .written a :: _ => [.unlock, .losePage a, .ret .nosak]
  | _ => [.unlock, .ret .nosak]

/-- `SEQ <- todo`. -/
def setSeq (todo : List Op) (s : State) : State := { s with seq := todo }

/-- One operation of the sequencer, `rest` what comes after it (R33, R175). -/
def tick (op : Op) (rest : List Op) (s : State) : Except Fault State :=
  match op with
  | .setOutput => .ok (setSeq rest (setOutput s))
  | .setInput => .ok (setSeq rest (setInput s))
  | .setLevel v => .ok (setSeq rest (setLevel v s))
  | .sampleA => .ok (setSeq rest (sampleA s))
  | .sampleB => .ok (setSeq rest (sampleB s))
  | .wait c => .ok (setSeq rest (wait c s))
  | .lock => (lock s).map (setSeq rest)
  | .unlock => .ok (setSeq rest (unlock s))
  | .xferBit w => .ok (setSeq (slotOps w ++ rest) s)
  | .recvBit => .ok (setSeq (.setInput :: .xferBit true :: .setOutput :: rest) s)
  | .sendByte v last =>
    .ok (setSeq (.sendBits 8 :: .xferBit (mak last) :: .recvBit :: .latchSak :: rest) (loadShreg v s))
  | .sendBits 0 => .ok (setSeq rest s)
  | .sendBits (k + 1) => .ok (setSeq (.xferBit (s.shreg.getLsbD 7) :: .shiftOut :: .sendBits k :: rest) s)
  | .shiftOut => .ok (setSeq rest (shiftOut s))
  | .recvByte last =>
    .ok (setSeq (.recvBits 8 :: .xferBit (mak last) :: .recvBit :: .latchSak :: rest) (loadShreg 0 s))
  | .recvBits 0 => .ok (setSeq rest s)
  | .recvBits (k + 1) => .ok (setSeq (.recvBit :: .shiftIn :: .recvBits k :: rest) s)
  | .shiftIn => .ok (setSeq rest (shiftIn s))
  | .latchSak => .ok (setSeq rest (latchSak s))
  | .sendFrame [] _ => .ok (setSeq rest s)
  | .sendFrame (b :: bs) final =>
    .ok (setSeq (.sendByte b (final && bs.isEmpty) :: .checkSak :: .sendFrame bs final :: rest) s)
  | .checkSak => .ok (setSeq (if s.sakf then rest else failOps rest) s)
  | .recvFrame n => .ok (setSeq (.recvBytes n :: rest) (clearRbuf s))
  | .recvBytes 0 => .ok (setSeq rest s)
  | .recvBytes (k + 1) =>
    .ok (setSeq (.recvByte (decide (k = 0)) :: .checkSak :: .storeByte :: .recvBytes k :: rest) s)
  | .storeByte => .ok (setSeq rest (storeByte s))
  | .standbyPulse =>
    .ok (setSeq (.setLevel false :: .wait .stbyLow :: .setLevel true :: .wait .stbyHigh :: rest) s)
  | .startHeader =>
    .ok (setSeq (.setLevel false :: .wait .hdr :: .sendByte Config.startHeader true :: rest) s)
  | .gap => .ok (setSeq (.wait .gap :: rest) s)
  | .loadWbuf bytes => .ok (setSeq rest (loadWbuf bytes s))
  | .loadAddr a n => .ok (setSeq rest (loadAddr a n s))
  | .written _ => .ok (setSeq rest s)
  | .losePage a => .ok (setSeq rest (losePage a s))
  | .wren => .ok (setSeq (wrenOps s ++ rest) s)
  | .write a n p => .ok (setSeq (writeOps a n p s ++ rest) s)
  | .pollStart => .ok (setSeq rest (pollStart s))
  | .pollLoop => .ok (setSeq (if limitReached s then [.ret .timeout] else pollOps s ++ rest) s)
  | .countPoll => .ok (setSeq rest (countPoll s))
  | .testWip => .ok (setSeq (if statusBusy s then .pollLoop :: rest else rest) s)
  | .pages a p =>
    .ok (if p.isEmpty then setSeq rest s else setSeq (pageOps a p ++ rest) (loadAddr a p.length s))
  | .ret r => .ok (ret r s)
  | .retData => .ok (retData s)

/-- What a start of `i` at `IDLE` leaves to the sequencer (R41): the operand checks are made, the operands are
taken, and `SEQ` is at the command's first operation. -/
def load (i : Instr) (s : State) : Host.Outcome State Fault Refusal :=
  match i with
  | .read a n =>
    if readBadLen s.params n then decline .badlen
    else .next (setSeq
      (.loadAddr a n :: transactionOps (cmdframe4 s.devaddr .read a) [] false [.recvFrame n] ++ [.retData]) (begin s))
  | .write a n p =>
    if writeBadLen n p then decline .badlen
    else if crossesPage a n then .next (ret .boundary s)
    else .next (setSeq (writeOps a n p s ++ [.ret .ok]) (begin s))
  | .wren => .next (setSeq (wrenOps s ++ [.ret .ok]) (begin s))
  | .wrdi => .next (setSeq (transactionOps (cmdframe2 s.devaddr .wrdi) [] true [] ++ [.ret .ok]) (begin s))
  | .rdsr =>
    .next (setSeq (transactionOps (cmdframe2 s.devaddr .rdsr) [] false [.recvFrame 1] ++ [.retData]) (begin s))
  | .wrsr v => .next (setSeq (transactionOps (cmdframe3 s.devaddr .wrsr v) [] true [] ++ [.ret .ok]) (begin s))
  | .eral =>
    if s.params.bulkOps then
      .next (setSeq (transactionOps (cmdframe2 s.devaddr .eral) [] true [] ++ [.ret .ok]) (begin s))
    else decline .refused
  | .setal =>
    if s.params.bulkOps then
      .next (setSeq (transactionOps (cmdframe2 s.devaddr .setal) [] true [] ++ [.ret .ok]) (begin s))
    else decline .refused
  | .startHeader => .next (setSeq [.startHeader] s)
  | .waitWip => .next (setSeq [.pollStart, .pollLoop, .ret .ok] (begin s))
  | .pagedWrite a n p =>
    if pagedBadLen a n p then decline .badlen else .next (setSeq [.pages a p, .ret .ok] (begin s))

end Sys2Proof.Machine
end

