-- ==== Sys2Proof/Machine/Fetch.lean ====
section
/-! DEFINITION. How the master takes a command from the host's ports (R40, R41, R67). -/

namespace Sys2Proof.Machine

/-- The command the host presents, decoded, and the state once its operands are taken; `none` where the host
presents nothing (R41, R67; log 10). -/
def fetch (s : State) : Option (Except DecodeError Instr × State) :=
  match s.host with
  | [] => none
  | r :: rest => some (decodeRequest r, { s with host := rest })

/-- `s` at `IDLE` with `r` as the next command of the host. -/
def withRequest (r : Request) (s : State) : State := { s with host := r :: s.host, seq := [] }

/-- What the sequencer answers as an outcome of a step. -/
def tickOutcome (r : Except Fault State) : Host.Outcome State Fault Refusal :=
  match r with
  | .ok t => .next t
  | .error f => .fault f

end Sys2Proof.Machine
end

