-- ==== Sys2Proof/Machine/Step.lean ====
section
/-! DEFINITION. One step: at `IDLE` the whole command the host presents (R9, R13), or a wait where it presents
none (R260); while a command is under way, one operation of the sequencer (R33). -/

namespace Sys2Proof.Machine

/-- One step of the master (log 1). -/
def step (s : State) : Host.Outcome State Fault Refusal :=
  match s.seq with
  | op :: rest => tickOutcome (tick op rest s)
  | [] =>
    match fetch s with
    | none => .next s
    | some (.ok i, t) => exec i t
    | some (.error e, _) => .refused (.undecodable e)

/-- `s` with the table word `w` as the next command of the host: what stands for a load of a program (log 10,
log 11). -/
def State.withFetchWord (s : State) (nbits w : Nat) : State :=
  withRequest (.image (tableBytes (nbits / 8) w) tableLen tablePayload) s

end Sys2Proof.Machine
end

