-- ==== Sys2Proof/Safety.lean ====
section
/-! DEFINITION. What counts as a safe run, in the terms the statements use: the idle invariant (R262), the positions
of the sequencer from which it is reached again, the shape of a trace (R70 to R84, R90), the guard discipline (R174,
R273), what a trace says was read (R71, R75), and the requested time (R283). -/

namespace Sys2Proof.Safety

open Sys2Proof.Machine

/-- The idle invariant of R262. -/
def Idle (s : State) : Prop := s.seq = [] ∧ s.dir = .output ∧ s.lvl = true ∧ s.guard = false

/-- What is known of the line and the guard at a position of the sequencer; `lvl = none`: nothing of the latch. -/
structure Line where
  dir : Dir
  lvl : Option Bit
  guard : Bit
deriving DecidableEq, Repr

/-- The line of an idle master (R262). -/
def Line.rest : Line := { dir := .output, lvl := some true, guard := false }

/-- The line after an operation that ends with a receive slot (R125). -/
def Line.afterByte (l : Line) : Line := { l with dir := .output, lvl := some true }

/-- The line after operation `op`, where `op` may run at `l` and the command goes on. -/
def Line.after (op : Op) (l : Line) : Line :=
  match op with
  | .setOutput => { l with dir := .output }
  | .setInput => { l with dir := .input }
  | .setLevel v => { l with lvl := some v }
  | .lock => { l with guard := true }
  | .unlock => { l with guard := false }
  | .xferBit w => { l with lvl := some w }
  | .recvBit => l.afterByte
  | .sendByte _ _ => l.afterByte
  | .sendBits 0 => l
  | .sendBits (_ + 1) => { l with lvl := none }
  | .recvByte _ => l.afterByte
  | .recvBits 0 => l
  | .recvBits (_ + 1) => l.afterByte
  | .sendFrame [] _ => l
  | .sendFrame (_ :: _) _ => l.afterByte
  | .recvFrame 0 => l
  | .recvFrame (_ + 1) => l.afterByte
  | .recvBytes 0 => l
  | .recvBytes (_ + 1) => l.afterByte
  | .standbyPulse => { l with lvl := some true }
  | .startHeader => l.afterByte
  | .wren => Line.rest
  | .write _ _ _ => Line.rest
  | .pollLoop => Line.rest
  | .testWip => Line.rest
  | .pages _ _ => Line.rest
  | _ => l

/-- Whether the line must be at rest, guard aside, for `op` to run: the operations that may end the command. -/
def Line.admits (op : Op) (l : Line) : Bool :=
  match op with
  | .checkSak => decide (l.dir = .output) && decide (l.lvl = some true)
  | .wren => decide (l = Line.rest)
  | .write _ _ _ => decide (l = Line.rest)
  | .pollLoop => decide (l = Line.rest)
  | .testWip => decide (l = Line.rest)
  | .pages _ _ => decide (l = Line.rest)
  | .ret _ => decide (l = Line.rest)
  | .retData => decide (l = Line.rest)
  | _ => true

/-- The operations `todo`, run from a line known to be at `l`, bring the master back to its idle line on every path
(R175, R262). -/
def settles (todo : List Op) (l : Line) : Bool :=
  match todo with
  | [] => decide (l = Line.rest)
  | op :: rest => Line.admits op l && settles rest (Line.after op l)

/-- The line of a state. -/
def lineOf (s : State) : Line := { dir := s.dir, lvl := some s.lvl, guard := s.guard }

/-- The invariant of the master: what is left of the command leads back to the idle line (at `IDLE`: the line is
idle), and the EEPROM array of the reference slave is in canonical form. -/
def Inv (s : State) : Prop := settles s.seq (lineOf s) = true ∧ Memory.wf s.env.slave.mem = true

/-- An event with the value of its sample left out. -/
def eraseSample (e : Event) : Event :=
  match e with
  | .smp _ => .smp false
  | .out => .out
  | .inp => .inp
  | .drv v => .drv v
  | .dly n => .dly n
  | .lock => .lock
  | .unlock => .unlock

/-- `T1` and `T0` of R90: the events of `XFER_BIT(w)`, samples left out. -/
def slotShape (t : Timing) (w : Bit) : List Event :=
  [.drv (!w), .dly (requestedDelay t .quarter), .smp false, .dly (requestedDelay t .quarter),
   .drv w, .dly (requestedDelay t .quarter), .smp false, .dly (requestedDelay t .quarter)]

/-- `R` of R90: the events of `RECV_BIT()`, samples left out. -/
def recvShape (t : Timing) : List Event := .inp :: slotShape t true ++ [.out]

/-- The bits of a byte, most significant first (R54). -/
def msbFirst (v : Byte) : List Bit :=
  [v.getLsbD 7, v.getLsbD 6, v.getLsbD 5, v.getLsbD 4, v.getLsbD 3, v.getLsbD 2, v.getLsbD 1, v.getLsbD 0]

/-- A byte slot of a frame: the byte the master sends, or one it receives, and the value of the MAK slot (R75). -/
inductive ByteSlot where
  | sent (v : Byte) (m : Bit)
  | received (m : Bit)
deriving DecidableEq, Repr

/-- `S(v,m)` and `V(m)` of R90, samples left out. -/
def byteShape (t : Timing) (b : ByteSlot) : List Event :=
  match b with
  | .sent v m => (msbFirst v).flatMap (slotShape t) ++ slotShape t m ++ recvShape t
  | .received m => (List.replicate 8 (recvShape t)).flatten ++ slotShape t m ++ recvShape t

/-- The start header (R78, R168). -/
def headerShape (t : Timing) : List Event :=
  .drv false :: .dly (requestedDelay t .hdr) :: byteShape t (.sent Config.startHeader true)

/-- The standby pulse (R79, R166). -/
def standbyShape (t : Timing) : List Event :=
  [.drv false, .dly (requestedDelay t .stbyLow), .drv true, .dly (requestedDelay t .stbyHigh)]

/-- The part of a transaction inside the guard, with the `LOCK` and the `UNLOCK` (R84, R174). -/
def guardedShape (t : Timing) (slots : List ByteSlot) : List Event :=
  .lock :: headerShape t ++ slots.flatMap (byteShape t) ++ [.unlock]

/-- The byte slots of `n` received bytes (R83). -/
def receivedSlots (n : Nat) : List ByteSlot :=
  match n with
  | 0 => []
  | n + 1 => .received (mak (decide (n = 0))) :: receivedSlots n

/-- The byte slots of a sent frame (R83, R160). -/
def sentSlots (bytes : List Byte) (final : Bit) : List ByteSlot :=
  match bytes with
  | [] => []
  | b :: rest => .sent b (mak (final && rest.isEmpty)) :: sentSlots rest final

/-- The sample values in a list of events, in time order. -/
def sampleBits (evs : List Event) : List Bit :=
  match evs with
  | [] => []
  | .smp v :: rest => v :: sampleBits rest
  | _ :: rest => sampleBits rest

/-- The values read in the bit slots whose samples are given two by two (R71). -/
def slotValues (samples : List Bit) : List Bit :=
  match samples with
  | a :: b :: rest => (b && !a) :: slotValues rest
  | _ => []

/-- The acknowledgements in slot values grouped by ten (R75, R77). -/
def acknowledgements (vals : List Bit) : List Bit :=
  match vals with
  | _ :: _ :: _ :: _ :: _ :: _ :: _ :: _ :: _ :: k :: rest => k :: acknowledgements rest
  | _ => []

/-- A byte from its bits, most significant first (R144). -/
def byteOfBits (bits : List Bit) : Byte := bits.foldl shiftLeftIn 0

/-- The bytes in slot values grouped by ten (R75). -/
def slotBytes (vals : List Bit) : List Byte :=
  match vals with
  | a :: b :: c :: d :: e :: f :: g :: h :: _ :: _ :: rest => byteOfBits [a, b, c, d, e, f, g, h] :: slotBytes rest
  | _ => []

/-- The acknowledgements of the byte slots after the start header (R220: the start header is excepted). -/
def frameAcks (evs : List Event) : List Bit := (acknowledgements (slotValues (sampleBits evs))).drop 1

/-- The bytes read in the byte slots after the start header. -/
def frameBytes (evs : List Event) : List Byte := (slotBytes (slotValues (sampleBits evs))).drop 1

/-- What a transaction with byte slots `slots` after its header does, `lead` its events before the guard: every byte
slot ran and was acknowledged, and the result is `OK`; or the first one not acknowledged ran whole, none after it
ran, and the result is `NOSAK` (R160, R163, R182, R220, R225). -/
def Transaction (t : Timing) (lead : List Event) (slots : List ByteSlot) (evs : List Event) (r : Result) : Prop :=
  (r = .ok ∧ evs.map eraseSample = lead ++ guardedShape t slots ∧ frameAcks evs = List.replicate slots.length true) ∨
  (r = .nosak ∧ ∃ k, k < slots.length ∧ evs.map eraseSample = lead ++ guardedShape t (slots.take (k + 1)) ∧
    frameAcks evs = List.replicate k true ++ [false])

/-- Samples and changes of direction fall only while the guard is held, the guard is never taken while held, and it
is free at the end (R172 to R174, R273); `held` is the guard before the events. -/
def guardDiscipline (held : Bool) (evs : List Event) : Bool :=
  match evs with
  | [] => !held
  | .lock :: rest => !held && guardDiscipline true rest
  | .unlock :: rest => held && guardDiscipline false rest
  | .smp _ :: rest => held && guardDiscipline held rest
  | .out :: rest => held && guardDiscipline held rest
  | .inp :: rest => held && guardDiscipline held rest
  | .drv _ :: rest => guardDiscipline held rest
  | .dly _ :: rest => guardDiscipline held rest

/-- The microseconds the events request (R283). -/
def requestedTime (evs : List Event) : Nat :=
  match evs with
  | [] => 0
  | .dly n :: rest => n + requestedTime rest
  | _ :: rest => requestedTime rest

/-- The byte slots of the status read of RDSR and of a poll (R83). -/
def statusSlots (d : Byte) : List ByteSlot := sentSlots (cmdframe2 d .rdsr) false ++ receivedSlots 1

/-- One turn of WAIT_WIP: a gap, and a poll with result `r` (R197, R198). -/
def PollTurn (t : Timing) (d : Byte) (evs : List Event) (r : Result) : Prop :=
  Transaction t [.dly (requestedDelay t .gap)] (statusSlots d) evs r

/-- Bit 0 of the status byte a poll read: the first byte after the two of its command frame (R26, R198). -/
def turnBusy (evs : List Event) : Bit := (((frameBytes evs).drop 2).headD 0).getLsbD 0

/-- A turn that was acknowledged and read `WIP = 1`. -/
def BusyTurn (t : Timing) (d : Byte) (evs : List Event) : Prop := PollTurn t d evs .ok ∧ turnBusy evs = true

/-- The turns of a whole WAIT_WIP with result `r` (R198, R199, R223, R229(4)): all but the last read `WIP = 1`; the
last one read 0 (`OK`) or was not acknowledged (`NOSAK`); or as many as `limit` allows all read 1 (`TIMEOUT`). -/
def PollRun (t : Timing) (d : Byte) (limit : Option Nat) (turns : List (List Event)) (r : Result) : Prop :=
  (r = .ok ∧ ∃ busy last, turns = busy ++ [last] ∧ (∀ e ∈ busy, BusyTurn t d e) ∧ PollTurn t d last .ok ∧
    turnBusy last = false ∧ ∀ k, limit = some k → turns.length ≤ k) ∨
  (r = .nosak ∧ ∃ busy last, turns = busy ++ [last] ∧ (∀ e ∈ busy, BusyTurn t d e) ∧ PollTurn t d last .nosak ∧
    ∀ k, limit = some k → turns.length ≤ k) ∨
  (r = .timeout ∧ limit = some turns.length ∧ ∀ e ∈ turns, BusyTurn t d e)

/-- The events of WREN in a trace (R188). -/
def WrenRun (t : Timing) (d : Byte) (evs : List Event) (r : Result) : Prop :=
  Transaction t (standbyShape t) (sentSlots (cmdframe2 d .wren) true) evs r

/-- The events of WRITE a, p in a trace (R186). -/
def WriteRun (t : Timing) (d : Byte) (a : Addr) (p : List Byte) (evs : List Event) (r : Result) : Prop :=
  Transaction t (standbyShape t) (sentSlots (cmdframe4 d .write a) false ++ sentSlots p true) evs r

/-- The events of a whole PAGED_WRITE of payload `p`, not empty, at `a` with result `r` (R201, R202, R229(5)): per chunk
WREN, WRITE and WAIT_WIP, up to the first that is not `OK`. The chunk at which it ended, the last one where all were
written, comes after the first `before` bytes of the payload; `lost` is the address of the WRITE that ended with `NOSAK`,
where it ended in one (R58). -/
inductive PagedRun (t : Timing) (d : Byte) (limit : Option Nat) :
    Addr → List Byte → List Event → Result → Nat → Option Addr → Prop where
  | wrenFails (a : Addr) (p : List Byte) (e1 : List Event) (hp : p ≠ []) (h1 : WrenRun t d e1 .nosak) :
      PagedRun t d limit a p e1 .nosak 0 none
  | writeFails (a : Addr) (p : List Byte) (e1 e2 : List Event) (hp : p ≠ []) (h1 : WrenRun t d e1 .ok)
      (h2 : WriteRun t d a (p.take (chunkLen a p.length)) e2 .nosak) :
      PagedRun t d limit a p (e1 ++ e2) .nosak 0 (some a)
  | waitFails (a : Addr) (p : List Byte) (e1 e2 : List Event) (turns : List (List Event)) (r : Result) (hp : p ≠ [])
      (h1 : WrenRun t d e1 .ok) (h2 : WriteRun t d a (p.take (chunkLen a p.length)) e2 .ok)
      (h3 : PollRun t d limit turns r) (hr : r ≠ .ok) :
      PagedRun t d limit a p (e1 ++ e2 ++ turns.flatten) r 0 none
  | lastChunk (a : Addr) (p : List Byte) (e1 e2 : List Event) (turns : List (List Event)) (hp : p ≠ [])
      (hl : p.drop (chunkLen a p.length) = []) (h1 : WrenRun t d e1 .ok)
      (h2 : WriteRun t d a (p.take (chunkLen a p.length)) e2 .ok) (h3 : PollRun t d limit turns .ok) :
      PagedRun t d limit a p (e1 ++ e2 ++ turns.flatten) .ok 0 none
  | chunk (a : Addr) (p : List Byte) (e1 e2 : List Event) (turns : List (List Event)) (e3 : List Event) (r : Result)
      (before : Nat) (lost : Option Addr) (hp : p ≠ []) (h1 : WrenRun t d e1 .ok)
      (h2 : WriteRun t d a (p.take (chunkLen a p.length)) e2 .ok) (h3 : PollRun t d limit turns .ok)
      (h4 : PagedRun t d limit (addrPlus a (chunkLen a p.length)) (p.drop (chunkLen a p.length)) e3 r before lost) :
      PagedRun t d limit a p (e1 ++ e2 ++ turns.flatten ++ e3) r (chunkLen a p.length + before) lost

/-- The events of a PAGED_WRITE without a limit that still polls after its first `done` payload bytes, the first `before`
of which come before the chunk it polls after (R200, R201). -/
inductive PagedPolls (t : Timing) (d : Byte) : Addr → List Byte → List Event → Nat → Nat → Prop where
  | here (a : Addr) (p : List Byte) (e1 e2 e3 : List Event) (hp : p ≠ []) (h1 : WrenRun t d e1 .ok)
      (h2 : WriteRun t d a (p.take (chunkLen a p.length)) e2 .ok) (h3 : BusyTurn t d e3) :
      PagedPolls t d a p (e1 ++ e2 ++ e3) 0 (chunkLen a p.length)
  | later (a : Addr) (p : List Byte) (e1 e2 e3 e4 : List Event) (before done : Nat) (hp : p ≠ [])
      (h1 : WrenRun t d e1 .ok) (h2 : WriteRun t d a (p.take (chunkLen a p.length)) e2 .ok)
      (h3 : PollTurn t d e3 .ok) (hb : turnBusy e3 = false)
      (h4 : PagedPolls t d (addrPlus a (chunkLen a p.length)) (p.drop (chunkLen a p.length)) e4 before done) :
      PagedPolls t d a p (e1 ++ e2 ++ e3 ++ e4) (chunkLen a p.length + before) (chunkLen a p.length + done)

/-- What a command leaves alone (R21, R25, R39): the parameters, the host's other commands, and, where the oracle
answers the samples, all that is known of the slave but its array. -/
structure CommandFrame (s t : State) : Prop where
  devaddr : t.devaddr = s.devaddr
  timing : t.timing = s.timing
  params : t.params = s.params
  host : t.host = s.host
  slave : s.env.slave.answers = false → t.env.slave = { s.env.slave with mem := t.env.slave.mem }

/-- Where the oracle answers the samples, nothing that is known of the slave has changed, no byte of its array either:
the frame of a command that stores nothing. -/
def SlaveKept (s t : State) : Prop := s.env.slave.answers = false → t.env.slave = s.env.slave

/-- Where the oracle answers the samples, every byte of the array outside the `n` bytes from `lo` on is as it was. -/
def ArrayKeptOutside (lo n : Nat) (s t : State) : Prop :=
  s.env.slave.answers = false → Memory.wf s.env.slave.mem = true →
    ∀ x, (x < lo ∨ lo + n ≤ x) → Memory.read t.env.slave.mem x = Memory.read s.env.slave.mem x

/-- The frame of a command that writes the `n` bytes from `a` on and has result `r`, `ADDR` the address of its last
WRITE: after a missing acknowledgement the page of that WRITE may have changed (R58), else the `n` bytes. -/
def WriteFrame (a : Addr) (n : Nat) (r : Result) (s t : State) : Prop :=
  if r = .nosak then ArrayKeptOutside (pageStart t.addr) Config.page s t else ArrayKeptOutside a.toNat n s t

/-- Every byte of the page of `a` reads in `t` as the free value of its address, the `k`-th time (R58, U4; log 28). -/
def PageUnspecified (k : Nat) (a : Addr) (t : State) : Prop :=
  ∀ x, x / Config.page = a.toNat / Config.page → Memory.read t.env.slave.mem x = Config.lostByte k x

/-- `a` where a command that has ended in `t` ended with `NOSAK`. -/
def lostEnd (a : Addr) (t : State) : Option Addr := if t.done = true ∧ t.result = .nosak then some a else none

/-- The WRITE whose page instruction `i` leaves unspecified where it answers `t` (R58; log 28): one that ended with
`NOSAK`, itself or the chunk at which a PAGED_WRITE stood, whose address is in `ADDR` (R31, R201). -/
def lostBy (i : Instr) (t : State) : Option Addr :=
  match i with
  | .write a _ _ => lostEnd a t
  | .pagedWrite _ _ _ => lostEnd t.addr t
  | _ => none

/-- The WRITE whose page operation `op` leaves unspecified (R58; log 28). -/
def lostByOp (op : Op) : Option Addr :=
  match op with
  | .losePage a => some a
  | _ => none

/-- The WRITE whose page a step from `s` to `t` leaves unspecified: that of the operation at the head of `SEQ`, or of
the command the step ran. -/
def lostByStep (s t : State) : Option Addr :=
  match s.seq with
  | op :: _ => lostByOp op
  | [] =>
    match fetch s with
    | some (.ok i, _) => lostBy i t
    | _ => none

/-- The working registers a command does not write hold what they held at its start (R27, R39): nothing that was
there before it (log 8). That they still hold it once the command has ended is the model's choice (log 32). -/
structure OperandsUnwritten (s t : State) : Prop where
  addr : t.addr = (begin s).addr
  len : t.len = (begin s).len
  pollcnt : t.pollcnt = (begin s).pollcnt

/-- A command has ended with result `r` and data `d` (R14, R40, R262). -/
structure Ended (t : State) (r : Result) (d : Option (List Byte)) : Prop where
  idle : Idle t
  done : t.done = true
  result : t.result = r
  rdata : t.rdata = d

/-- A command may be issued: `SEQ` is `IDLE` and the guard is free (R41, R262). -/
def Ready (s : State) : Prop := s.seq = [] ∧ s.guard = false

/-- A command rejected before any event: its result code is handed over and nothing else is touched (R181, R220,
R262). -/
def rejected (r : Result) (s : State) : State := { s with result := r, done := true, rdata := none }

/-- The reference slave answers, is present, and has the master's device address (95_test_vectors.md section 3). -/
def SlaveReady (s : State) : Prop :=
  s.env.slave.answers = true ∧ s.env.slave.present = true ∧ s.env.slave.saddr = s.devaddr

end Sys2Proof.Safety
end

