-- ==== Sys2Proof/Certificates/Slice0/Obligations.lean ====
section
/-! DEFINITION. The statements for the provers, each a proposition about the model; what each formalises stands in
its docstring and in OBLIGATIONS.json. -/

open Sys2Proof Sys2Proof.Machine Sys2Proof.Safety

/-! ### Encodings -/

/-- R85, R80, R78: words written out from the encoding table, one per row of the opcode table that has bits, with the
length 1 and one zero byte of payload beside them (log 11). -/
def Obligations.TableWordsDecode : Prop :=
  decodeTableWord 32 0xA003000C = some (.read 0x000C 1) ∧
  decodeTableWord 32 0xA06C1230 = some (.write 0x1230 1 [0]) ∧
  decodeTableWord 16 0xA096 = some .wren ∧ decodeTableWord 16 0xA091 = some .wrdi ∧
  decodeTableWord 16 0xA005 = some .rdsr ∧ decodeTableWord 24 0xA06E0C = some (.wrsr 0x0C) ∧
  decodeTableWord 16 0xA06D = some .eral ∧ decodeTableWord 16 0xA067 = some .setal ∧
  decodeTableWord 8 0x55 = some .startHeader ∧ decodeTableWord 16 0xA055 = none

/-- The command frame of every instruction that has one, at every device address and with every operand, is read
back as that instruction (R80, R81, R183). -/
def Obligations.DecodeOfEncode : Prop :=
  ∀ (d : Byte) (i : Instr) (bytes : List Byte), encode d i = some bytes →
    decode bytes i.lenOperand i.payloadOperand = .ok i

/-- What the decoder accepts is the command frame of what it answers, at some device address, and the operands it
answers are those presented beside the frame (R80, R86, R87). -/
def Obligations.EncodeOfDecode : Prop :=
  ∀ (bytes : List Byte) (n : Nat) (p : List Byte) (i : Instr), decode bytes n p = .ok i →
    (∃ d, encode d i = some bytes) ∧ (∀ a m, i = .read a m → m = n) ∧ (∀ a m q, i = .write a m q → m = n ∧ q = p)

/-- The host's ports carry every instruction (R40, R88). -/
def Obligations.RequestCarriesInstruction : Prop := ∀ i : Instr, decodeRequest (encodeRequest i) = .ok i

/-- R86: a frame whose byte 1 is none of the eight opcode values is refused by name, and the eight values are the
only ones that are not. -/
def Obligations.ReservedOpcodesRefused : Prop :=
  (∀ (d op : Byte) (rest : List Byte) (n : Nat) (p : List Byte),
    op ∉ ([0x03, 0x6C, 0x96, 0x91, 0x05, 0x6E, 0x6D, 0x67] : List Byte) →
      decode (d :: op :: rest) n p = .error (.reservedOpcode op)) ∧
  (∀ op : Byte, op ∈ ([0x03, 0x6C, 0x96, 0x91, 0x05, 0x6E, 0x6D, 0x67] : List Byte) ↔ ∃ o : Opcode, o.code = op)

/-- R80, R81: the bytes of the three formats; the two address bytes are the two halves of the address. -/
def Obligations.CommandFrameBytes : Prop :=
  ∀ (d : Byte) (o : Opcode) (a : Addr) (v : Byte),
    cmdframe2 d o = [d, o.code] ∧ cmdframe3 d o v = [d, o.code, v] ∧
    ∃ h l : Byte, cmdframe4 d o a = [d, o.code, h, l] ∧ h.toNat * 256 + l.toNat = a.toNat

/-- R83: in the byte slots of every command exactly the last one carries `MAK_LAST`, every other one `MAK_MORE`
(`p` not empty, `n` not 0). -/
def Obligations.OnlyTheLastSlotCarriesMakLast : Prop :=
  ∀ (d : Byte) (a : Addr) (v : Byte) (n : Nat) (p : List Byte) (o : Opcode), n ≠ 0 → p ≠ [] →
    ∀ slots ∈ [sentSlots (cmdframe4 d .read a) false ++ receivedSlots n,
        sentSlots (cmdframe4 d .write a) false ++ sentSlots p true, sentSlots (cmdframe2 d o) true,
        sentSlots (cmdframe3 d o v) true, statusSlots d],
      ∃ init last, slots = init ++ [last] ∧
        (∃ w, last = .sent w Config.makLast ∨ last = .received Config.makLast) ∧
        ∀ b ∈ init, ∃ w, b = .sent w Config.makMore ∨ b = .received Config.makMore

/-! ### Reset and the step -/

/-- R38, R260: the values the spec gives for reset. -/
def Obligations.ResetValues : Prop :=
  State.reset.devaddr = Config.deviceAddress ∧ State.reset.dir = .output ∧ State.reset.lvl = true ∧
  State.reset.guard = false ∧ State.reset.seq = [] ∧
  State.reset.timing = { gap := 10, stbyLow := 10, stbyHigh := 600, hdr := 5, quarter := 10, fudge := 5 } ∧
  State.reset.trace = []

/-- R262 at reset: the invariant holds. -/
def Obligations.ResetMeetsInvariant : Prop := Inv State.reset ∧ Idle State.reset

/-- A command the host presents at `IDLE` is taken from its list and executed (R41, R67; log 1, log 10); where it
presents none the master waits (R260); a request that names no command is refused by name. -/
def Obligations.StepRunsTheRequestedCommand : Prop :=
  ∀ (s : State), s.seq = [] →
    (∀ r rest i, s.host = r :: rest → decodeRequest r = .ok i → step s = exec i { s with host := rest }) ∧
    (∀ r rest e, s.host = r :: rest → decodeRequest r = .error e → step s = .refused (.undecodable e)) ∧
    (s.host = [] → step s = .next s)

/-- A table word placed where the step fetches is executed by the next step (log 10, log 11). -/
def Obligations.StepRunsTheFetchedWord : Prop :=
  ∀ (s : State) (nbits w : Nat) (i : Instr), decodeTableWord nbits w = some i →
    step (s.withFetchWord nbits w) = exec i { s with seq := [] }

/-- While a command is under way a step does the first operation of what is left of it (R33; log 1). -/
def Obligations.StepRunsOneOperation : Prop :=
  ∀ (s : State) (op : Op) (rest : List Op), s.seq = op :: rest → step s = tickOutcome (tick op rest s)

/-- R41, R243: a command issued while another runs is refused. -/
def Obligations.StartWhileRunningIsRefused : Prop :=
  ∀ (i : Instr) (s : State), s.seq ≠ [] → exec i s = .refused .busy

/-- R33: one operation emits at most one event, and never takes one back. -/
def Obligations.OneOperationEmitsAtMostOneEvent : Prop :=
  ∀ (op : Op) (rest : List Op) (s t : State), tick op rest s = .ok t →
    t.events = s.events ∨ ∃ e, t.events = s.events ++ [e]

/-! ### The line, the bits, the bytes -/

/-- R101 to R104, R107: what each primitive writes and the one event it emits; a level set in input mode is kept in
the latch and shows at the next `SetOutput()`; while only the master drives, the wire is at `LVL` in every state with
`DIR = OUT` (R103, R106), and nothing is said of it where nobody drives (log 23). -/
def Obligations.PrimitivesWriteAndEmit : Prop :=
  ∀ (s : State) (v : Bit) (n : Nat),
    ((setOutput s).dir = .output ∧ (setOutput s).lvl = s.lvl ∧ (setOutput s).events = s.events ++ [.out]) ∧
    ((setInput s).dir = .input ∧ (setInput s).lvl = s.lvl ∧ (setInput s).events = s.events ++ [.inp]) ∧
    ((setLevel v s).lvl = v ∧ (setLevel v s).dir = s.dir ∧ (setLevel v s).events = s.events ++ [.drv v]) ∧
    ((sampleA s).dir = s.dir ∧ (sampleA s).lvl = s.lvl ∧ (sampleA s).sa = s.env.answer s.dir s.lvl ∧
      (sampleA s).events = s.events ++ [.smp (sampleA s).sa]) ∧
    ((sampleB s).dir = s.dir ∧ (sampleB s).lvl = s.lvl ∧ (sampleB s).sb = s.env.answer s.dir s.lvl ∧
      (sampleB s).events = s.events ++ [.smp (sampleB s).sb]) ∧
    ((delay n s).dir = s.dir ∧ (delay n s).lvl = s.lvl ∧ (delay n s).events = s.events ++ [.dly n]) ∧
    (s.dir = .output → s.wire none = some s.lvl) ∧ (s.dir = .input → s.wire none = none) ∧
    (setOutput (setLevel v (setInput s))).wire none = some v

/-- R109: the requested delays at the constants of R25. -/
def Obligations.WaitRequestsConstantPlusFudge : Prop :=
  ∀ s : State, s.timing = Config.timing →
    (wait .quarter s).events = s.events ++ [.dly 15] ∧ (wait .hdr s).events = s.events ++ [.dly 10] ∧
    (wait .stbyLow s).events = s.events ++ [.dly 15] ∧ (wait .stbyHigh s).events = s.events ++ [.dly 605] ∧
    (wait .gap s).events = s.events ++ [.dly 15]

/-- R120, R39: the eight events of XFER_BIT in their order, the state it writes, and its result; everything else in
the master is as it was. -/
def Obligations.XferBitEvents : Prop :=
  ∀ (w : Bit) (s : State),
    (xferBit w s).events = s.events ++
      [.drv (!w), .dly (s.timing.quarter + s.timing.fudge), .smp (xferBit w s).sa,
       .dly (s.timing.quarter + s.timing.fudge), .drv w, .dly (s.timing.quarter + s.timing.fudge),
       .smp (xferBit w s).sb, .dly (s.timing.quarter + s.timing.fudge)] ∧
    slotValue (xferBit w s) = ((xferBit w s).sb && !(xferBit w s).sa) ∧
    xferBit w s = { s with lvl := w, sa := (xferBit w s).sa, sb := (xferBit w s).sb, env := (xferBit w s).env,
                           trace := (xferBit w s).trace } ∧
    (s.timing = Config.timing → s.timing.quarter + s.timing.fudge = 15)

/-- R124, R125, R39: the ten events of RECV_BIT, and that it ends as an output at level 1 whatever was sampled. -/
def Obligations.RecvBitEvents : Prop :=
  ∀ s : State,
    (recvBit s).events = s.events ++
      [.inp, .drv false, .dly (s.timing.quarter + s.timing.fudge), .smp (recvBit s).sa,
       .dly (s.timing.quarter + s.timing.fudge), .drv true, .dly (s.timing.quarter + s.timing.fudge),
       .smp (recvBit s).sb, .dly (s.timing.quarter + s.timing.fudge), .out] ∧
    recvBit s = { s with dir := .output, lvl := true, sa := (recvBit s).sa, sb := (recvBit s).sb,
                         env := (recvBit s).env, trace := (recvBit s).trace } ∧
    slotValue (recvBit s) = ((recvBit s).sb && !(recvBit s).sa) ∧
    (s.timing = Config.timing → s.timing.quarter + s.timing.fudge = 15)

/-- R126: what RECV_BIT reads from the line, `a` its level at the first sample and `b` at the second. -/
def Obligations.RecvBitTruthTable : Prop :=
  ∀ (s : State) (a b : Bit) (later : List Bit), s.env.slave.answers = false → s.env.script = a :: b :: later →
    (recvBit s).sa = a ∧ (recvBit s).sb = b ∧ (recvBit s).env.script = later ∧
    slotValue (recvBit s) = (match a, b with | false, true => true | true, false => false | false, false => false | true, true => false)

/-- R140, R142, R148: SEND_BYTE drives the eight bits most significant first, then the MAK bit, then takes the
acknowledgement, in 82 events and a requested 600 microseconds; `SHREG` ends at 0, `SA` and `SB` at the last two
samples, the line as an output at level 1, and nothing is written but what R140 lists. -/
def Obligations.SendByteSlots : Prop :=
  ∀ (v : Byte) (last : Bit) (s : State), ∃ evs,
    (sendByte v last s).events = s.events ++ evs ∧
    evs.map eraseSample = byteShape s.timing (.sent v (if last then Config.makLast else Config.makMore)) ∧
    evs.length = 82 ∧ (slotValues (sampleBits evs))[9]? = some (sendByte v last s).sakf ∧
    (sampleBits evs).drop 18 = [(sendByte v last s).sa, (sendByte v last s).sb] ∧
    (s.timing = Config.timing → requestedTime evs = 600) ∧
    sendByte v last s = { s with shreg := 0, sakf := (sendByte v last s).sakf, sa := (sendByte v last s).sa,
                                 sb := (sendByte v last s).sb, lvl := true, dir := .output,
                                 env := (sendByte v last s).env, trace := (sendByte v last s).trace }

/-- R144, R146, R148: RECV_BYTE assembles the byte most significant bit first from eight receive slots, drives the
MAK bit, and takes the acknowledgement, in 98 events and a requested 600 microseconds; R39: nothing is written but
what R144 lists. -/
def Obligations.RecvByteSlots : Prop :=
  ∀ (last : Bit) (s : State), ∃ evs b7 b6 b5 b4 b3 b2 b1 b0 m k,
    (recvByte last s).events = s.events ++ evs ∧
    evs.map eraseSample = byteShape s.timing (.received (if last then Config.makLast else Config.makMore)) ∧
    evs.length = 98 ∧ slotValues (sampleBits evs) = [b7, b6, b5, b4, b3, b2, b1, b0, m, k] ∧
    msbFirst (recvByte last s).shreg = [b7, b6, b5, b4, b3, b2, b1, b0] ∧ (recvByte last s).sakf = k ∧
    (s.timing = Config.timing → requestedTime evs = 600) ∧
    recvByte last s = { s with shreg := (recvByte last s).shreg, sakf := k, sa := (recvByte last s).sa,
                               sb := (recvByte last s).sb, lvl := true, dir := .output,
                               env := (recvByte last s).env, trace := (recvByte last s).trace }

/-- R141: the samples SEND_BYTE takes while it drives decide nothing; its result is the two samples of the SAK slot. -/
def Obligations.SendByteIgnoresDrivenSamples : Prop :=
  ∀ (v : Byte) (last : Bit) (s : State) (driven : List Bit) (a b : Bit) (later : List Bit),
    s.env.slave.answers = false → driven.length = 18 → s.env.script = driven ++ a :: b :: later →
    (sendByte v last s).sakf = (b && !a) ∧ (sendByte v last s).env.script = later

/-! ### Frames, pulses and the guard -/

/-- R160, R161: SEND_FRAME runs the byte slots of its bytes, 82 events each, up to the first that is not
acknowledged, and writes what SEND_BYTE writes; a frame of no bytes does nothing. -/
def Obligations.SendFrameStopsAtFirstNoSak : Prop :=
  ∀ (bytes : List Byte) (final : Bit) (s : State), ∃ evs,
    (sendFrame bytes final s).2.events = s.events ++ evs ∧
    (((sendFrame bytes final s).1 = .ok ∧
        evs.map eraseSample = (sentSlots bytes final).flatMap (byteShape s.timing) ∧
        acknowledgements (slotValues (sampleBits evs)) = List.replicate bytes.length true) ∨
     ((sendFrame bytes final s).1 = .nosak ∧ ∃ k, k < bytes.length ∧
        evs.map eraseSample = ((sentSlots bytes final).take (k + 1)).flatMap (byteShape s.timing) ∧
        acknowledgements (slotValues (sampleBits evs)) = List.replicate k true ++ [false])) ∧
    82 * (acknowledgements (slotValues (sampleBits evs))).length = evs.length ∧
    (sendFrame bytes final s).2 = { s with
      shreg := (sendFrame bytes final s).2.shreg, sakf := (sendFrame bytes final s).2.sakf,
      sa := (sendFrame bytes final s).2.sa, sb := (sendFrame bytes final s).2.sb,
      lvl := if bytes = [] then s.lvl else true, dir := if bytes = [] then s.dir else .output,
      env := (sendFrame bytes final s).2.env, trace := (sendFrame bytes final s).2.trace } ∧
    sendFrame [] final s = (.ok, s)

/-- R163, R164: RECV_FRAME runs up to `n` receive byte slots, 98 events each, stops at the first that is not
acknowledged, and where none failed `RBUF` holds the bytes in the order received; R39: it writes `RBUF` and what
RECV_BYTE writes, and with `n = 0` it only empties `RBUF`. -/
def Obligations.RecvFrameStopsAtFirstNoSak : Prop :=
  ∀ (n : Nat) (s : State), ∃ evs,
    (recvFrame n s).2.events = s.events ++ evs ∧
    (((recvFrame n s).1 = .ok ∧ evs.map eraseSample = (receivedSlots n).flatMap (byteShape s.timing) ∧
        acknowledgements (slotValues (sampleBits evs)) = List.replicate n true ∧
        (recvFrame n s).2.rbuf = slotBytes (slotValues (sampleBits evs)) ∧ (recvFrame n s).2.rbuf.length = n) ∨
     ((recvFrame n s).1 = .nosak ∧ ∃ k, k < n ∧
        evs.map eraseSample = ((receivedSlots n).take (k + 1)).flatMap (byteShape s.timing) ∧
        acknowledgements (slotValues (sampleBits evs)) = List.replicate k true ++ [false])) ∧
    98 * (acknowledgements (slotValues (sampleBits evs))).length = evs.length ∧
    (recvFrame n s).2 = { s with
      rbuf := (recvFrame n s).2.rbuf, shreg := (recvFrame n s).2.shreg, sakf := (recvFrame n s).2.sakf,
      sa := (recvFrame n s).2.sa, sb := (recvFrame n s).2.sb, lvl := if n = 0 then s.lvl else true,
      dir := if n = 0 then s.dir else .output, env := (recvFrame n s).2.env, trace := (recvFrame n s).2.trace } ∧
    recvFrame 0 s = (.ok, { s with rbuf := [] })

/-- R166: the events of the standby pulse, its requested 620 microseconds, and what it leaves; R170: the same of the
gap, which drives nothing (the spec's decision D10). -/
def Obligations.StandbyPulseAndGap : Prop :=
  ∀ s : State,
    (standbyPulse s).events = s.events ++ [.drv false, .dly (s.timing.stbyLow + s.timing.fudge), .drv true,
      .dly (s.timing.stbyHigh + s.timing.fudge)] ∧
    standbyPulse s = { s with lvl := true, env := (standbyPulse s).env, trace := (standbyPulse s).trace } ∧
    (s.timing = Config.timing →
      s.timing.stbyLow + s.timing.fudge = 15 ∧ s.timing.stbyHigh + s.timing.fudge = 605 ∧
      s.timing.stbyLow + s.timing.fudge + (s.timing.stbyHigh + s.timing.fudge) = 620) ∧
    (gap s).events = s.events ++ [.dly (s.timing.gap + s.timing.fudge)] ∧
    gap s = { s with env := (gap s).env, trace := (gap s).trace }

/-- R172, R173: the guard is taken once and is free after a release. -/
def Obligations.GuardIsOneDeep : Prop :=
  ∀ s : State,
    (s.guard = true → lock s = .error .guardHeld) ∧
    (s.guard = false → ∃ t, lock s = .ok t ∧ t.guard = true ∧ t.events = s.events ++ [.lock]) ∧
    (unlock s).guard = false ∧ (unlock s).events = s.events ++ [.unlock]

/-- R172: a command that reaches its `LOCK()` while the guard is held stops with the model's fault. -/
def Obligations.CommandsFaultWhileGuardHeld : Prop :=
  ∀ (s : State), s.seq = [] → s.guard = true →
    exec .wren s = .fault .guardHeld ∧ exec .wrdi s = .fault .guardHeld ∧ exec .rdsr s = .fault .guardHeld ∧
    (∀ v, exec (.wrsr v) s = .fault .guardHeld) ∧
    (∀ a n, readBadLen s.params n = false → exec (.read a n) s = .fault .guardHeld) ∧
    (∀ a n p, writeBadLen n p = false → crossesPage a n = false → exec (.write a n p) s = .fault .guardHeld) ∧
    (s.params.bulkOps = true → exec .eral s = .fault .guardHeld ∧ exec .setal s = .fault .guardHeld) ∧
    (s.params.pollLimit ≠ some 0 → exec .waitWip s = .fault .guardHeld) ∧
    (∀ a n p, pagedBadLen a n p = false → exec (.pagedWrite a n p) s = .fault .guardHeld)

/-! ### The commands -/

/-- R184: READ from a ready master answers a next state: the transaction of its frame and `n` received bytes, the
bytes where all were acknowledged and none else, the operands in `ADDR` and `LEN`, the master idle. What `ADDR`, `LEN`
and `POLLCNT` hold once the command has ended is the model's choice (log 8, log 32). -/
def Obligations.ReadCompletes : Prop :=
  ∀ (s : State) (a : Addr) (n : Nat), Ready s → readBadLen s.params n = false →
    ∃ t evs r, exec (.read a n) s = .next t ∧ t.events = s.events ++ evs ∧
      Transaction s.timing (standbyShape s.timing)
        (sentSlots (cmdframe4 s.devaddr .read a) false ++ receivedSlots n) evs r ∧
      Ended t r (if r = .ok then some ((frameBytes evs).drop 4) else none) ∧ CommandFrame s t ∧ SlaveKept s t ∧
      t.addr = a ∧ t.len = n ∧ t.pollcnt = (begin s).pollcnt

/-- R186: WRITE inside one page answers a next state: the transaction of its frame and its payload. Its frame: where
the oracle answers, no byte of the array outside the `n` written ones has changed, or outside their page where a byte
was not acknowledged (R58). What `ADDR`, `LEN` and `POLLCNT` hold once the command has ended is the model's choice (log 8,
log 32), and so is that the status register keeps its value in State while the oracle answers (log 31). -/
def Obligations.WriteCompletes : Prop :=
  ∀ (s : State) (a : Addr) (n : Nat) (p : List Byte), Ready s → 1 ≤ n → p.length = n → a.toNat % 16 + n ≤ 16 →
    ∃ t evs r, exec (.write a n p) s = .next t ∧ t.events = s.events ++ evs ∧
      Transaction s.timing (standbyShape s.timing)
        (sentSlots (cmdframe4 s.devaddr .write a) false ++ sentSlots p true) evs r ∧
      Ended t r none ∧ CommandFrame s t ∧ WriteFrame a n r s t ∧ t.addr = a ∧ t.len = n ∧
      t.pollcnt = (begin s).pollcnt

/-- R188, R189: WREN and WRDI answer a next state: the transaction of a final two-byte frame. What the registers
it does not write hold at its end is the model's choice (log 8, log 32). -/
def Obligations.WrenAndWrdiComplete : Prop :=
  ∀ (s : State) (i : Instr) (o : Opcode), Ready s → (i = .wren ∧ o = .wren ∨ i = .wrdi ∧ o = .wrdi) →
    ∃ t evs r, exec i s = .next t ∧ t.events = s.events ++ evs ∧
      Transaction s.timing (standbyShape s.timing) (sentSlots [s.devaddr, o.code] true) evs r ∧
      Ended t r none ∧ CommandFrame s t ∧ SlaveKept s t ∧ OperandsUnwritten s t

/-- R190: RDSR answers a next state: a non-final two-byte frame and one received byte, which the host gets where all
was acknowledged. What the registers it does not write hold at its end is the model's choice (log 8, log 32). -/
def Obligations.RdsrCompletes : Prop :=
  ∀ (s : State), Ready s →
    ∃ t evs r, exec .rdsr s = .next t ∧ t.events = s.events ++ evs ∧
      Transaction s.timing (standbyShape s.timing) (statusSlots s.devaddr) evs r ∧
      Ended t r (if r = .ok then some ((frameBytes evs).drop 2) else none) ∧ CommandFrame s t ∧ SlaveKept s t ∧
      OperandsUnwritten s t

/-- R192, R193: WRSR answers a next state: a final three-byte frame with the value as given. That the status
register and the array State holds keep their values while the oracle answers is the model's choice (log 31): what WRSR
stores in a device is open (R193). What the registers it does not write hold at its end is the model's choice too
(log 8, log 32). -/
def Obligations.WrsrCompletes : Prop :=
  ∀ (s : State) (v : Byte), Ready s →
    ∃ t evs r, exec (.wrsr v) s = .next t ∧ t.events = s.events ++ evs ∧
      Transaction s.timing (standbyShape s.timing) (sentSlots [s.devaddr, 0x6E, v] true) evs r ∧
      Ended t r none ∧ CommandFrame s t ∧ SlaveKept s t ∧ OperandsUnwritten s t

/-- R194, R195: where `BULK_OPS` is true ERAL and SETAL answer a next state of the shape of WREN. That the array State
holds keeps its bytes while the oracle answers is the model's choice (log 31): what they do in a device is open. What the
registers they do not write hold at their end is the model's choice too (log 8, log 32). -/
def Obligations.BulkCommandsComplete : Prop :=
  ∀ (s : State) (i : Instr) (o : Opcode), Ready s → s.params.bulkOps = true →
    (i = .eral ∧ o = .eral ∨ i = .setal ∧ o = .setal) →
    ∃ t evs r, exec i s = .next t ∧ t.events = s.events ++ evs ∧
      Transaction s.timing (standbyShape s.timing) (sentSlots [s.devaddr, o.code] true) evs r ∧
      Ended t r none ∧ CommandFrame s t ∧ SlaveKept s t ∧ OperandsUnwritten s t

/-- R168, R169: START_HEADER alone answers a next state: a low hold and the byte 0x55 with MAK slot 1, whatever is
sampled; it writes no register of a command and touches no port (log 13), and the working registers it leaves keep their
values, between commands too (log 32). -/
def Obligations.StartHeaderCompletes : Prop :=
  ∀ (s : State), s.seq = [] →
    ∃ t evs, exec .startHeader s = .next t ∧ t.events = s.events ++ evs ∧
      evs.map eraseSample = .drv false :: .dly (s.timing.hdr + s.timing.fudge) :: byteShape s.timing (.sent 0x55 true) ∧
      t = { s with dir := .output, lvl := true, shreg := t.shreg, sa := t.sa, sb := t.sb, sakf := t.sakf,
                   env := t.env, trace := t.trace } ∧ SlaveKept s t

/-- R198, R199, R223: where `POLL_LIMIT` is set WAIT_WIP answers a next state with its result: one gap and one poll
per turn, as many turns as `POLLCNT` counts, the last as its result says. That `ADDR`, `LEN` and `POLLCNT` hold this once
the command has ended is the model's choice (log 8, log 32). -/
def Obligations.WaitWipCompletes : Prop :=
  ∀ (s : State) (k : Nat), Idle s → s.params.pollLimit = some k →
    ∃ t turns r, exec .waitWip s = .next t ∧ t.events = s.events ++ turns.flatten ∧
      PollRun s.timing s.devaddr (some k) turns r ∧ t.pollcnt = turns.length ∧ Ended t r none ∧ CommandFrame s t ∧
      SlaveKept s t ∧ t.addr = (begin s).addr ∧ t.len = (begin s).len

/-- R198, R200: without a limit WAIT_WIP makes its first turn; it ends where the poll read `WIP = 0` or failed, and
otherwise stands at the head of its loop with the line idle, to poll again (log 19). That `POLLCNT` is counted without a
limit (log 5) and what `ADDR`, `LEN` and `POLLCNT` hold at the end (log 8, log 32) are the model's choices. -/
def Obligations.WaitWipWithoutLimit : Prop :=
  ∀ (s : State), Ready s → s.params.pollLimit = none →
    ∃ t evs r, exec .waitWip s = .next t ∧ t.events = s.events ++ evs ∧ PollTurn s.timing s.devaddr evs r ∧
      t.pollcnt = 1 ∧ t.addr = (begin s).addr ∧ t.len = (begin s).len ∧ CommandFrame s t ∧ SlaveKept s t ∧
      (if r = .ok ∧ turnBusy evs = true then t.seq = [.pollLoop, .ret .ok] ∧ lineOf t = Line.rest ∧ t.done = false
       else Ended t r none)

/-- R200: each further turn without a limit, event by event, leads back to the head of the loop as long as the slave
reads busy; so the command need never end. R201: after the loop a PAGED_WRITE goes on event by event with its next
chunk, WREN and WRITE and then the poll loop again, up to the first that is not acknowledged; the page of a WRITE that
was not becomes unspecified (R58). The model's choices: one operation per step (log 1), `POLLCNT` counted without a limit
(log 5), `ADDR` after a WREN that failed (log 24) and after the end (log 32), the form of the page's free values (log 28),
and the array and the status register kept while the oracle answers (log 31). -/
def Obligations.UnlimitedPollingGoesOn : Prop :=
  (∀ (s : State) (rest : List Op), s.seq = .pollLoop :: rest → s.guard = false → s.params.pollLimit = none →
    ∃ k t evs r, Sys2Proof.core.run (k + 1) s = .next t ∧ t.events = s.events ++ evs ∧
      PollTurn s.timing s.devaddr evs r ∧ t.pollcnt = s.pollcnt + 1 ∧ t.guard = false ∧ t.params = s.params ∧
      (if r = .ok then t.seq = (if turnBusy evs then .pollLoop :: rest else rest) else Ended t r none)) ∧
  (∀ (s : State) (rest : List Op) (a : Addr) (p : List Byte), s.seq = .pages a p :: rest → s.guard = false → p ≠ [] →
    ∃ k t evs r, Sys2Proof.core.run (k + 1) s = .next t ∧ t.events = s.events ++ evs ∧ CommandFrame s t ∧
      WriteFrame a (chunkLen a p.length) r s t ∧ t.addr = a ∧
      ((r = .ok ∧ ∃ e1 e2, evs = e1 ++ e2 ∧ WrenRun s.timing s.devaddr e1 .ok ∧
          WriteRun s.timing s.devaddr a (p.take (chunkLen a p.length)) e2 .ok ∧ lineOf t = Line.rest ∧
          t.pollcnt = 0 ∧ t.done = s.done ∧
          t.seq = .pollLoop :: .pages (addrPlus a (chunkLen a p.length)) (p.drop (chunkLen a p.length)) :: rest) ∨
       (r = .nosak ∧ Ended t .nosak none ∧ (WrenRun s.timing s.devaddr evs .nosak ∨
          ∃ e1 e2, evs = e1 ++ e2 ∧ WrenRun s.timing s.devaddr e1 .ok ∧
            WriteRun s.timing s.devaddr a (p.take (chunkLen a p.length)) e2 .nosak ∧
            (Memory.wf s.env.slave.mem = true → PageUnspecified s.epoch a t))))) ∧
  (∀ (s : State) (rest : List Op) (a : Addr), s.seq = .pages a [] :: rest → step s = .next { s with seq := rest })

/-- R201, R229(5): where `POLL_LIMIT` is set PAGED_WRITE answers a next state with its result: per chunk WREN, WRITE
and WAIT_WIP, up to the first that is not `OK`; the chunk at which it ended, the last where all were written, comes after
the first `before` bytes of the payload, and its address is in `ADDR`; the frame is that of WRITE, the page that of this
chunk (R58). The model's choices: what `ADDR` holds at the end (log 24, log 32), and that the array, the earlier chunks
in it, and the status register keep their values in State while the oracle answers (log 28, log 31). -/
def Obligations.PagedWriteCompletes : Prop :=
  ∀ (s : State) (a : Addr) (n : Nat) (p : List Byte) (k : Nat), Idle s → s.params.pollLimit = some k → 1 ≤ n →
    p.length = n → a.toNat + n ≤ 0x10000 →
    ∃ t evs r before lost, exec (.pagedWrite a n p) s = .next t ∧ t.events = s.events ++ evs ∧
      PagedRun s.timing s.devaddr (some k) a p evs r before lost ∧ before < n ∧ t.addr = addrPlus a before ∧
      Ended t r none ∧ CommandFrame s t ∧ WriteFrame a n r s t

/-- R201, R200: without a limit PAGED_WRITE answers a next state: it has ended, as in PagedWriteCompletes, or it stands
at the head of the poll loop after one of its chunks with the line idle, the chunks still to come after the loop (log
19); `ADDR` holds the address of the chunk at which it ended or after which it polls. The model's choices besides log 19:
what `ADDR` holds at the end (log 24, log 32), and that the array, the earlier chunks in it, and the status register keep
their values in State while the oracle answers (log 28, log 31). -/
def Obligations.PagedWriteWithoutLimit : Prop :=
  ∀ (s : State) (a : Addr) (n : Nat) (p : List Byte), Idle s → s.params.pollLimit = none → 1 ≤ n →
    p.length = n → a.toNat + n ≤ 0x10000 →
    ∃ t evs before, exec (.pagedWrite a n p) s = .next t ∧ t.events = s.events ++ evs ∧ CommandFrame s t ∧
      t.addr = addrPlus a before ∧
      ((∃ r lost, PagedRun s.timing s.devaddr none a p evs r before lost ∧ before < n ∧ Ended t r none ∧
          WriteFrame a n r s t) ∨
       (∃ done, PagedPolls s.timing s.devaddr a p evs before done ∧ before < done ∧ done ≤ n ∧
          t.seq = [.pollLoop, .pages (addrPlus a done) (p.drop done), .ret .ok] ∧ lineOf t = Line.rest ∧
          t.done = false ∧ ArrayKeptOutside a.toNat done s t))

/-- R181, R184, R186, R201, R220, R229, R243: an operand check that fails before any event, `BADLEN` before `BOUNDARY`:
`BOUNDARY` ends the command and touches nothing but the result ports; a request with `BADLEN` is a refusal that names
its code (log 6). -/
def Obligations.FailedChecksTouchNothing : Prop :=
  ∀ (s : State), s.seq = [] →
    (∀ a n, (n = 0 ∨ ∃ m, s.params.maxLen = some m ∧ m < n) → exec (.read a n) s = .refused (.declined .badlen)) ∧
    (∀ a n p, (n = 0 ∨ p.length ≠ n) → exec (.write a n p) s = .refused (.declined .badlen)) ∧
    (∀ a n p, n ≠ 0 → p.length = n → 16 < a.toNat % 16 + n → exec (.write a n p) s = .next (rejected .boundary s)) ∧
    (∀ a n p, (n = 0 ∨ p.length ≠ n ∨ 0x10000 < a.toNat + n) →
      exec (.pagedWrite a n p) s = .refused (.declined .badlen))

/-- R194, R195, R220, R243: without `BULK_OPS` the bulk commands are refused with `REFUSED` before any event. -/
def Obligations.BulkCommandsRefusedByDefault : Prop :=
  ∀ (s : State), s.seq = [] → s.params.bulkOps = false →
    exec .eral s = .refused (.declined .refused) ∧ exec .setal s = .refused (.declined .refused)

/-- R202: every chunk of PAGED_WRITE is at least one byte, ends at or before the end of its page, and is the whole
rest or ends on a page boundary; so no inner WRITE is rejected (R201). -/
def Obligations.ChunksStayInOnePage : Prop :=
  ∀ (a : Addr) (p : List Byte), p ≠ [] → a.toNat + p.length ≤ 0x10000 →
    let c := chunkLen a p.length
    1 ≤ c ∧ c ≤ p.length ∧ writeBadLen (p.take c).length (p.take c) = false ∧ crossesPage a (p.take c).length = false ∧
    (c = p.length ∨ (a.toNat + c) % 16 = 0) ∧ (a.toNat + c < 0x10000 → (addrPlus a c).toNat = a.toNat + c)

/-- R224, R226: a command that ended with another code than `OK` hands over no data. -/
def Obligations.NoDataOnFailure : Prop :=
  ∀ (i : Instr) (s t : State), i ≠ .startHeader → exec i s = .next t → t.done = true → t.result ≠ .ok → t.rdata = none

/-- R283, R199: what the commands request and emit at the constants of R25, where every byte was acknowledged: ERAL and
SETAL where they may be issued, and WAIT_WIP per turn, `POLLCNT` turns in all, counted without a limit too (log 5) and
read where the turn or the command has ended (log 32). -/
def Obligations.RequestedTimes : Prop :=
  ∀ (s t : State), Ready s → s.timing = Config.timing →
    (∀ a n, exec (.read a n) s = .next t → t.result = .ok → readBadLen s.params n = false →
      t.trace.length = s.trace.length + 418 + 98 * n ∧
      requestedTime t.events = requestedTime s.events + 3630 + 600 * n) ∧
    (∀ a n p, exec (.write a n p) s = .next t → t.result = .ok → writeBadLen n p = false → crossesPage a n = false →
      t.trace.length = s.trace.length + 418 + 82 * n ∧
      requestedTime t.events = requestedTime s.events + 3630 + 600 * n) ∧
    (∀ i ∈ ([.wren, .wrdi, .eral, .setal] : List Instr), exec i s = .next t → t.result = .ok →
      t.trace.length = s.trace.length + 254 ∧ requestedTime t.events = requestedTime s.events + 2430) ∧
    (exec .rdsr s = .next t → t.result = .ok →
      t.trace.length = s.trace.length + 352 ∧ requestedTime t.events = requestedTime s.events + 3030) ∧
    (∀ v, exec (.wrsr v) s = .next t → t.result = .ok →
      t.trace.length = s.trace.length + 336 ∧ requestedTime t.events = requestedTime s.events + 3030) ∧
    (exec .waitWip s = .next t → (t.done = true → t.result ≠ .nosak) →
      t.trace.length = s.trace.length + 349 * t.pollcnt ∧
      requestedTime t.events = requestedTime s.events + 2425 * t.pollcnt)

/-! ### The whole machine -/

/-- R262, R175: from every state that meets the invariant, a step gives a state that meets it; at `IDLE` the line is
idle again. -/
def Obligations.StepKeepsInvariant : Prop := ∀ s t : State, Inv s → step s = .next t → Inv t

/-- R21, R25, R39: no step writes `DEVADDR`, a `T_*` constant or a parameter, and the host's commands are taken in
their order. -/
def Obligations.FixedStateNeverWritten : Prop :=
  ∀ s t : State, step s = .next t →
    t.devaddr = s.devaddr ∧ t.timing = s.timing ∧ t.params = s.params ∧ (t.host = s.host ∨ t.host = s.host.tail)

/-- R62: no step takes an event back or reorders the trace. -/
def Obligations.TraceOnlyGrows : Prop := ∀ s t : State, step s = .next t → ∃ evs, t.events = s.events ++ evs

/-- R174, R273: in the events of every command, samples and changes of direction fall only while the guard is held,
the guard is never taken while held, and it is free at the end. -/
def Obligations.CommandsKeepGuardDiscipline : Prop :=
  ∀ (i : Instr) (s t : State), i ≠ .startHeader → s.guard = false → exec i s = .next t →
    ∃ evs, t.events = s.events ++ evs ∧ guardDiscipline false evs = true

/-- R33, R175, R225: a command started at its first operation and run one operation at a time, each emitting at most
one event, reaches what the command as a whole answers: its state, its trace, its fault; a request that is refused
whole is refused at its first operation. -/
def Obligations.EventRunReachesCommand : Prop :=
  ∀ (i : Instr) (s : State), s.seq = [] →
    (∀ u, load i s = .next u → ∃ k, Sys2Proof.core.run k u = exec i s) ∧
    (∀ e, load i s = .refused e → exec i s = .refused e) ∧ (∀ f, load i s ≠ .fault f)

/-- R39, R58: while the oracle answers, a step changes nothing that is known of the slave but the bytes of one page of
its array, and that only where it is the end of a WRITE that ended with `NOSAK`: the page is that of the WRITE. That the
array keeps its bytes after an acknowledged one is the model's choice (log 31). -/
def Obligations.OracleLeavesSlaveButOnePage : Prop :=
  ∀ s t : State, s.env.slave.answers = false → Memory.wf s.env.slave.mem = true → step s = .next t →
    t.env.slave = { s.env.slave with mem := t.env.slave.mem } ∧
    (lostByStep s t = none → t.env.slave.mem = s.env.slave.mem) ∧
    ∀ a, lostByStep s t = some a → ∀ x, (x < pageStart a ∨ pageStart a + 16 ≤ x) →
      Memory.read t.env.slave.mem x = Memory.read s.env.slave.mem x

/-- R58, U4: after a WRITE that failed part way every byte of the addressed page is a free value, whoever answered: a
WRITE by itself, the WRITE of the chunk at which a PAGED_WRITE ended, and the operation that ends a failed WRITE where
the command is run one operation at a time. A PAGED_WRITE that ended with `NOSAK` in a WREN or a WAIT_WIP loses no page.
The model's choices: the form of the free values (log 28), the array kept otherwise while the oracle answers (log 31),
and `ADDR` at the end (log 24, log 32). -/
def Obligations.FailedWriteLosesItsPage : Prop :=
  (∀ (s t : State) (a : Addr) (n : Nat) (p : List Byte), s.seq = [] → Memory.wf s.env.slave.mem = true →
    exec (.write a n p) s = .next t → t.result = .nosak → PageUnspecified (s.epoch + 1) a t) ∧
  (∀ (s t : State) (a : Addr) (n : Nat) (p : List Byte), s.seq = [] → Memory.wf s.env.slave.mem = true →
    exec (.pagedWrite a n p) s = .next t → t.done = true → t.result = .nosak →
    ∃ evs before lost, t.events = s.events ++ evs ∧
      PagedRun s.timing s.devaddr s.params.pollLimit a p evs .nosak before lost ∧ t.addr = addrPlus a before ∧
      (∀ b, lost = some b → b = t.addr ∧ PageUnspecified (s.epoch + 1) b t) ∧ (lost = none → SlaveKept s t)) ∧
  (∀ (s t : State) (a : Addr) (rest : List Op), s.seq = .losePage a :: rest → Memory.wf s.env.slave.mem = true →
    step s = .next t → PageUnspecified s.epoch a t)

/-! ### With the reference slave of 95_test_vectors.md section 3 -/

/-- The scenario of R191 at every status value: RDSR returns the slave's status register. -/
def Obligations.RdsrReturnsStatusRegister : Prop :=
  ∀ s : State, Idle s → SlaveReady s →
    ∃ t, exec .rdsr s = .next t ∧ Ended t .ok (some [s.env.slave.status]) ∧ t.env.slave.mem = s.env.slave.mem

/-- 95_test_vectors.md section 3 rule 5: WRSR puts bits 7:1 of its value in the slave's status register, leaves its bit
0 (`WIP`, R26), and leaves the array alone. -/
def Obligations.WrsrWritesStatusRegister : Prop :=
  ∀ (s : State) (v : Byte), Idle s → SlaveReady s →
    ∃ t, exec (.wrsr v) s = .next t ∧ Ended t .ok none ∧
      (∀ i, t.env.slave.status.getLsbD i = if i = 0 then s.env.slave.status.getLsbD 0 else v.getLsbD i) ∧
      t.env.slave.mem = s.env.slave.mem

/-- R53, R184: READ returns the bytes of the array at `a`, `a + 1`, and so on, and changes none. -/
def Obligations.ReadReturnsArrayBytes : Prop :=
  ∀ (s : State) (a : Addr) (n : Nat), Idle s → SlaveReady s → readBadLen s.params n = false →
    a.toNat + n ≤ 0x10000 →
    ∃ t, exec (.read a n) s = .next t ∧ Ended t .ok (some (Memory.readMany s.env.slave.mem a.toNat n)) ∧
      t.env.slave.mem = s.env.slave.mem

/-- R53, R186: WRITE stores its payload at `a`, `a + 1`, and so on; every byte outside is read as before. -/
def Obligations.WriteStoresPayload : Prop :=
  ∀ (s : State) (a : Addr) (n : Nat) (p : List Byte), Idle s → SlaveReady s →
    Memory.wf s.env.slave.mem = true → 1 ≤ n → p.length = n → a.toNat % 16 + n ≤ 16 →
    ∃ t, exec (.write a n p) s = .next t ∧ Ended t .ok none ∧
      Memory.readMany t.env.slave.mem a.toNat n = p ∧
      ∀ x, (x < a.toNat ∨ a.toNat + n ≤ x) → Memory.read t.env.slave.mem x = Memory.read s.env.slave.mem x

/-- R64: the round-trip law: what a READ gave, written back to the same place, is read again. -/
def Obligations.ReadWriteReadRoundTrip : Prop :=
  ∀ (s t u v : State) (a : Addr) (n : Nat) (d : List Byte), Idle s → SlaveReady s →
    Memory.wf s.env.slave.mem = true → readBadLen s.params n = false → a.toNat % 16 + n ≤ 16 →
    exec (.read a n) s = .next t → t.rdata = some d → exec (.write a n d) t = .next u →
    exec (.read a n) u = .next v → v.rdata = some d

/-- R199: after `K` more status reads that show `WIP = 1` WAIT_WIP ends with `OK` after exactly `K + 1` polls, where
the limit allows them. For a slave in the middle of a transaction this rests on log 29; that `POLLCNT` shows the count
once the command has ended, on log 32. -/
def Obligations.WaitWipCountsPolls : Prop :=
  ∀ (s : State) (k : Nat), Idle s → SlaveReady s → s.params.pollLimit = some k →
    (s.env.slave.status.getLsbD 0 = false → 1 ≤ k →
      ∃ t, exec .waitWip s = .next t ∧ Ended t .ok none ∧ t.pollcnt = 1) ∧
    (s.env.slave.status.getLsbD 0 = true → 1 ≤ s.env.slave.k → s.env.slave.k + 1 ≤ k →
      ∃ t, exec .waitWip s = .next t ∧ Ended t .ok none ∧ t.pollcnt = s.env.slave.k + 1) ∧
    (s.env.slave.status.getLsbD 0 = true → s.env.slave.k = 0 →
      ∃ t, exec .waitWip s = .next t ∧ Ended t .timeout none ∧ t.pollcnt = k)

/-- R201, R202: PAGED_WRITE to an idle slave stores its whole payload, whatever page boundaries it crosses. -/
def Obligations.PagedWriteStoresPayload : Prop :=
  ∀ (s : State) (a : Addr) (n : Nat) (p : List Byte) (k : Nat), Idle s → SlaveReady s →
    Memory.wf s.env.slave.mem = true → s.env.slave.status.getLsbD 0 = false → s.params.pollLimit = some k →
    s.env.slave.k0 + 1 ≤ k → 1 ≤ n → p.length = n → a.toNat + n ≤ 0x10000 →
    ∃ t, exec (.pagedWrite a n p) s = .next t ∧ Ended t .ok none ∧ Memory.readMany t.env.slave.mem a.toNat n = p ∧
      ∀ x, (x < a.toNat ∨ a.toNat + n ≤ x) → Memory.read t.env.slave.mem x = Memory.read s.env.slave.mem x

/-- R162, R164, R221, R224: with an absent slave every command that uses the line ends with `NOSAK` and no data after
the first byte of its (first) command frame; WAIT_WIP in its first poll, which `POLLCNT` has counted (log 24, log 5) and
still shows at the end (log 32). -/
def Obligations.AbsentSlaveGivesNoSak : Prop :=
  ∀ (s : State), Idle s → s.env.slave.answers = true → s.env.slave.present = false →
    (∀ i : Instr,
      (i ∈ ([.wren, .wrdi, .rdsr] : List Instr) ∨ (i ∈ ([.eral, .setal] : List Instr) ∧ s.params.bulkOps = true) ∨
        (∃ v, i = .wrsr v) ∨ (∃ a n, i = .read a n ∧ readBadLen s.params n = false) ∨
        (∃ a n p, i = .write a n p ∧ writeBadLen n p = false ∧ crossesPage a n = false) ∨
        (∃ a n p, i = .pagedWrite a n p ∧ pagedBadLen a n p = false)) →
      ∃ t evs, exec i s = .next t ∧ Ended t .nosak none ∧ t.events = s.events ++ evs ∧
        evs.map eraseSample = standbyShape s.timing ++ guardedShape s.timing [.sent s.devaddr Config.makMore]) ∧
    (s.params.pollLimit ≠ some 0 →
      ∃ t evs, exec .waitWip s = .next t ∧ Ended t .nosak none ∧ t.pollcnt = 1 ∧ t.events = s.events ++ evs ∧
        evs.map eraseSample =
          .dly (requestedDelay s.timing .gap) :: guardedShape s.timing [.sent s.devaddr Config.makMore])

/-- 95_test_vectors.md section 3 rule 5 (R26): no instruction but WRITE, PAGED_WRITE, ERAL and SETAL changes a byte of
the array of the reference slave. What ERAL and SETAL leave in an array is open (R50, R194; log 16). For WAIT_WIP and
START_HEADER, which open with no standby pulse, and a slave in the middle of a transaction this rests on log 29. -/
def Obligations.OtherCommandsKeepTheArray : Prop :=
  ∀ (i : Instr) (s t : State), Idle s → (∀ a n p, i ≠ .write a n p) → (∀ a n p, i ≠ .pagedWrite a n p) →
    i ≠ .eral → i ≠ .setal → exec i s = .next t → t.env.slave.mem = s.env.slave.mem
end

