-- ==== Sys2Proof/Laws/State.lean ====
section
/-! SUPPORT. What each named operation leaves in each field of the state: one lemma per field per update. -/

namespace Sys2Proof.Machine

section
variable (s : State)

-- emit
@[simp] theorem emit_devaddr (e : Event) : (emit e s).devaddr = s.devaddr := rfl
@[simp] theorem emit_dir (e : Event) : (emit e s).dir = s.dir := rfl
@[simp] theorem emit_lvl (e : Event) : (emit e s).lvl = s.lvl := rfl
@[simp] theorem emit_guard (e : Event) : (emit e s).guard = s.guard := rfl
@[simp] theorem emit_timing (e : Event) : (emit e s).timing = s.timing := rfl
@[simp] theorem emit_params (e : Event) : (emit e s).params = s.params := rfl
@[simp] theorem emit_shreg (e : Event) : (emit e s).shreg = s.shreg := rfl
@[simp] theorem emit_sa (e : Event) : (emit e s).sa = s.sa := rfl
@[simp] theorem emit_sb (e : Event) : (emit e s).sb = s.sb := rfl
@[simp] theorem emit_sakf (e : Event) : (emit e s).sakf = s.sakf := rfl
@[simp] theorem emit_addr (e : Event) : (emit e s).addr = s.addr := rfl
@[simp] theorem emit_len (e : Event) : (emit e s).len = s.len := rfl
@[simp] theorem emit_wbuf (e : Event) : (emit e s).wbuf = s.wbuf := rfl
@[simp] theorem emit_rbuf (e : Event) : (emit e s).rbuf = s.rbuf := rfl
@[simp] theorem emit_seq (e : Event) : (emit e s).seq = s.seq := rfl
@[simp] theorem emit_result (e : Event) : (emit e s).result = s.result := rfl
@[simp] theorem emit_pollcnt (e : Event) : (emit e s).pollcnt = s.pollcnt := rfl
@[simp] theorem emit_host (e : Event) : (emit e s).host = s.host := rfl
@[simp] theorem emit_done (e : Event) : (emit e s).done = s.done := rfl
@[simp] theorem emit_rdata (e : Event) : (emit e s).rdata = s.rdata := rfl
@[simp] theorem emit_env (e : Event) : (emit e s).env = s.env.observe s.dir s.lvl e := rfl
@[simp] theorem emit_trace (e : Event) : (emit e s).trace = e :: s.trace := rfl
@[simp] theorem emit_epoch (e : Event) : (emit e s).epoch = s.epoch := rfl

-- setOutput
@[simp] theorem setOutput_devaddr : (setOutput s).devaddr = s.devaddr := rfl
@[simp] theorem setOutput_dir : (setOutput s).dir = .output := rfl
@[simp] theorem setOutput_lvl : (setOutput s).lvl = s.lvl := rfl
@[simp] theorem setOutput_guard : (setOutput s).guard = s.guard := rfl
@[simp] theorem setOutput_timing : (setOutput s).timing = s.timing := rfl
@[simp] theorem setOutput_params : (setOutput s).params = s.params := rfl
@[simp] theorem setOutput_shreg : (setOutput s).shreg = s.shreg := rfl
@[simp] theorem setOutput_sa : (setOutput s).sa = s.sa := rfl
@[simp] theorem setOutput_sb : (setOutput s).sb = s.sb := rfl
@[simp] theorem setOutput_sakf : (setOutput s).sakf = s.sakf := rfl
@[simp] theorem setOutput_addr : (setOutput s).addr = s.addr := rfl
@[simp] theorem setOutput_len : (setOutput s).len = s.len := rfl
@[simp] theorem setOutput_wbuf : (setOutput s).wbuf = s.wbuf := rfl
@[simp] theorem setOutput_rbuf : (setOutput s).rbuf = s.rbuf := rfl
@[simp] theorem setOutput_seq : (setOutput s).seq = s.seq := rfl
@[simp] theorem setOutput_result : (setOutput s).result = s.result := rfl
@[simp] theorem setOutput_pollcnt : (setOutput s).pollcnt = s.pollcnt := rfl
@[simp] theorem setOutput_host : (setOutput s).host = s.host := rfl
@[simp] theorem setOutput_done : (setOutput s).done = s.done := rfl
@[simp] theorem setOutput_rdata : (setOutput s).rdata = s.rdata := rfl
@[simp] theorem setOutput_env : (setOutput s).env = s.env.observe .output s.lvl .out := rfl
@[simp] theorem setOutput_trace : (setOutput s).trace = .out :: s.trace := rfl
@[simp] theorem setOutput_epoch : (setOutput s).epoch = s.epoch := rfl

-- setInput
@[simp] theorem setInput_devaddr : (setInput s).devaddr = s.devaddr := rfl
@[simp] theorem setInput_dir : (setInput s).dir = .input := rfl
@[simp] theorem setInput_lvl : (setInput s).lvl = s.lvl := rfl
@[simp] theorem setInput_guard : (setInput s).guard = s.guard := rfl
@[simp] theorem setInput_timing : (setInput s).timing = s.timing := rfl
@[simp] theorem setInput_params : (setInput s).params = s.params := rfl
@[simp] theorem setInput_shreg : (setInput s).shreg = s.shreg := rfl
@[simp] theorem setInput_sa : (setInput s).sa = s.sa := rfl
@[simp] theorem setInput_sb : (setInput s).sb = s.sb := rfl
@[simp] theorem setInput_sakf : (setInput s).sakf = s.sakf := rfl
@[simp] theorem setInput_addr : (setInput s).addr = s.addr := rfl
@[simp] theorem setInput_len : (setInput s).len = s.len := rfl
@[simp] theorem setInput_wbuf : (setInput s).wbuf = s.wbuf := rfl
@[simp] theorem setInput_rbuf : (setInput s).rbuf = s.rbuf := rfl
@[simp] theorem setInput_seq : (setInput s).seq = s.seq := rfl
@[simp] theorem setInput_result : (setInput s).result = s.result := rfl
@[simp] theorem setInput_pollcnt : (setInput s).pollcnt = s.pollcnt := rfl
@[simp] theorem setInput_host : (setInput s).host = s.host := rfl
@[simp] theorem setInput_done : (setInput s).done = s.done := rfl
@[simp] theorem setInput_rdata : (setInput s).rdata = s.rdata := rfl
@[simp] theorem setInput_env : (setInput s).env = s.env.observe .input s.lvl .inp := rfl
@[simp] theorem setInput_trace : (setInput s).trace = .inp :: s.trace := rfl
@[simp] theorem setInput_epoch : (setInput s).epoch = s.epoch := rfl

-- setLevel
@[simp] theorem setLevel_devaddr (v : Bit) : (setLevel v s).devaddr = s.devaddr := rfl
@[simp] theorem setLevel_dir (v : Bit) : (setLevel v s).dir = s.dir := rfl
@[simp] theorem setLevel_lvl (v : Bit) : (setLevel v s).lvl = v := rfl
@[simp] theorem setLevel_guard (v : Bit) : (setLevel v s).guard = s.guard := rfl
@[simp] theorem setLevel_timing (v : Bit) : (setLevel v s).timing = s.timing := rfl
@[simp] theorem setLevel_params (v : Bit) : (setLevel v s).params = s.params := rfl
@[simp] theorem setLevel_shreg (v : Bit) : (setLevel v s).shreg = s.shreg := rfl
@[simp] theorem setLevel_sa (v : Bit) : (setLevel v s).sa = s.sa := rfl
@[simp] theorem setLevel_sb (v : Bit) : (setLevel v s).sb = s.sb := rfl
@[simp] theorem setLevel_sakf (v : Bit) : (setLevel v s).sakf = s.sakf := rfl
@[simp] theorem setLevel_addr (v : Bit) : (setLevel v s).addr = s.addr := rfl
@[simp] theorem setLevel_len (v : Bit) : (setLevel v s).len = s.len := rfl
@[simp] theorem setLevel_wbuf (v : Bit) : (setLevel v s).wbuf = s.wbuf := rfl
@[simp] theorem setLevel_rbuf (v : Bit) : (setLevel v s).rbuf = s.rbuf := rfl
@[simp] theorem setLevel_seq (v : Bit) : (setLevel v s).seq = s.seq := rfl
@[simp] theorem setLevel_result (v : Bit) : (setLevel v s).result = s.result := rfl
@[simp] theorem setLevel_pollcnt (v : Bit) : (setLevel v s).pollcnt = s.pollcnt := rfl
@[simp] theorem setLevel_host (v : Bit) : (setLevel v s).host = s.host := rfl
@[simp] theorem setLevel_done (v : Bit) : (setLevel v s).done = s.done := rfl
@[simp] theorem setLevel_rdata (v : Bit) : (setLevel v s).rdata = s.rdata := rfl
@[simp] theorem setLevel_env (v : Bit) : (setLevel v s).env = s.env.observe s.dir v (.drv v) := rfl
@[simp] theorem setLevel_trace (v : Bit) : (setLevel v s).trace = (.drv v) :: s.trace := rfl
@[simp] theorem setLevel_epoch (v : Bit) : (setLevel v s).epoch = s.epoch := rfl

-- sampleA
@[simp] theorem sampleA_devaddr : (sampleA s).devaddr = s.devaddr := rfl
@[simp] theorem sampleA_dir : (sampleA s).dir = s.dir := rfl
@[simp] theorem sampleA_lvl : (sampleA s).lvl = s.lvl := rfl
@[simp] theorem sampleA_guard : (sampleA s).guard = s.guard := rfl
@[simp] theorem sampleA_timing : (sampleA s).timing = s.timing := rfl
@[simp] theorem sampleA_params : (sampleA s).params = s.params := rfl
@[simp] theorem sampleA_shreg : (sampleA s).shreg = s.shreg := rfl
@[simp] theorem sampleA_sa : (sampleA s).sa = s.env.answer s.dir s.lvl := rfl
@[simp] theorem sampleA_sb : (sampleA s).sb = s.sb := rfl
@[simp] theorem sampleA_sakf : (sampleA s).sakf = s.sakf := rfl
@[simp] theorem sampleA_addr : (sampleA s).addr = s.addr := rfl
@[simp] theorem sampleA_len : (sampleA s).len = s.len := rfl
@[simp] theorem sampleA_wbuf : (sampleA s).wbuf = s.wbuf := rfl
@[simp] theorem sampleA_rbuf : (sampleA s).rbuf = s.rbuf := rfl
@[simp] theorem sampleA_seq : (sampleA s).seq = s.seq := rfl
@[simp] theorem sampleA_result : (sampleA s).result = s.result := rfl
@[simp] theorem sampleA_pollcnt : (sampleA s).pollcnt = s.pollcnt := rfl
@[simp] theorem sampleA_host : (sampleA s).host = s.host := rfl
@[simp] theorem sampleA_done : (sampleA s).done = s.done := rfl
@[simp] theorem sampleA_rdata : (sampleA s).rdata = s.rdata := rfl
@[simp] theorem sampleA_env : (sampleA s).env = s.env.observe s.dir s.lvl (.smp (s.env.answer s.dir s.lvl)) := rfl
@[simp] theorem sampleA_trace : (sampleA s).trace = (.smp (s.env.answer s.dir s.lvl)) :: s.trace := rfl
@[simp] theorem sampleA_epoch : (sampleA s).epoch = s.epoch := rfl

-- sampleB
@[simp] theorem sampleB_devaddr : (sampleB s).devaddr = s.devaddr := rfl
@[simp] theorem sampleB_dir : (sampleB s).dir = s.dir := rfl
@[simp] theorem sampleB_lvl : (sampleB s).lvl = s.lvl := rfl
@[simp] theorem sampleB_guard : (sampleB s).guard = s.guard := rfl
@[simp] theorem sampleB_timing : (sampleB s).timing = s.timing := rfl
@[simp] theorem sampleB_params : (sampleB s).params = s.params := rfl
@[simp] theorem sampleB_shreg : (sampleB s).shreg = s.shreg := rfl
@[simp] theorem sampleB_sa : (sampleB s).sa = s.sa := rfl
@[simp] theorem sampleB_sb : (sampleB s).sb = s.env.answer s.dir s.lvl := rfl
@[simp] theorem sampleB_sakf : (sampleB s).sakf = s.sakf := rfl
@[simp] theorem sampleB_addr : (sampleB s).addr = s.addr := rfl
@[simp] theorem sampleB_len : (sampleB s).len = s.len := rfl
@[simp] theorem sampleB_wbuf : (sampleB s).wbuf = s.wbuf := rfl
@[simp] theorem sampleB_rbuf : (sampleB s).rbuf = s.rbuf := rfl
@[simp] theorem sampleB_seq : (sampleB s).seq = s.seq := rfl
@[simp] theorem sampleB_result : (sampleB s).result = s.result := rfl
@[simp] theorem sampleB_pollcnt : (sampleB s).pollcnt = s.pollcnt := rfl
@[simp] theorem sampleB_host : (sampleB s).host = s.host := rfl
@[simp] theorem sampleB_done : (sampleB s).done = s.done := rfl
@[simp] theorem sampleB_rdata : (sampleB s).rdata = s.rdata := rfl
@[simp] theorem sampleB_env : (sampleB s).env = s.env.observe s.dir s.lvl (.smp (s.env.answer s.dir s.lvl)) := rfl
@[simp] theorem sampleB_trace : (sampleB s).trace = (.smp (s.env.answer s.dir s.lvl)) :: s.trace := rfl
@[simp] theorem sampleB_epoch : (sampleB s).epoch = s.epoch := rfl

-- delay
@[simp] theorem delay_devaddr (n : Nat) : (delay n s).devaddr = s.devaddr := rfl
@[simp] theorem delay_dir (n : Nat) : (delay n s).dir = s.dir := rfl
@[simp] theorem delay_lvl (n : Nat) : (delay n s).lvl = s.lvl := rfl
@[simp] theorem delay_guard (n : Nat) : (delay n s).guard = s.guard := rfl
@[simp] theorem delay_timing (n : Nat) : (delay n s).timing = s.timing := rfl
@[simp] theorem delay_params (n : Nat) : (delay n s).params = s.params := rfl
@[simp] theorem delay_shreg (n : Nat) : (delay n s).shreg = s.shreg := rfl
@[simp] theorem delay_sa (n : Nat) : (delay n s).sa = s.sa := rfl
@[simp] theorem delay_sb (n : Nat) : (delay n s).sb = s.sb := rfl
@[simp] theorem delay_sakf (n : Nat) : (delay n s).sakf = s.sakf := rfl
@[simp] theorem delay_addr (n : Nat) : (delay n s).addr = s.addr := rfl
@[simp] theorem delay_len (n : Nat) : (delay n s).len = s.len := rfl
@[simp] theorem delay_wbuf (n : Nat) : (delay n s).wbuf = s.wbuf := rfl
@[simp] theorem delay_rbuf (n : Nat) : (delay n s).rbuf = s.rbuf := rfl
@[simp] theorem delay_seq (n : Nat) : (delay n s).seq = s.seq := rfl
@[simp] theorem delay_result (n : Nat) : (delay n s).result = s.result := rfl
@[simp] theorem delay_pollcnt (n : Nat) : (delay n s).pollcnt = s.pollcnt := rfl
@[simp] theorem delay_host (n : Nat) : (delay n s).host = s.host := rfl
@[simp] theorem delay_done (n : Nat) : (delay n s).done = s.done := rfl
@[simp] theorem delay_rdata (n : Nat) : (delay n s).rdata = s.rdata := rfl
@[simp] theorem delay_env (n : Nat) : (delay n s).env = s.env.observe s.dir s.lvl (.dly n) := rfl
@[simp] theorem delay_trace (n : Nat) : (delay n s).trace = (.dly n) :: s.trace := rfl
@[simp] theorem delay_epoch (n : Nat) : (delay n s).epoch = s.epoch := rfl

-- wait
@[simp] theorem wait_devaddr (c : Delay) : (wait c s).devaddr = s.devaddr := rfl
@[simp] theorem wait_dir (c : Delay) : (wait c s).dir = s.dir := rfl
@[simp] theorem wait_lvl (c : Delay) : (wait c s).lvl = s.lvl := rfl
@[simp] theorem wait_guard (c : Delay) : (wait c s).guard = s.guard := rfl
@[simp] theorem wait_timing (c : Delay) : (wait c s).timing = s.timing := rfl
@[simp] theorem wait_params (c : Delay) : (wait c s).params = s.params := rfl
@[simp] theorem wait_shreg (c : Delay) : (wait c s).shreg = s.shreg := rfl
@[simp] theorem wait_sa (c : Delay) : (wait c s).sa = s.sa := rfl
@[simp] theorem wait_sb (c : Delay) : (wait c s).sb = s.sb := rfl
@[simp] theorem wait_sakf (c : Delay) : (wait c s).sakf = s.sakf := rfl
@[simp] theorem wait_addr (c : Delay) : (wait c s).addr = s.addr := rfl
@[simp] theorem wait_len (c : Delay) : (wait c s).len = s.len := rfl
@[simp] theorem wait_wbuf (c : Delay) : (wait c s).wbuf = s.wbuf := rfl
@[simp] theorem wait_rbuf (c : Delay) : (wait c s).rbuf = s.rbuf := rfl
@[simp] theorem wait_seq (c : Delay) : (wait c s).seq = s.seq := rfl
@[simp] theorem wait_result (c : Delay) : (wait c s).result = s.result := rfl
@[simp] theorem wait_pollcnt (c : Delay) : (wait c s).pollcnt = s.pollcnt := rfl
@[simp] theorem wait_host (c : Delay) : (wait c s).host = s.host := rfl
@[simp] theorem wait_done (c : Delay) : (wait c s).done = s.done := rfl
@[simp] theorem wait_rdata (c : Delay) : (wait c s).rdata = s.rdata := rfl
@[simp] theorem wait_env (c : Delay) : (wait c s).env = s.env.observe s.dir s.lvl (.dly (requestedDelay s.timing c)) := rfl
@[simp] theorem wait_trace (c : Delay) : (wait c s).trace = (.dly (requestedDelay s.timing c)) :: s.trace := rfl
@[simp] theorem wait_epoch (c : Delay) : (wait c s).epoch = s.epoch := rfl

-- takeGuard
@[simp] theorem takeGuard_devaddr : (takeGuard s).devaddr = s.devaddr := rfl
@[simp] theorem takeGuard_dir : (takeGuard s).dir = s.dir := rfl
@[simp] theorem takeGuard_lvl : (takeGuard s).lvl = s.lvl := rfl
@[simp] theorem takeGuard_guard : (takeGuard s).guard = true := rfl
@[simp] theorem takeGuard_timing : (takeGuard s).timing = s.timing := rfl
@[simp] theorem takeGuard_params : (takeGuard s).params = s.params := rfl
@[simp] theorem takeGuard_shreg : (takeGuard s).shreg = s.shreg := rfl
@[simp] theorem takeGuard_sa : (takeGuard s).sa = s.sa := rfl
@[simp] theorem takeGuard_sb : (takeGuard s).sb = s.sb := rfl
@[simp] theorem takeGuard_sakf : (takeGuard s).sakf = s.sakf := rfl
@[simp] theorem takeGuard_addr : (takeGuard s).addr = s.addr := rfl
@[simp] theorem takeGuard_len : (takeGuard s).len = s.len := rfl
@[simp] theorem takeGuard_wbuf : (takeGuard s).wbuf = s.wbuf := rfl
@[simp] theorem takeGuard_rbuf : (takeGuard s).rbuf = s.rbuf := rfl
@[simp] theorem takeGuard_seq : (takeGuard s).seq = s.seq := rfl
@[simp] theorem takeGuard_result : (takeGuard s).result = s.result := rfl
@[simp] theorem takeGuard_pollcnt : (takeGuard s).pollcnt = s.pollcnt := rfl
@[simp] theorem takeGuard_host : (takeGuard s).host = s.host := rfl
@[simp] theorem takeGuard_done : (takeGuard s).done = s.done := rfl
@[simp] theorem takeGuard_rdata : (takeGuard s).rdata = s.rdata := rfl
@[simp] theorem takeGuard_env : (takeGuard s).env = s.env.observe s.dir s.lvl .lock := rfl
@[simp] theorem takeGuard_trace : (takeGuard s).trace = .lock :: s.trace := rfl
@[simp] theorem takeGuard_epoch : (takeGuard s).epoch = s.epoch := rfl

-- unlock
@[simp] theorem unlock_devaddr : (unlock s).devaddr = s.devaddr := rfl
@[simp] theorem unlock_dir : (unlock s).dir = s.dir := rfl
@[simp] theorem unlock_lvl : (unlock s).lvl = s.lvl := rfl
@[simp] theorem unlock_guard : (unlock s).guard = false := rfl
@[simp] theorem unlock_timing : (unlock s).timing = s.timing := rfl
@[simp] theorem unlock_params : (unlock s).params = s.params := rfl
@[simp] theorem unlock_shreg : (unlock s).shreg = s.shreg := rfl
@[simp] theorem unlock_sa : (unlock s).sa = s.sa := rfl
@[simp] theorem unlock_sb : (unlock s).sb = s.sb := rfl
@[simp] theorem unlock_sakf : (unlock s).sakf = s.sakf := rfl
@[simp] theorem unlock_addr : (unlock s).addr = s.addr := rfl
@[simp] theorem unlock_len : (unlock s).len = s.len := rfl
@[simp] theorem unlock_wbuf : (unlock s).wbuf = s.wbuf := rfl
@[simp] theorem unlock_rbuf : (unlock s).rbuf = s.rbuf := rfl
@[simp] theorem unlock_seq : (unlock s).seq = s.seq := rfl
@[simp] theorem unlock_result : (unlock s).result = s.result := rfl
@[simp] theorem unlock_pollcnt : (unlock s).pollcnt = s.pollcnt := rfl
@[simp] theorem unlock_host : (unlock s).host = s.host := rfl
@[simp] theorem unlock_done : (unlock s).done = s.done := rfl
@[simp] theorem unlock_rdata : (unlock s).rdata = s.rdata := rfl
@[simp] theorem unlock_env : (unlock s).env = s.env.observe s.dir s.lvl .unlock := rfl
@[simp] theorem unlock_trace : (unlock s).trace = .unlock :: s.trace := rfl
@[simp] theorem unlock_epoch : (unlock s).epoch = s.epoch := rfl

-- begin
@[simp] theorem begin_devaddr : (begin s).devaddr = s.devaddr := rfl
@[simp] theorem begin_dir : (begin s).dir = s.dir := rfl
@[simp] theorem begin_lvl : (begin s).lvl = s.lvl := rfl
@[simp] theorem begin_guard : (begin s).guard = s.guard := rfl
@[simp] theorem begin_timing : (begin s).timing = s.timing := rfl
@[simp] theorem begin_params : (begin s).params = s.params := rfl
@[simp] theorem begin_shreg : (begin s).shreg = (Config.scratch s.epoch).shreg := rfl
@[simp] theorem begin_sa : (begin s).sa = (Config.scratch s.epoch).sa := rfl
@[simp] theorem begin_sb : (begin s).sb = (Config.scratch s.epoch).sb := rfl
@[simp] theorem begin_sakf : (begin s).sakf = (Config.scratch s.epoch).sakf := rfl
@[simp] theorem begin_addr : (begin s).addr = (Config.scratch s.epoch).addr := rfl
@[simp] theorem begin_len : (begin s).len = (Config.scratch s.epoch).len := rfl
@[simp] theorem begin_wbuf : (begin s).wbuf = (Config.scratch s.epoch).wbuf := rfl
@[simp] theorem begin_rbuf : (begin s).rbuf = (Config.scratch s.epoch).rbuf := rfl
@[simp] theorem begin_seq : (begin s).seq = s.seq := rfl
@[simp] theorem begin_result : (begin s).result = (Config.scratch s.epoch).result := rfl
@[simp] theorem begin_pollcnt : (begin s).pollcnt = (Config.scratch s.epoch).pollcnt := rfl
@[simp] theorem begin_host : (begin s).host = s.host := rfl
@[simp] theorem begin_done : (begin s).done = false := rfl
@[simp] theorem begin_rdata : (begin s).rdata = none := rfl
@[simp] theorem begin_env : (begin s).env = s.env := rfl
@[simp] theorem begin_trace : (begin s).trace = s.trace := rfl
@[simp] theorem begin_epoch : (begin s).epoch = s.epoch + 1 := rfl

-- ret
@[simp] theorem ret_devaddr (r : Result) : (ret r s).devaddr = s.devaddr := rfl
@[simp] theorem ret_dir (r : Result) : (ret r s).dir = s.dir := rfl
@[simp] theorem ret_lvl (r : Result) : (ret r s).lvl = s.lvl := rfl
@[simp] theorem ret_guard (r : Result) : (ret r s).guard = s.guard := rfl
@[simp] theorem ret_timing (r : Result) : (ret r s).timing = s.timing := rfl
@[simp] theorem ret_params (r : Result) : (ret r s).params = s.params := rfl
@[simp] theorem ret_shreg (r : Result) : (ret r s).shreg = s.shreg := rfl
@[simp] theorem ret_sa (r : Result) : (ret r s).sa = s.sa := rfl
@[simp] theorem ret_sb (r : Result) : (ret r s).sb = s.sb := rfl
@[simp] theorem ret_sakf (r : Result) : (ret r s).sakf = s.sakf := rfl
@[simp] theorem ret_addr (r : Result) : (ret r s).addr = s.addr := rfl
@[simp] theorem ret_len (r : Result) : (ret r s).len = s.len := rfl
@[simp] theorem ret_wbuf (r : Result) : (ret r s).wbuf = s.wbuf := rfl
@[simp] theorem ret_rbuf (r : Result) : (ret r s).rbuf = if r = .nosak then (Config.scratch s.epoch).rbuf else s.rbuf := rfl
@[simp] theorem ret_seq (r : Result) : (ret r s).seq = [] := rfl
@[simp] theorem ret_result (r : Result) : (ret r s).result = r := rfl
@[simp] theorem ret_pollcnt (r : Result) : (ret r s).pollcnt = s.pollcnt := rfl
@[simp] theorem ret_host (r : Result) : (ret r s).host = s.host := rfl
@[simp] theorem ret_done (r : Result) : (ret r s).done = true := rfl
@[simp] theorem ret_rdata (r : Result) : (ret r s).rdata = none := rfl
@[simp] theorem ret_env (r : Result) : (ret r s).env = s.env := rfl
@[simp] theorem ret_trace (r : Result) : (ret r s).trace = s.trace := rfl
@[simp] theorem ret_epoch (r : Result) : (ret r s).epoch = if r = .nosak then s.epoch + 1 else s.epoch := rfl

-- retData
@[simp] theorem retData_devaddr : (retData s).devaddr = s.devaddr := rfl
@[simp] theorem retData_dir : (retData s).dir = s.dir := rfl
@[simp] theorem retData_lvl : (retData s).lvl = s.lvl := rfl
@[simp] theorem retData_guard : (retData s).guard = s.guard := rfl
@[simp] theorem retData_timing : (retData s).timing = s.timing := rfl
@[simp] theorem retData_params : (retData s).params = s.params := rfl
@[simp] theorem retData_shreg : (retData s).shreg = s.shreg := rfl
@[simp] theorem retData_sa : (retData s).sa = s.sa := rfl
@[simp] theorem retData_sb : (retData s).sb = s.sb := rfl
@[simp] theorem retData_sakf : (retData s).sakf = s.sakf := rfl
@[simp] theorem retData_addr : (retData s).addr = s.addr := rfl
@[simp] theorem retData_len : (retData s).len = s.len := rfl
@[simp] theorem retData_wbuf : (retData s).wbuf = s.wbuf := rfl
@[simp] theorem retData_rbuf : (retData s).rbuf = s.rbuf := rfl
@[simp] theorem retData_seq : (retData s).seq = [] := rfl
@[simp] theorem retData_result : (retData s).result = .ok := rfl
@[simp] theorem retData_pollcnt : (retData s).pollcnt = s.pollcnt := rfl
@[simp] theorem retData_host : (retData s).host = s.host := rfl
@[simp] theorem retData_done : (retData s).done = true := rfl
@[simp] theorem retData_rdata : (retData s).rdata = some s.rbuf := rfl
@[simp] theorem retData_env : (retData s).env = s.env := rfl
@[simp] theorem retData_trace : (retData s).trace = s.trace := rfl
@[simp] theorem retData_epoch : (retData s).epoch = s.epoch := rfl

-- loadWbuf
@[simp] theorem loadWbuf_devaddr (bytes : List Byte) : (loadWbuf bytes s).devaddr = s.devaddr := rfl
@[simp] theorem loadWbuf_dir (bytes : List Byte) : (loadWbuf bytes s).dir = s.dir := rfl
@[simp] theorem loadWbuf_lvl (bytes : List Byte) : (loadWbuf bytes s).lvl = s.lvl := rfl
@[simp] theorem loadWbuf_guard (bytes : List Byte) : (loadWbuf bytes s).guard = s.guard := rfl
@[simp] theorem loadWbuf_timing (bytes : List Byte) : (loadWbuf bytes s).timing = s.timing := rfl
@[simp] theorem loadWbuf_params (bytes : List Byte) : (loadWbuf bytes s).params = s.params := rfl
@[simp] theorem loadWbuf_shreg (bytes : List Byte) : (loadWbuf bytes s).shreg = s.shreg := rfl
@[simp] theorem loadWbuf_sa (bytes : List Byte) : (loadWbuf bytes s).sa = s.sa := rfl
@[simp] theorem loadWbuf_sb (bytes : List Byte) : (loadWbuf bytes s).sb = s.sb := rfl
@[simp] theorem loadWbuf_sakf (bytes : List Byte) : (loadWbuf bytes s).sakf = s.sakf := rfl
@[simp] theorem loadWbuf_addr (bytes : List Byte) : (loadWbuf bytes s).addr = s.addr := rfl
@[simp] theorem loadWbuf_len (bytes : List Byte) : (loadWbuf bytes s).len = s.len := rfl
@[simp] theorem loadWbuf_wbuf (bytes : List Byte) : (loadWbuf bytes s).wbuf = bytes := rfl
@[simp] theorem loadWbuf_rbuf (bytes : List Byte) : (loadWbuf bytes s).rbuf = s.rbuf := rfl
@[simp] theorem loadWbuf_seq (bytes : List Byte) : (loadWbuf bytes s).seq = s.seq := rfl
@[simp] theorem loadWbuf_result (bytes : List Byte) : (loadWbuf bytes s).result = s.result := rfl
@[simp] theorem loadWbuf_pollcnt (bytes : List Byte) : (loadWbuf bytes s).pollcnt = s.pollcnt := rfl
@[simp] theorem loadWbuf_host (bytes : List Byte) : (loadWbuf bytes s).host = s.host := rfl
@[simp] theorem loadWbuf_done (bytes : List Byte) : (loadWbuf bytes s).done = s.done := rfl
@[simp] theorem loadWbuf_rdata (bytes : List Byte) : (loadWbuf bytes s).rdata = s.rdata := rfl
@[simp] theorem loadWbuf_env (bytes : List Byte) : (loadWbuf bytes s).env = s.env := rfl
@[simp] theorem loadWbuf_trace (bytes : List Byte) : (loadWbuf bytes s).trace = s.trace := rfl
@[simp] theorem loadWbuf_epoch (bytes : List Byte) : (loadWbuf bytes s).epoch = s.epoch := rfl

-- loadAddr
@[simp] theorem loadAddr_devaddr (a : Addr) (n : Nat) : (loadAddr a n s).devaddr = s.devaddr := rfl
@[simp] theorem loadAddr_dir (a : Addr) (n : Nat) : (loadAddr a n s).dir = s.dir := rfl
@[simp] theorem loadAddr_lvl (a : Addr) (n : Nat) : (loadAddr a n s).lvl = s.lvl := rfl
@[simp] theorem loadAddr_guard (a : Addr) (n : Nat) : (loadAddr a n s).guard = s.guard := rfl
@[simp] theorem loadAddr_timing (a : Addr) (n : Nat) : (loadAddr a n s).timing = s.timing := rfl
@[simp] theorem loadAddr_params (a : Addr) (n : Nat) : (loadAddr a n s).params = s.params := rfl
@[simp] theorem loadAddr_shreg (a : Addr) (n : Nat) : (loadAddr a n s).shreg = s.shreg := rfl
@[simp] theorem loadAddr_sa (a : Addr) (n : Nat) : (loadAddr a n s).sa = s.sa := rfl
@[simp] theorem loadAddr_sb (a : Addr) (n : Nat) : (loadAddr a n s).sb = s.sb := rfl
@[simp] theorem loadAddr_sakf (a : Addr) (n : Nat) : (loadAddr a n s).sakf = s.sakf := rfl
@[simp] theorem loadAddr_addr (a : Addr) (n : Nat) : (loadAddr a n s).addr = a := rfl
@[simp] theorem loadAddr_len (a : Addr) (n : Nat) : (loadAddr a n s).len = n := rfl
@[simp] theorem loadAddr_wbuf (a : Addr) (n : Nat) : (loadAddr a n s).wbuf = s.wbuf := rfl
@[simp] theorem loadAddr_rbuf (a : Addr) (n : Nat) : (loadAddr a n s).rbuf = s.rbuf := rfl
@[simp] theorem loadAddr_seq (a : Addr) (n : Nat) : (loadAddr a n s).seq = s.seq := rfl
@[simp] theorem loadAddr_result (a : Addr) (n : Nat) : (loadAddr a n s).result = s.result := rfl
@[simp] theorem loadAddr_pollcnt (a : Addr) (n : Nat) : (loadAddr a n s).pollcnt = s.pollcnt := rfl
@[simp] theorem loadAddr_host (a : Addr) (n : Nat) : (loadAddr a n s).host = s.host := rfl
@[simp] theorem loadAddr_done (a : Addr) (n : Nat) : (loadAddr a n s).done = s.done := rfl
@[simp] theorem loadAddr_rdata (a : Addr) (n : Nat) : (loadAddr a n s).rdata = s.rdata := rfl
@[simp] theorem loadAddr_env (a : Addr) (n : Nat) : (loadAddr a n s).env = s.env := rfl
@[simp] theorem loadAddr_trace (a : Addr) (n : Nat) : (loadAddr a n s).trace = s.trace := rfl
@[simp] theorem loadAddr_epoch (a : Addr) (n : Nat) : (loadAddr a n s).epoch = s.epoch := rfl

-- losePage
@[simp] theorem losePage_devaddr (a : Addr) : (losePage a s).devaddr = s.devaddr := rfl
@[simp] theorem losePage_dir (a : Addr) : (losePage a s).dir = s.dir := rfl
@[simp] theorem losePage_lvl (a : Addr) : (losePage a s).lvl = s.lvl := rfl
@[simp] theorem losePage_guard (a : Addr) : (losePage a s).guard = s.guard := rfl
@[simp] theorem losePage_timing (a : Addr) : (losePage a s).timing = s.timing := rfl
@[simp] theorem losePage_params (a : Addr) : (losePage a s).params = s.params := rfl
@[simp] theorem losePage_shreg (a : Addr) : (losePage a s).shreg = s.shreg := rfl
@[simp] theorem losePage_sa (a : Addr) : (losePage a s).sa = s.sa := rfl
@[simp] theorem losePage_sb (a : Addr) : (losePage a s).sb = s.sb := rfl
@[simp] theorem losePage_sakf (a : Addr) : (losePage a s).sakf = s.sakf := rfl
@[simp] theorem losePage_addr (a : Addr) : (losePage a s).addr = s.addr := rfl
@[simp] theorem losePage_len (a : Addr) : (losePage a s).len = s.len := rfl
@[simp] theorem losePage_wbuf (a : Addr) : (losePage a s).wbuf = s.wbuf := rfl
@[simp] theorem losePage_rbuf (a : Addr) : (losePage a s).rbuf = s.rbuf := rfl
@[simp] theorem losePage_seq (a : Addr) : (losePage a s).seq = s.seq := rfl
@[simp] theorem losePage_result (a : Addr) : (losePage a s).result = s.result := rfl
@[simp] theorem losePage_pollcnt (a : Addr) : (losePage a s).pollcnt = s.pollcnt := rfl
@[simp] theorem losePage_host (a : Addr) : (losePage a s).host = s.host := rfl
@[simp] theorem losePage_done (a : Addr) : (losePage a s).done = s.done := rfl
@[simp] theorem losePage_rdata (a : Addr) : (losePage a s).rdata = s.rdata := rfl
@[simp] theorem losePage_env (a : Addr) : (losePage a s).env = { s.env with slave := { s.env.slave with mem := Memory.writeMany s.env.slave.mem (pageStart a) (lostPage s.epoch (pageStart a)) } } := rfl
@[simp] theorem losePage_trace (a : Addr) : (losePage a s).trace = s.trace := rfl
@[simp] theorem losePage_epoch (a : Addr) : (losePage a s).epoch = s.epoch := rfl

-- latchSak
@[simp] theorem latchSak_devaddr : (latchSak s).devaddr = s.devaddr := rfl
@[simp] theorem latchSak_dir : (latchSak s).dir = s.dir := rfl
@[simp] theorem latchSak_lvl : (latchSak s).lvl = s.lvl := rfl
@[simp] theorem latchSak_guard : (latchSak s).guard = s.guard := rfl
@[simp] theorem latchSak_timing : (latchSak s).timing = s.timing := rfl
@[simp] theorem latchSak_params : (latchSak s).params = s.params := rfl
@[simp] theorem latchSak_shreg : (latchSak s).shreg = s.shreg := rfl
@[simp] theorem latchSak_sa : (latchSak s).sa = s.sa := rfl
@[simp] theorem latchSak_sb : (latchSak s).sb = s.sb := rfl
@[simp] theorem latchSak_sakf : (latchSak s).sakf = slotValue s := rfl
@[simp] theorem latchSak_addr : (latchSak s).addr = s.addr := rfl
@[simp] theorem latchSak_len : (latchSak s).len = s.len := rfl
@[simp] theorem latchSak_wbuf : (latchSak s).wbuf = s.wbuf := rfl
@[simp] theorem latchSak_rbuf : (latchSak s).rbuf = s.rbuf := rfl
@[simp] theorem latchSak_seq : (latchSak s).seq = s.seq := rfl
@[simp] theorem latchSak_result : (latchSak s).result = s.result := rfl
@[simp] theorem latchSak_pollcnt : (latchSak s).pollcnt = s.pollcnt := rfl
@[simp] theorem latchSak_host : (latchSak s).host = s.host := rfl
@[simp] theorem latchSak_done : (latchSak s).done = s.done := rfl
@[simp] theorem latchSak_rdata : (latchSak s).rdata = s.rdata := rfl
@[simp] theorem latchSak_env : (latchSak s).env = s.env := rfl
@[simp] theorem latchSak_trace : (latchSak s).trace = s.trace := rfl
@[simp] theorem latchSak_epoch : (latchSak s).epoch = s.epoch := rfl

-- loadShreg
@[simp] theorem loadShreg_devaddr (v : Byte) : (loadShreg v s).devaddr = s.devaddr := rfl
@[simp] theorem loadShreg_dir (v : Byte) : (loadShreg v s).dir = s.dir := rfl
@[simp] theorem loadShreg_lvl (v : Byte) : (loadShreg v s).lvl = s.lvl := rfl
@[simp] theorem loadShreg_guard (v : Byte) : (loadShreg v s).guard = s.guard := rfl
@[simp] theorem loadShreg_timing (v : Byte) : (loadShreg v s).timing = s.timing := rfl
@[simp] theorem loadShreg_params (v : Byte) : (loadShreg v s).params = s.params := rfl
@[simp] theorem loadShreg_shreg (v : Byte) : (loadShreg v s).shreg = v := rfl
@[simp] theorem loadShreg_sa (v : Byte) : (loadShreg v s).sa = s.sa := rfl
@[simp] theorem loadShreg_sb (v : Byte) : (loadShreg v s).sb = s.sb := rfl
@[simp] theorem loadShreg_sakf (v : Byte) : (loadShreg v s).sakf = s.sakf := rfl
@[simp] theorem loadShreg_addr (v : Byte) : (loadShreg v s).addr = s.addr := rfl
@[simp] theorem loadShreg_len (v : Byte) : (loadShreg v s).len = s.len := rfl
@[simp] theorem loadShreg_wbuf (v : Byte) : (loadShreg v s).wbuf = s.wbuf := rfl
@[simp] theorem loadShreg_rbuf (v : Byte) : (loadShreg v s).rbuf = s.rbuf := rfl
@[simp] theorem loadShreg_seq (v : Byte) : (loadShreg v s).seq = s.seq := rfl
@[simp] theorem loadShreg_result (v : Byte) : (loadShreg v s).result = s.result := rfl
@[simp] theorem loadShreg_pollcnt (v : Byte) : (loadShreg v s).pollcnt = s.pollcnt := rfl
@[simp] theorem loadShreg_host (v : Byte) : (loadShreg v s).host = s.host := rfl
@[simp] theorem loadShreg_done (v : Byte) : (loadShreg v s).done = s.done := rfl
@[simp] theorem loadShreg_rdata (v : Byte) : (loadShreg v s).rdata = s.rdata := rfl
@[simp] theorem loadShreg_env (v : Byte) : (loadShreg v s).env = s.env := rfl
@[simp] theorem loadShreg_trace (v : Byte) : (loadShreg v s).trace = s.trace := rfl
@[simp] theorem loadShreg_epoch (v : Byte) : (loadShreg v s).epoch = s.epoch := rfl

-- shiftOut
@[simp] theorem shiftOut_devaddr : (shiftOut s).devaddr = s.devaddr := rfl
@[simp] theorem shiftOut_dir : (shiftOut s).dir = s.dir := rfl
@[simp] theorem shiftOut_lvl : (shiftOut s).lvl = s.lvl := rfl
@[simp] theorem shiftOut_guard : (shiftOut s).guard = s.guard := rfl
@[simp] theorem shiftOut_timing : (shiftOut s).timing = s.timing := rfl
@[simp] theorem shiftOut_params : (shiftOut s).params = s.params := rfl
@[simp] theorem shiftOut_shreg : (shiftOut s).shreg = shiftLeftIn s.shreg false := rfl
@[simp] theorem shiftOut_sa : (shiftOut s).sa = s.sa := rfl
@[simp] theorem shiftOut_sb : (shiftOut s).sb = s.sb := rfl
@[simp] theorem shiftOut_sakf : (shiftOut s).sakf = s.sakf := rfl
@[simp] theorem shiftOut_addr : (shiftOut s).addr = s.addr := rfl
@[simp] theorem shiftOut_len : (shiftOut s).len = s.len := rfl
@[simp] theorem shiftOut_wbuf : (shiftOut s).wbuf = s.wbuf := rfl
@[simp] theorem shiftOut_rbuf : (shiftOut s).rbuf = s.rbuf := rfl
@[simp] theorem shiftOut_seq : (shiftOut s).seq = s.seq := rfl
@[simp] theorem shiftOut_result : (shiftOut s).result = s.result := rfl
@[simp] theorem shiftOut_pollcnt : (shiftOut s).pollcnt = s.pollcnt := rfl
@[simp] theorem shiftOut_host : (shiftOut s).host = s.host := rfl
@[simp] theorem shiftOut_done : (shiftOut s).done = s.done := rfl
@[simp] theorem shiftOut_rdata : (shiftOut s).rdata = s.rdata := rfl
@[simp] theorem shiftOut_env : (shiftOut s).env = s.env := rfl
@[simp] theorem shiftOut_trace : (shiftOut s).trace = s.trace := rfl
@[simp] theorem shiftOut_epoch : (shiftOut s).epoch = s.epoch := rfl

-- shiftIn
@[simp] theorem shiftIn_devaddr : (shiftIn s).devaddr = s.devaddr := rfl
@[simp] theorem shiftIn_dir : (shiftIn s).dir = s.dir := rfl
@[simp] theorem shiftIn_lvl : (shiftIn s).lvl = s.lvl := rfl
@[simp] theorem shiftIn_guard : (shiftIn s).guard = s.guard := rfl
@[simp] theorem shiftIn_timing : (shiftIn s).timing = s.timing := rfl
@[simp] theorem shiftIn_params : (shiftIn s).params = s.params := rfl
@[simp] theorem shiftIn_shreg : (shiftIn s).shreg = shiftLeftIn s.shreg (slotValue s) := rfl
@[simp] theorem shiftIn_sa : (shiftIn s).sa = s.sa := rfl
@[simp] theorem shiftIn_sb : (shiftIn s).sb = s.sb := rfl
@[simp] theorem shiftIn_sakf : (shiftIn s).sakf = s.sakf := rfl
@[simp] theorem shiftIn_addr : (shiftIn s).addr = s.addr := rfl
@[simp] theorem shiftIn_len : (shiftIn s).len = s.len := rfl
@[simp] theorem shiftIn_wbuf : (shiftIn s).wbuf = s.wbuf := rfl
@[simp] theorem shiftIn_rbuf : (shiftIn s).rbuf = s.rbuf := rfl
@[simp] theorem shiftIn_seq : (shiftIn s).seq = s.seq := rfl
@[simp] theorem shiftIn_result : (shiftIn s).result = s.result := rfl
@[simp] theorem shiftIn_pollcnt : (shiftIn s).pollcnt = s.pollcnt := rfl
@[simp] theorem shiftIn_host : (shiftIn s).host = s.host := rfl
@[simp] theorem shiftIn_done : (shiftIn s).done = s.done := rfl
@[simp] theorem shiftIn_rdata : (shiftIn s).rdata = s.rdata := rfl
@[simp] theorem shiftIn_env : (shiftIn s).env = s.env := rfl
@[simp] theorem shiftIn_trace : (shiftIn s).trace = s.trace := rfl
@[simp] theorem shiftIn_epoch : (shiftIn s).epoch = s.epoch := rfl

-- storeByte
@[simp] theorem storeByte_devaddr : (storeByte s).devaddr = s.devaddr := rfl
@[simp] theorem storeByte_dir : (storeByte s).dir = s.dir := rfl
@[simp] theorem storeByte_lvl : (storeByte s).lvl = s.lvl := rfl
@[simp] theorem storeByte_guard : (storeByte s).guard = s.guard := rfl
@[simp] theorem storeByte_timing : (storeByte s).timing = s.timing := rfl
@[simp] theorem storeByte_params : (storeByte s).params = s.params := rfl
@[simp] theorem storeByte_shreg : (storeByte s).shreg = s.shreg := rfl
@[simp] theorem storeByte_sa : (storeByte s).sa = s.sa := rfl
@[simp] theorem storeByte_sb : (storeByte s).sb = s.sb := rfl
@[simp] theorem storeByte_sakf : (storeByte s).sakf = s.sakf := rfl
@[simp] theorem storeByte_addr : (storeByte s).addr = s.addr := rfl
@[simp] theorem storeByte_len : (storeByte s).len = s.len := rfl
@[simp] theorem storeByte_wbuf : (storeByte s).wbuf = s.wbuf := rfl
@[simp] theorem storeByte_rbuf : (storeByte s).rbuf = s.rbuf ++ [s.shreg] := rfl
@[simp] theorem storeByte_seq : (storeByte s).seq = s.seq := rfl
@[simp] theorem storeByte_result : (storeByte s).result = s.result := rfl
@[simp] theorem storeByte_pollcnt : (storeByte s).pollcnt = s.pollcnt := rfl
@[simp] theorem storeByte_host : (storeByte s).host = s.host := rfl
@[simp] theorem storeByte_done : (storeByte s).done = s.done := rfl
@[simp] theorem storeByte_rdata : (storeByte s).rdata = s.rdata := rfl
@[simp] theorem storeByte_env : (storeByte s).env = s.env := rfl
@[simp] theorem storeByte_trace : (storeByte s).trace = s.trace := rfl
@[simp] theorem storeByte_epoch : (storeByte s).epoch = s.epoch := rfl

-- clearRbuf
@[simp] theorem clearRbuf_devaddr : (clearRbuf s).devaddr = s.devaddr := rfl
@[simp] theorem clearRbuf_dir : (clearRbuf s).dir = s.dir := rfl
@[simp] theorem clearRbuf_lvl : (clearRbuf s).lvl = s.lvl := rfl
@[simp] theorem clearRbuf_guard : (clearRbuf s).guard = s.guard := rfl
@[simp] theorem clearRbuf_timing : (clearRbuf s).timing = s.timing := rfl
@[simp] theorem clearRbuf_params : (clearRbuf s).params = s.params := rfl
@[simp] theorem clearRbuf_shreg : (clearRbuf s).shreg = s.shreg := rfl
@[simp] theorem clearRbuf_sa : (clearRbuf s).sa = s.sa := rfl
@[simp] theorem clearRbuf_sb : (clearRbuf s).sb = s.sb := rfl
@[simp] theorem clearRbuf_sakf : (clearRbuf s).sakf = s.sakf := rfl
@[simp] theorem clearRbuf_addr : (clearRbuf s).addr = s.addr := rfl
@[simp] theorem clearRbuf_len : (clearRbuf s).len = s.len := rfl
@[simp] theorem clearRbuf_wbuf : (clearRbuf s).wbuf = s.wbuf := rfl
@[simp] theorem clearRbuf_rbuf : (clearRbuf s).rbuf = [] := rfl
@[simp] theorem clearRbuf_seq : (clearRbuf s).seq = s.seq := rfl
@[simp] theorem clearRbuf_result : (clearRbuf s).result = s.result := rfl
@[simp] theorem clearRbuf_pollcnt : (clearRbuf s).pollcnt = s.pollcnt := rfl
@[simp] theorem clearRbuf_host : (clearRbuf s).host = s.host := rfl
@[simp] theorem clearRbuf_done : (clearRbuf s).done = s.done := rfl
@[simp] theorem clearRbuf_rdata : (clearRbuf s).rdata = s.rdata := rfl
@[simp] theorem clearRbuf_env : (clearRbuf s).env = s.env := rfl
@[simp] theorem clearRbuf_trace : (clearRbuf s).trace = s.trace := rfl
@[simp] theorem clearRbuf_epoch : (clearRbuf s).epoch = s.epoch := rfl

-- pollStart
@[simp] theorem pollStart_devaddr : (pollStart s).devaddr = s.devaddr := rfl
@[simp] theorem pollStart_dir : (pollStart s).dir = s.dir := rfl
@[simp] theorem pollStart_lvl : (pollStart s).lvl = s.lvl := rfl
@[simp] theorem pollStart_guard : (pollStart s).guard = s.guard := rfl
@[simp] theorem pollStart_timing : (pollStart s).timing = s.timing := rfl
@[simp] theorem pollStart_params : (pollStart s).params = s.params := rfl
@[simp] theorem pollStart_shreg : (pollStart s).shreg = s.shreg := rfl
@[simp] theorem pollStart_sa : (pollStart s).sa = s.sa := rfl
@[simp] theorem pollStart_sb : (pollStart s).sb = s.sb := rfl
@[simp] theorem pollStart_sakf : (pollStart s).sakf = s.sakf := rfl
@[simp] theorem pollStart_addr : (pollStart s).addr = s.addr := rfl
@[simp] theorem pollStart_len : (pollStart s).len = s.len := rfl
@[simp] theorem pollStart_wbuf : (pollStart s).wbuf = s.wbuf := rfl
@[simp] theorem pollStart_rbuf : (pollStart s).rbuf = s.rbuf := rfl
@[simp] theorem pollStart_seq : (pollStart s).seq = s.seq := rfl
@[simp] theorem pollStart_result : (pollStart s).result = s.result := rfl
@[simp] theorem pollStart_pollcnt : (pollStart s).pollcnt = 0 := rfl
@[simp] theorem pollStart_host : (pollStart s).host = s.host := rfl
@[simp] theorem pollStart_done : (pollStart s).done = s.done := rfl
@[simp] theorem pollStart_rdata : (pollStart s).rdata = s.rdata := rfl
@[simp] theorem pollStart_env : (pollStart s).env = s.env := rfl
@[simp] theorem pollStart_trace : (pollStart s).trace = s.trace := rfl
@[simp] theorem pollStart_epoch : (pollStart s).epoch = s.epoch := rfl

-- countPoll
@[simp] theorem countPoll_devaddr : (countPoll s).devaddr = s.devaddr := rfl
@[simp] theorem countPoll_dir : (countPoll s).dir = s.dir := rfl
@[simp] theorem countPoll_lvl : (countPoll s).lvl = s.lvl := rfl
@[simp] theorem countPoll_guard : (countPoll s).guard = s.guard := rfl
@[simp] theorem countPoll_timing : (countPoll s).timing = s.timing := rfl
@[simp] theorem countPoll_params : (countPoll s).params = s.params := rfl
@[simp] theorem countPoll_shreg : (countPoll s).shreg = s.shreg := rfl
@[simp] theorem countPoll_sa : (countPoll s).sa = s.sa := rfl
@[simp] theorem countPoll_sb : (countPoll s).sb = s.sb := rfl
@[simp] theorem countPoll_sakf : (countPoll s).sakf = s.sakf := rfl
@[simp] theorem countPoll_addr : (countPoll s).addr = s.addr := rfl
@[simp] theorem countPoll_len : (countPoll s).len = s.len := rfl
@[simp] theorem countPoll_wbuf : (countPoll s).wbuf = s.wbuf := rfl
@[simp] theorem countPoll_rbuf : (countPoll s).rbuf = s.rbuf := rfl
@[simp] theorem countPoll_seq : (countPoll s).seq = s.seq := rfl
@[simp] theorem countPoll_result : (countPoll s).result = s.result := rfl
@[simp] theorem countPoll_pollcnt : (countPoll s).pollcnt = s.pollcnt + 1 := rfl
@[simp] theorem countPoll_host : (countPoll s).host = s.host := rfl
@[simp] theorem countPoll_done : (countPoll s).done = s.done := rfl
@[simp] theorem countPoll_rdata : (countPoll s).rdata = s.rdata := rfl
@[simp] theorem countPoll_env : (countPoll s).env = s.env := rfl
@[simp] theorem countPoll_trace : (countPoll s).trace = s.trace := rfl
@[simp] theorem countPoll_epoch : (countPoll s).epoch = s.epoch := rfl

-- setSeq
@[simp] theorem setSeq_devaddr (todo : List Op) : (setSeq todo s).devaddr = s.devaddr := rfl
@[simp] theorem setSeq_dir (todo : List Op) : (setSeq todo s).dir = s.dir := rfl
@[simp] theorem setSeq_lvl (todo : List Op) : (setSeq todo s).lvl = s.lvl := rfl
@[simp] theorem setSeq_guard (todo : List Op) : (setSeq todo s).guard = s.guard := rfl
@[simp] theorem setSeq_timing (todo : List Op) : (setSeq todo s).timing = s.timing := rfl
@[simp] theorem setSeq_params (todo : List Op) : (setSeq todo s).params = s.params := rfl
@[simp] theorem setSeq_shreg (todo : List Op) : (setSeq todo s).shreg = s.shreg := rfl
@[simp] theorem setSeq_sa (todo : List Op) : (setSeq todo s).sa = s.sa := rfl
@[simp] theorem setSeq_sb (todo : List Op) : (setSeq todo s).sb = s.sb := rfl
@[simp] theorem setSeq_sakf (todo : List Op) : (setSeq todo s).sakf = s.sakf := rfl
@[simp] theorem setSeq_addr (todo : List Op) : (setSeq todo s).addr = s.addr := rfl
@[simp] theorem setSeq_len (todo : List Op) : (setSeq todo s).len = s.len := rfl
@[simp] theorem setSeq_wbuf (todo : List Op) : (setSeq todo s).wbuf = s.wbuf := rfl
@[simp] theorem setSeq_rbuf (todo : List Op) : (setSeq todo s).rbuf = s.rbuf := rfl
@[simp] theorem setSeq_seq (todo : List Op) : (setSeq todo s).seq = todo := rfl
@[simp] theorem setSeq_result (todo : List Op) : (setSeq todo s).result = s.result := rfl
@[simp] theorem setSeq_pollcnt (todo : List Op) : (setSeq todo s).pollcnt = s.pollcnt := rfl
@[simp] theorem setSeq_host (todo : List Op) : (setSeq todo s).host = s.host := rfl
@[simp] theorem setSeq_done (todo : List Op) : (setSeq todo s).done = s.done := rfl
@[simp] theorem setSeq_rdata (todo : List Op) : (setSeq todo s).rdata = s.rdata := rfl
@[simp] theorem setSeq_env (todo : List Op) : (setSeq todo s).env = s.env := rfl
@[simp] theorem setSeq_trace (todo : List Op) : (setSeq todo s).trace = s.trace := rfl
@[simp] theorem setSeq_epoch (todo : List Op) : (setSeq todo s).epoch = s.epoch := rfl

-- withRequest
@[simp] theorem withRequest_devaddr (r : Request) : (withRequest r s).devaddr = s.devaddr := rfl
@[simp] theorem withRequest_dir (r : Request) : (withRequest r s).dir = s.dir := rfl
@[simp] theorem withRequest_lvl (r : Request) : (withRequest r s).lvl = s.lvl := rfl
@[simp] theorem withRequest_guard (r : Request) : (withRequest r s).guard = s.guard := rfl
@[simp] theorem withRequest_timing (r : Request) : (withRequest r s).timing = s.timing := rfl
@[simp] theorem withRequest_params (r : Request) : (withRequest r s).params = s.params := rfl
@[simp] theorem withRequest_shreg (r : Request) : (withRequest r s).shreg = s.shreg := rfl
@[simp] theorem withRequest_sa (r : Request) : (withRequest r s).sa = s.sa := rfl
@[simp] theorem withRequest_sb (r : Request) : (withRequest r s).sb = s.sb := rfl
@[simp] theorem withRequest_sakf (r : Request) : (withRequest r s).sakf = s.sakf := rfl
@[simp] theorem withRequest_addr (r : Request) : (withRequest r s).addr = s.addr := rfl
@[simp] theorem withRequest_len (r : Request) : (withRequest r s).len = s.len := rfl
@[simp] theorem withRequest_wbuf (r : Request) : (withRequest r s).wbuf = s.wbuf := rfl
@[simp] theorem withRequest_rbuf (r : Request) : (withRequest r s).rbuf = s.rbuf := rfl
@[simp] theorem withRequest_seq (r : Request) : (withRequest r s).seq = [] := rfl
@[simp] theorem withRequest_result (r : Request) : (withRequest r s).result = s.result := rfl
@[simp] theorem withRequest_pollcnt (r : Request) : (withRequest r s).pollcnt = s.pollcnt := rfl
@[simp] theorem withRequest_host (r : Request) : (withRequest r s).host = r :: s.host := rfl
@[simp] theorem withRequest_done (r : Request) : (withRequest r s).done = s.done := rfl
@[simp] theorem withRequest_rdata (r : Request) : (withRequest r s).rdata = s.rdata := rfl
@[simp] theorem withRequest_env (r : Request) : (withRequest r s).env = s.env := rfl
@[simp] theorem withRequest_trace (r : Request) : (withRequest r s).trace = s.trace := rfl
@[simp] theorem withRequest_epoch (r : Request) : (withRequest r s).epoch = s.epoch := rfl

end

end Sys2Proof.Machine
end

