-- ==== Sys2Proof/Laws/Memory.lean ====
section
/-! SUPPORT. The laws of the EEPROM array: a read after a write, the canonical form, and that the environment keeps
it whatever event it sees. -/

namespace Sys2Proof.Machine

theorem Memory.wfFrom_mono {lo lo' : Nat} (h : lo' ≤ lo) (m : List Host.Cell) (w : Memory.wfFrom lo m = true) :
    Memory.wfFrom lo' m = true := by
  cases m with
  | nil => rfl
  | cons c rest =>
    obtain ⟨a, v⟩ := c
    simp only [Memory.wfFrom, Bool.and_eq_true, decide_eq_true_eq] at w ⊢
    exact ⟨⟨⟨by omega, w.1.1.2⟩, w.1.2⟩, w.2⟩

theorem Memory.read_below {lo : Nat} (m : List Host.Cell) (a : Nat) (w : Memory.wfFrom lo m = true) (h : a < lo) :
    Memory.read m a = Memory.blank := by
  induction m generalizing lo with
  | nil => rfl
  | cons c rest ih =>
    obtain ⟨b, v⟩ := c
    simp only [Memory.wfFrom, Bool.and_eq_true, decide_eq_true_eq] at w
    have hb : b ≠ a := by omega
    simp only [Memory.read, hb, if_false]
    exact ih w.2 (by omega)

theorem Memory.write_wfFrom {lo : Nat} (m : List Host.Cell) (a : Nat) (v : Byte) (w : Memory.wfFrom lo m = true)
    (hlo : lo ≤ a) (ha : a < Config.addrTop) : Memory.wfFrom lo (Memory.write m a v) = true := by
  induction m generalizing lo with
  | nil => by_cases hv : v = Memory.blank <;> simp [Memory.write, Memory.wfFrom, hv, hlo, ha]
  | cons c rest ih =>
    obtain ⟨b, u⟩ := c
    have w' := w
    simp only [Memory.wfFrom, Bool.and_eq_true, decide_eq_true_eq] at w
    obtain ⟨⟨⟨h1, h2⟩, h3⟩, h4⟩ := w
    simp only [Memory.write]
    split
    · split
      · exact w'
      · rename_i hlt hv
        simp only [Memory.wfFrom, Bool.and_eq_true, decide_eq_true_eq]
        exact ⟨⟨⟨hlo, ha⟩, hv⟩, ⟨⟨by omega, h2⟩, h3⟩, h4⟩
    · split
      · split
        · exact Memory.wfFrom_mono (by omega) rest h4
        · rename_i hab hv
          simp only [Memory.wfFrom, Bool.and_eq_true, decide_eq_true_eq]
          exact ⟨⟨⟨hlo, ha⟩, hv⟩, hab ▸ h4⟩
      · simp only [Memory.wfFrom, Bool.and_eq_true, decide_eq_true_eq]
        exact ⟨⟨⟨h1, h2⟩, h3⟩, ih h4 (by omega)⟩

/-- A write keeps the canonical form. -/
theorem Memory.write_wf (m : List Host.Cell) (a : Nat) (v : Byte) (w : Memory.wf m = true) (ha : a < Config.addrTop) :
    Memory.wf (Memory.write m a v) = true := Memory.write_wfFrom m a v w (Nat.zero_le a) ha

theorem Memory.writeMany_wf (m : List Host.Cell) (a : Nat) (vs : List Byte) (w : Memory.wf m = true)
    (ha : a + vs.length ≤ Config.addrTop) : Memory.wf (Memory.writeMany m a vs) = true := by
  induction vs generalizing m a with
  | nil => exact w
  | cons v rest ih =>
    simp only [List.length_cons] at ha
    exact ih _ _ (Memory.write_wf m a v w (by omega)) (by omega)

/-- A read after a write at the same address. -/
theorem Memory.read_write_same {lo : Nat} (m : List Host.Cell) (a : Nat) (v : Byte) (w : Memory.wfFrom lo m = true) :
    Memory.read (Memory.write m a v) a = v := by
  induction m generalizing lo with
  | nil => by_cases hv : v = Memory.blank <;> simp [Memory.write, Memory.read, hv]
  | cons c rest ih =>
    obtain ⟨b, u⟩ := c
    have w' := w
    simp only [Memory.wfFrom, Bool.and_eq_true, decide_eq_true_eq] at w
    simp only [Memory.write]
    split
    · split
      · rename_i hlt hv
        have hb : b ≠ a := by omega
        simp only [Memory.read, hb, if_false, hv]
        exact Memory.read_below rest a w.2 (by omega)
      · simp [Memory.read]
    · split
      · rename_i hab
        split
        · rename_i hv
          rw [hv]
          exact Memory.read_below rest a w.2 (by omega)
        · simp [Memory.read]
      · rename_i hab
        have hb : b ≠ a := fun e => hab e.symm
        simp only [Memory.read, hb, if_false]
        exact ih w.2

/-- A write leaves every other address alone. -/
theorem Memory.read_write_other {lo : Nat} (m : List Host.Cell) (a x : Nat) (v : Byte)
    (w : Memory.wfFrom lo m = true) (hx : x ≠ a) : Memory.read (Memory.write m a v) x = Memory.read m x := by
  have hax : ¬ a = x := fun e => hx e.symm
  induction m generalizing lo with
  | nil => by_cases hv : v = Memory.blank <;> simp [Memory.write, Memory.read, hv, hax]
  | cons c rest ih =>
    obtain ⟨b, u⟩ := c
    simp only [Memory.wfFrom, Bool.and_eq_true, decide_eq_true_eq] at w
    simp only [Memory.write]
    split
    · split
      · rfl
      · simp [Memory.read, hax]
    · split
      · rename_i hab
        subst hab
        split <;> simp [Memory.read, hax]
      · by_cases hbx : b = x
        · simp [Memory.read, hbx]
        · simp only [Memory.read, hbx, if_false]
          exact ih w.2

theorem Memory.writeMany_read_outside (m : List Host.Cell) (a x : Nat) (vs : List Byte) (w : Memory.wf m = true)
    (ha : a + vs.length ≤ Config.addrTop) (hx : x < a ∨ a + vs.length ≤ x) :
    Memory.read (Memory.writeMany m a vs) x = Memory.read m x := by
  induction vs generalizing m a with
  | nil => rfl
  | cons v rest ih =>
    simp only [List.length_cons] at ha hx
    have := ih (Memory.write m a v) (a + 1) (Memory.write_wf m a v w (by omega)) (by omega) (by omega)
    rw [Memory.writeMany, this]
    exact Memory.read_write_other m a x v w (by omega)

/-- What was written is what is read (R53, R64). -/
theorem Memory.readMany_writeMany (m : List Host.Cell) (a : Nat) (vs : List Byte) (w : Memory.wf m = true)
    (ha : a + vs.length ≤ Config.addrTop) : Memory.readMany (Memory.writeMany m a vs) a vs.length = vs := by
  induction vs generalizing m a with
  | nil => rfl
  | cons v rest ih =>
    simp only [List.length_cons] at ha
    have hw := Memory.write_wf m a v w (by omega)
    simp only [List.length_cons, Memory.readMany, Memory.writeMany]
    rw [ih _ _ hw (by omega), Memory.writeMany_read_outside _ _ _ _ hw (by omega) (by omega),
      Memory.read_write_same m a v w]

theorem Slave.store_wf (sl : Slave) (a : Nat) (buf : List Byte) (w : Memory.wf sl.mem = true) :
    Memory.wf (sl.store a buf).mem = true := by
  simp only [Slave.store]
  split
  · exact Memory.writeMany_wf _ _ _ w ‹_›
  · exact w

theorem Slave.byteDone_wf (sl : Slave) (w : Memory.wf sl.mem = true) : Memory.wf sl.byteDone.mem = true := by
  unfold Slave.byteDone
  split <;> try exact w
  · unfold Slave.opcodeRead
    split <;> exact w
  · split
    · exact w
    · split <;> exact w
  · simp only [Slave.statusRead]
    split
    · exact w
    · split <;> exact w
  · split
    · exact Slave.store_wf _ _ _ w
    · exact w

theorem Slave.observe_wf (sl : Slave) (dir : Dir) (lvl : Bit) (e : Event) (w : Memory.wf sl.mem = true) :
    Memory.wf (sl.observe dir lvl e).mem = true := by
  unfold Slave.observe
  split <;> try exact w
  · split <;> exact w
  · split
    · simp only [Slave.slotDone]
      split
      · exact w
      · split
        · exact w
        · exact Slave.byteDone_wf sl w
    · exact w

/-- The environment keeps the canonical form of the array whatever event it sees. -/
theorem Env.observe_wf (e : Env) (dir : Dir) (lvl : Bit) (ev : Event) (w : Memory.wf e.slave.mem = true) :
    Memory.wf (e.observe dir lvl ev).slave.mem = true := by
  unfold Env.observe
  split
  · exact Slave.observe_wf _ _ _ _ w
  · split <;> exact w

/-- From `e` to `e'` the array stays in canonical form, and a slave that does not answer is left alone. -/
def EnvKeeps (e e' : Env) : Prop :=
  (Memory.wf e.slave.mem = true → Memory.wf e'.slave.mem = true) ∧ (e.slave.answers = false → e'.slave = e.slave)

theorem EnvKeeps.refl (e : Env) : EnvKeeps e e := ⟨id, fun _ => rfl⟩

theorem EnvKeeps.trans {e e' e'' : Env} (h : EnvKeeps e e') (k : EnvKeeps e' e'') : EnvKeeps e e'' :=
  ⟨fun w => k.1 (h.1 w), fun a => (k.2 ((h.2 a).symm ▸ a)).trans (h.2 a)⟩

theorem Env.observe_keeps (e : Env) (dir : Dir) (lvl : Bit) (ev : Event) : EnvKeeps e (e.observe dir lvl ev) := by
  refine ⟨Env.observe_wf e dir lvl ev, fun a => ?_⟩
  unfold Env.observe
  rw [a]
  cases ev <;> rfl

theorem emit_keeps (ev : Event) (s : State) : EnvKeeps s.env (emit ev s).env := Env.observe_keeps _ _ _ _

theorem pageStart_le (a : Addr) : pageStart a + Config.page ≤ Config.addrTop := by
  have h := a.isLt
  simp only [pageStart, Config.page, Config.addrTop]
  omega

@[simp] theorem lostBytes_length (k a n : Nat) : (lostBytes k a n).length = n := by
  induction n generalizing a with
  | zero => rfl
  | succ n ih => simp [lostBytes, ih]

@[simp] theorem lostPage_length (k a : Nat) : (lostPage k a).length = Config.page := by
  rw [lostPage, lostBytes_length]

theorem losePage_wf (a : Addr) (s : State) (w : Memory.wf s.env.slave.mem = true) :
    Memory.wf (losePage a s).env.slave.mem = true :=
  Memory.writeMany_wf _ _ _ w (by simpa using pageStart_le a)

/-- A failed WRITE leaves every byte outside its page as it was (R58). -/
theorem losePage_outside (a : Addr) (s : State) (w : Memory.wf s.env.slave.mem = true) (x : Nat)
    (hx : x < pageStart a ∨ pageStart a + Config.page ≤ x) :
    Memory.read (losePage a s).env.slave.mem x = Memory.read s.env.slave.mem x :=
  Memory.writeMany_read_outside _ _ _ _ w (by simpa using pageStart_le a) (by simpa using hx)

theorem read_lostBytes (m : List Host.Cell) (k b n i : Nat) (w : Memory.wf m = true) (hb : b + n ≤ Config.addrTop)
    (hi : i < n) : Memory.read (Memory.writeMany m b (lostBytes k b n)) (b + i) = Config.lostByte k (b + i) := by
  induction n generalizing m b i with
  | zero => omega
  | succ n ih =>
    have hw := Memory.write_wf m b (Config.lostByte k b) w (by omega)
    cases i with
    | zero =>
      rw [lostBytes, Memory.writeMany, Memory.writeMany_read_outside _ _ _ _ hw (by simp; omega) (by omega),
        Nat.add_zero, Memory.read_write_same m b _ w]
    | succ i =>
      have h1 := ih _ (b + 1) i hw (by omega) (by omega)
      rw [show b + 1 + i = b + (i + 1) by omega] at h1
      exact h1

/-- A failed WRITE leaves a free value at every address of its page (R58). -/
theorem losePage_inside (a : Addr) (s : State) (w : Memory.wf s.env.slave.mem = true) (x : Nat)
    (hx : pageStart a ≤ x ∧ x < pageStart a + Config.page) :
    Memory.read (losePage a s).env.slave.mem x = Config.lostByte s.epoch x := by
  have h := read_lostBytes s.env.slave.mem s.epoch (pageStart a) Config.page (x - pageStart a) w (pageStart_le a)
    (by omega)
  rw [show pageStart a + (x - pageStart a) = x by omega, ← lostPage] at h
  exact h

/-- From `e` to `e'` the array stays in canonical form, and a slave that does not answer is left alone, but for the
page of `a` where `lost = some a` (R58). -/
def EnvKeepsBut (lost : Option Addr) (e e' : Env) : Prop :=
  (Memory.wf e.slave.mem = true → Memory.wf e'.slave.mem = true) ∧
  (e.slave.answers = false → e'.slave = { e.slave with mem := e'.slave.mem } ∧
    (lost = none → e'.slave.mem = e.slave.mem) ∧
    (∀ a, lost = some a → Memory.wf e.slave.mem = true → ∀ x, (x < pageStart a ∨ pageStart a + Config.page ≤ x) →
      Memory.read e'.slave.mem x = Memory.read e.slave.mem x))

theorem EnvKeeps.but {lost : Option Addr} {e e' : Env} (h : EnvKeeps e e') : EnvKeepsBut lost e e' :=
  ⟨h.1, fun a => by rw [h.2 a]; exact ⟨rfl, fun _ => rfl, fun _ _ _ _ _ => rfl⟩⟩

theorem EnvKeepsBut.refl (lost : Option Addr) (e : Env) : EnvKeepsBut lost e e := (EnvKeeps.refl e).but

theorem losePage_keepsBut (a : Addr) (s : State) : EnvKeepsBut (some a) s.env (losePage a s).env := by
  refine ⟨losePage_wf a s, fun _ => ⟨rfl, fun h => (by cases h), fun b h w x hx => ?_⟩⟩
  injection h with h
  subst h
  exact losePage_outside _ s w x hx

theorem EnvKeeps.transBut {lost : Option Addr} {e e' e'' : Env} (h : EnvKeeps e e') (k : EnvKeepsBut lost e' e'') :
    EnvKeepsBut lost e e'' := by
  refine ⟨fun w => k.1 (h.1 w), fun a => ?_⟩
  have hs := h.2 a
  have h1 := k.2 (by rw [hs]; exact a)
  rw [hs] at h1
  exact h1

/-- The end of a WRITE: its page at most (R58). -/
theorem endWrite_cases (a : Addr) (r : Result) (s : State) :
    (r ≠ .nosak ∧ endWrite a r s = s) ∨ (r = .nosak ∧ endWrite a r s = losePage a s) := by
  cases r <;> simp [endWrite]

end Sys2Proof.Machine
end

