-- ==== Sys2Proof/Laws/Trace.lean ====
section
/-! SUPPORT. How what a trace says was read distributes over appended traces. -/

namespace Sys2Proof.Safety

open Sys2Proof.Machine

@[simp] theorem sampleBits_append (xs ys : List Event) : sampleBits (xs ++ ys) = sampleBits xs ++ sampleBits ys := by
  induction xs with
  | nil => rfl
  | cons e rest ih => cases e <;> simp [sampleBits, ih]

theorem slotValues_append (xs ys : List Bit) (k : Nat) (h : xs.length = 2 * k) :
    slotValues (xs ++ ys) = slotValues xs ++ slotValues ys := by
  induction k generalizing xs with
  | zero =>
    have h0 : xs = [] := List.length_eq_zero_iff.mp (by omega)
    subst h0
    rfl
  | succ k ih =>
    match xs, h with
    | a :: b :: rest, h => simp [slotValues, ih rest (by simp at h; omega)]

theorem slotValues_length (xs : List Bit) (k : Nat) (h : xs.length = 2 * k) : (slotValues xs).length = k := by
  induction k generalizing xs with
  | zero =>
    have h0 : xs = [] := List.length_eq_zero_iff.mp (by omega)
    subst h0
    rfl
  | succ k ih =>
    match xs, h with
    | a :: b :: rest, h => simp [slotValues, ih rest (by simp at h; omega)]

/-- A list of ten slot values, spelled out. -/
theorem ten_values (vals : List Bit) (h : vals.length = 10) :
    ∃ a b c d e f g i m k, vals = [a, b, c, d, e, f, g, i, m, k] := by
  match vals, h with
  | [a, b, c, d, e, f, g, i, m, k], _ => exact ⟨a, b, c, d, e, f, g, i, m, k, rfl⟩

@[simp] theorem requestedTime_append (xs ys : List Event) :
    requestedTime (xs ++ ys) = requestedTime xs + requestedTime ys := by
  induction xs with
  | nil => simp [requestedTime]
  | cons e rest ih => cases e <;> simp [requestedTime, ih, Nat.add_assoc]

/-- The requested time does not depend on what was sampled. -/
theorem requestedTime_erase (evs : List Event) : requestedTime (evs.map eraseSample) = requestedTime evs := by
  induction evs with
  | nil => rfl
  | cons e rest ih => cases e <;> simp [requestedTime, eraseSample, ih]

/-- The guard discipline does not depend on what was sampled. -/
theorem guardDiscipline_erase (held : Bool) (evs : List Event) :
    guardDiscipline held (evs.map eraseSample) = guardDiscipline held evs := by
  induction evs generalizing held with
  | nil => rfl
  | cons e rest ih => cases e <;> simp [guardDiscipline, eraseSample, ih]

end Sys2Proof.Safety
end

