-- ==== Sys2Proof/Laws/Bits.lean ====
section
/-! SUPPORT. What the bit transceiver and the byte framer do, said once: the events they append, the registers they
write (R39), and what they leave. -/

namespace Sys2Proof.Machine

open Sys2Proof.Safety

/-- From `s` to `t` the master ran line events `evs` and wrote no register of a command (R39). -/
structure Ran (s t : State) (evs : List Event) : Prop where
  trace : t.trace = evs.reverse ++ s.trace
  devaddr : t.devaddr = s.devaddr
  timing : t.timing = s.timing
  params : t.params = s.params
  addr : t.addr = s.addr
  len : t.len = s.len
  seq : t.seq = s.seq
  result : t.result = s.result
  pollcnt : t.pollcnt = s.pollcnt
  host : t.host = s.host
  done : t.done = s.done
  rdata : t.rdata = s.rdata
  epoch : t.epoch = s.epoch
  mem : EnvKeeps s.env t.env

theorem Ran.refl (s : State) : Ran s s [] :=
  ⟨rfl, rfl, rfl, rfl, rfl, rfl, rfl, rfl, rfl, rfl, rfl, rfl, rfl, EnvKeeps.refl _⟩

theorem Ran.trans {s t u : State} {xs ys : List Event} (h : Ran s t xs) (k : Ran t u ys) : Ran s u (xs ++ ys) :=
  ⟨by rw [k.trace, h.trace, List.reverse_append, List.append_assoc], k.devaddr.trans h.devaddr,
   k.timing.trans h.timing, k.params.trans h.params, k.addr.trans h.addr, k.len.trans h.len, k.seq.trans h.seq,
   k.result.trans h.result, k.pollcnt.trans h.pollcnt, k.host.trans h.host, k.done.trans h.done,
   k.rdata.trans h.rdata, k.epoch.trans h.epoch, h.mem.trans k.mem⟩

theorem Ran.events {s t : State} {evs : List Event} (h : Ran s t evs) : t.events = s.events ++ evs := by
  simp [State.events, h.trace]

/-- `Ran`, with the guard and the buffers left alone as well. -/
structure BitsRan (s t : State) (evs : List Event) : Prop extends Ran s t evs where
  guard : t.guard = s.guard
  wbuf : t.wbuf = s.wbuf
  rbuf : t.rbuf = s.rbuf

theorem BitsRan.refl (s : State) : BitsRan s s [] := ⟨Ran.refl s, rfl, rfl, rfl⟩

theorem BitsRan.trans {s t u : State} {xs ys : List Event} (h : BitsRan s t xs) (k : BitsRan t u ys) :
    BitsRan s u (xs ++ ys) :=
  ⟨h.toRan.trans k.toRan, k.guard.trans h.guard, k.wbuf.trans h.wbuf, k.rbuf.trans h.rbuf⟩

theorem setOutput_ran (s : State) : BitsRan s (setOutput s) [.out] :=
  ⟨⟨rfl, rfl, rfl, rfl, rfl, rfl, rfl, rfl, rfl, rfl, rfl, rfl, rfl, emit_keeps _ { s with dir := .output }⟩, rfl, rfl, rfl⟩

theorem setInput_ran (s : State) : BitsRan s (setInput s) [.inp] :=
  ⟨⟨rfl, rfl, rfl, rfl, rfl, rfl, rfl, rfl, rfl, rfl, rfl, rfl, rfl, emit_keeps _ { s with dir := .input }⟩, rfl, rfl, rfl⟩

theorem setLevel_ran (v : Bit) (s : State) : BitsRan s (setLevel v s) [.drv v] :=
  ⟨⟨rfl, rfl, rfl, rfl, rfl, rfl, rfl, rfl, rfl, rfl, rfl, rfl, rfl, emit_keeps _ { s with lvl := v }⟩, rfl, rfl, rfl⟩

theorem wait_ran (c : Delay) (s : State) : BitsRan s (wait c s) [.dly (requestedDelay s.timing c)] :=
  ⟨⟨rfl, rfl, rfl, rfl, rfl, rfl, rfl, rfl, rfl, rfl, rfl, rfl, rfl, emit_keeps _ s⟩, rfl, rfl, rfl⟩

theorem sampleA_ran (s : State) : BitsRan s (sampleA s) [.smp (sampleA s).sa] :=
  ⟨⟨rfl, rfl, rfl, rfl, rfl, rfl, rfl, rfl, rfl, rfl, rfl, rfl, rfl,
    emit_keeps _ { s with sa := s.env.answer s.dir s.lvl }⟩, rfl, rfl, rfl⟩

theorem sampleB_ran (s : State) : BitsRan s (sampleB s) [.smp (sampleB s).sb] :=
  ⟨⟨rfl, rfl, rfl, rfl, rfl, rfl, rfl, rfl, rfl, rfl, rfl, rfl, rfl,
    emit_keeps _ { s with sb := s.env.answer s.dir s.lvl }⟩, rfl, rfl, rfl⟩

/-- The events of a bit slot whose samples are `a` and `b` (R120). -/
def slotEvents (t : Timing) (w a b : Bit) : List Event :=
  [.drv (!w), .dly (requestedDelay t .quarter), .smp a, .dly (requestedDelay t .quarter),
   .drv w, .dly (requestedDelay t .quarter), .smp b, .dly (requestedDelay t .quarter)]

/-- What XFER_BIT does (R120, R39). -/
structure SlotRan (w : Bit) (s t : State) (evs : List Event) : Prop extends BitsRan s t evs where
  lvl : t.lvl = w
  shreg : t.shreg = s.shreg
  sakf : t.sakf = s.sakf

theorem xferBit_ran (w : Bit) (s : State) :
    SlotRan w s (xferBit w s) (slotEvents s.timing w (xferBit w s).sa (xferBit w s).sb) ∧
      (xferBit w s).dir = s.dir := by
  refine ⟨⟨?_, rfl, rfl, rfl⟩, rfl⟩
  have h1 := setLevel_ran (!w) s
  have h2 := h1.trans (wait_ran .quarter _)
  have h3 := h2.trans (sampleA_ran _)
  have h4 := h3.trans (wait_ran .quarter _)
  have h5 := h4.trans (setLevel_ran w _)
  have h6 := h5.trans (wait_ran .quarter _)
  have h7 := h6.trans (sampleB_ran _)
  exact h7.trans (wait_ran .quarter _)

@[simp] theorem slotEvents_shape (t : Timing) (w a b : Bit) : (slotEvents t w a b).map eraseSample = slotShape t w := rfl

@[simp] theorem slotEvents_samples (t : Timing) (w a b : Bit) : sampleBits (slotEvents t w a b) = [a, b] := rfl

/-- What RECV_BIT does (R124, R125, R39): the line ends as an output at level 1. -/
theorem recvBit_ran (s : State) :
    SlotRan true s (recvBit s) (.inp :: slotEvents s.timing true (recvBit s).sa (recvBit s).sb ++ [.out]) ∧
      (recvBit s).dir = .output := by
  refine ⟨⟨?_, rfl, rfl, rfl⟩, rfl⟩
  exact ((setInput_ran s).trans (xferBit_ran true (setInput s)).1.toBitsRan).trans (setOutput_ran _)

/-- What the environment's answers are does not matter to the number of events (R122). -/
@[simp] theorem slotValue_eq (s : State) : slotValue s = (s.sb && !s.sa) := rfl

/-- The bits `SEND_BYTE` presents, `k` of them (R140). -/
def topBits (k : Nat) (v : Byte) : List Bit :=
  match k with
  | 0 => []
  | k + 1 => v.getLsbD 7 :: topBits k (shiftLeftIn v false)

/-- Selecting bit 7 before each shift gives the bits most significant first (R149). -/
theorem topBits_eight : ∀ v : Byte, topBits 8 v = msbFirst v := by decide +kernel

/-- `shiftLeftIn` eight times from anything leaves the eight bits shifted in (R144, R149). -/
theorem foldl_shiftLeftIn (b : Byte) (bits : List Bit) (v : Bit) :
    (bits ++ [v]).foldl shiftLeftIn b = shiftLeftIn (bits.foldl shiftLeftIn b) v := by simp

/-- The loop of SEND_BYTE (R140). -/
theorem sendBits_ran (k : Nat) (s : State) :
    ∃ evs, BitsRan s (sendBits k s) evs ∧ evs.map eraseSample = (topBits k s.shreg).flatMap (slotShape s.timing) ∧
      (sampleBits evs).length = 2 * k ∧ (sendBits k s).dir = s.dir ∧ (sendBits k s).sakf = s.sakf := by
  induction k generalizing s with
  | zero => exact ⟨[], BitsRan.refl s, rfl, rfl, rfl, rfl⟩
  | succ k ih =>
    obtain ⟨hx, hd⟩ := xferBit_ran (s.shreg.getLsbD 7) s
    have hs : BitsRan s (shiftOut (xferBit (s.shreg.getLsbD 7) s)) _ :=
      ⟨⟨hx.trace, hx.devaddr, hx.timing, hx.params, hx.addr, hx.len, hx.seq, hx.result, hx.pollcnt, hx.host, hx.done,
        hx.rdata, hx.epoch, hx.mem⟩, hx.guard, hx.wbuf, hx.rbuf⟩
    obtain ⟨evs, hr, he, hl, hdir, hk⟩ := ih (shiftOut (xferBit (s.shreg.getLsbD 7) s))
    refine ⟨_, hs.trans hr, ?_, ?_, ?_, ?_⟩
    · rw [List.map_append, slotEvents_shape, he]
      rfl
    · rw [sampleBits_append, slotEvents_samples, List.length_append, hl]
      simp only [List.length_cons, List.length_nil]
      omega
    · exact hdir.trans hd
    · exact hk.trans hx.sakf

/-- The loop of RECV_BYTE: `vals` are the values of its slots (R144). -/
theorem recvBits_ran (k : Nat) (s : State) :
    ∃ evs vals, BitsRan s (recvBits k s) evs ∧ evs.map eraseSample = (List.replicate k (recvShape s.timing)).flatten ∧
      (sampleBits evs).length = 2 * k ∧ slotValues (sampleBits evs) = vals ∧
      (recvBits k s).shreg = vals.foldl shiftLeftIn s.shreg ∧ (recvBits k s).sakf = s.sakf ∧
      ((recvBits k s).dir = if k = 0 then s.dir else .output) := by
  induction k generalizing s with
  | zero => exact ⟨[], [], BitsRan.refl s, rfl, rfl, rfl, rfl, rfl, rfl⟩
  | succ k ih =>
    obtain ⟨hx, hd⟩ := recvBit_ran s
    have hs : BitsRan s (shiftIn (recvBit s)) _ :=
      ⟨⟨hx.trace, hx.devaddr, hx.timing, hx.params, hx.addr, hx.len, hx.seq, hx.result, hx.pollcnt, hx.host, hx.done,
        hx.rdata, hx.epoch, hx.mem⟩, hx.guard, hx.wbuf, hx.rbuf⟩
    obtain ⟨evs, vals, hr, he, hl, hv, hsh, hk, hdir⟩ := ih (shiftIn (recvBit s))
    have hb : sampleBits (.inp :: slotEvents s.timing true (recvBit s).sa (recvBit s).sb ++ [.out]) =
        [(recvBit s).sa, (recvBit s).sb] := rfl
    refine ⟨_, slotValue (recvBit s) :: vals, hs.trans hr, ?_, ?_, ?_, ?_, ?_, ?_⟩
    · rw [List.map_append, he]
      rfl
    · rw [sampleBits_append, hb, List.length_append, hl]
      simp only [List.length_cons, List.length_nil]
      omega
    · rw [sampleBits_append, hb, slotValues_append _ _ 1 rfl, hv]
      rfl
    · exact hsh
    · exact hk.trans hx.sakf
    · rw [show recvBits (k + 1) s = recvBits k (shiftIn (recvBit s)) from rfl, hdir]
      split <;> rfl

/-- What a byte slot does (R140, R144, R148): ten slot values `vals`, the last of them the acknowledgement, and the
line an output at level 1. -/
structure ByteRan (slot : ByteSlot) (s t : State) (evs : List Event) (vals : List Bit) : Prop
    extends BitsRan s t evs where
  shape : evs.map eraseSample = byteShape s.timing slot
  samples : (sampleBits evs).length = 20
  values : slotValues (sampleBits evs) = vals
  sakf : vals[9]? = some t.sakf
  dir : t.dir = .output
  lvl : t.lvl = true

theorem ByteRan.values_length {slot : ByteSlot} {s t : State} {evs : List Event} {vals : List Bit}
    (h : ByteRan slot s t evs vals) : vals.length = 10 := by
  rw [← h.values]
  exact slotValues_length _ 10 h.samples

/-- MAK slot and SAK slot, after eight slots `evs` (R75 to R77). -/
theorem handshake_ran {s0 s : State} {evs : List Event} (last : Bit) (h : BitsRan s0 s evs)
    (hl : (sampleBits evs).length = 16) :
    ∃ evs' vals, BitsRan s0 (handshake last s) (evs ++ evs') ∧
      evs'.map eraseSample = slotShape s0.timing (mak last) ++ recvShape s0.timing ∧
      (sampleBits (evs ++ evs')).length = 20 ∧ slotValues (sampleBits (evs ++ evs')) = vals ∧
      vals.take 8 = slotValues (sampleBits evs) ∧ vals[9]? = some (handshake last s).sakf ∧
      (handshake last s).dir = .output ∧ (handshake last s).lvl = true ∧ (handshake last s).shreg = s.shreg := by
  obtain ⟨hx, hxd⟩ := xferBit_ran (mak last) s
  obtain ⟨hr, hrd⟩ := recvBit_ran (xferBit (mak last) s)
  have hb := h.trans (hx.toBitsRan.trans hr.toBitsRan)
  have hs : BitsRan s0 (handshake last s) _ :=
    ⟨⟨hb.trace, hb.devaddr, hb.timing, hb.params, hb.addr, hb.len, hb.seq, hb.result, hb.pollcnt, hb.host, hb.done,
      hb.rdata, hb.epoch, hb.mem⟩, hb.guard, hb.wbuf, hb.rbuf⟩
  have hv : (slotValues (sampleBits evs)).length = 8 := slotValues_length _ 8 hl
  refine ⟨_, _, hs, ?_, ?_, rfl, ?_, ?_, hrd, hr.lvl, ?_⟩
  · rw [List.map_append, slotEvents_shape, hx.timing, h.timing]
    rfl
  · rw [sampleBits_append, List.length_append, hl]
    rfl
  · rw [sampleBits_append, slotValues_append _ _ 8 hl, List.take_append_of_le_length (by omega),
      List.take_of_length_le (by omega)]
  · rw [sampleBits_append, slotValues_append _ _ 8 hl, List.getElem?_append_right (by omega), hv]
    rfl
  · exact hr.shreg.trans hx.shreg

/-- What SEND_BYTE does (R140). -/
theorem sendByte_ran (v : Byte) (last : Bit) (s : State) :
    ∃ evs vals, ByteRan (.sent v (mak last)) s (sendByte v last s) evs vals := by
  obtain ⟨evs, hr, he, hl, -, -⟩ := sendBits_ran 8 (loadShreg v s)
  have h0 : BitsRan s (sendBits 8 (loadShreg v s)) evs :=
    ⟨⟨hr.trace, hr.devaddr, hr.timing, hr.params, hr.addr, hr.len, hr.seq, hr.result, hr.pollcnt, hr.host, hr.done,
      hr.rdata, hr.epoch, hr.mem⟩, hr.guard, hr.wbuf, hr.rbuf⟩
  obtain ⟨evs', vals, hb, hs, hn, hv, -, hk, hd, hlv, -⟩ := handshake_ran last h0 hl
  refine ⟨_, vals, hb, ?_, hn, hv, hk, hd, hlv⟩
  rw [List.map_append, he, hs, loadShreg_shreg, topBits_eight]
  simp [byteShape]

/-- What RECV_BYTE does (R144): `SHREG` ends with the byte of the first eight slot values. -/
theorem recvByte_ran (last : Bit) (s : State) :
    ∃ evs vals, ByteRan (.received (mak last)) s (recvByte last s) evs vals ∧
      (recvByte last s).shreg = byteOfBits (vals.take 8) := by
  obtain ⟨evs, vals8, hr, he, hl, hv8, hsh, -, -⟩ := recvBits_ran 8 (loadShreg 0 s)
  have h0 : BitsRan s (recvBits 8 (loadShreg 0 s)) evs :=
    ⟨⟨hr.trace, hr.devaddr, hr.timing, hr.params, hr.addr, hr.len, hr.seq, hr.result, hr.pollcnt, hr.host, hr.done,
      hr.rdata, hr.epoch, hr.mem⟩, hr.guard, hr.wbuf, hr.rbuf⟩
  obtain ⟨evs', vals, hb, hs, hn, hv, ht, hk, hd, hlv, hshr⟩ := handshake_ran last h0 hl
  refine ⟨_, vals, ⟨hb, ?_, hn, hv, hk, hd, hlv⟩, ?_⟩
  · rw [List.map_append, he, hs]
    simp [byteShape]
  · rw [show (recvByte last s).shreg = _ from hshr, hsh, ht, hv8]
    rfl

end Sys2Proof.Machine
end

