-- ==== Sys2Proof/Laws/Frames.lean ====
section
/-! SUPPORT. What the frame codec and a transaction do, said once: SEND_FRAME, RECV_FRAME, START_HEADER,
STANDBY_PULSE, GAP, the guard, and the shape of R180. -/

namespace Sys2Proof.Safety

open Sys2Proof.Machine

/-- The acknowledgements in a list of samples. -/
theorem acks_append (xs ys : List Bit) (k : Nat) (h : xs.length = 20 * k) :
    acknowledgements (slotValues (xs ++ ys)) = acknowledgements (slotValues xs) ++ acknowledgements (slotValues ys) := by
  induction k generalizing xs with
  | zero =>
    have h0 : xs = [] := List.length_eq_zero_iff.mp (by omega)
    subst h0
    rfl
  | succ k ih =>
    obtain ⟨us, ws, rfl, hu⟩ : ∃ us ws, xs = us ++ ws ∧ us.length = 20 :=
      ⟨xs.take 20, xs.drop 20, (List.take_append_drop 20 xs).symm, by simp; omega⟩
    have hw : ws.length = 20 * k := by rw [List.length_append] at h; omega
    obtain ⟨a, b, c, d, e, f, g, i, m, n, hv⟩ := ten_values _ (slotValues_length us 10 hu)
    rw [List.append_assoc, slotValues_append us _ 10 hu, slotValues_append us _ 10 hu, hv]
    simp only [List.cons_append, List.nil_append, acknowledgements, ih ws hw]

theorem bytes_append (xs ys : List Bit) (k : Nat) (h : xs.length = 20 * k) :
    slotBytes (slotValues (xs ++ ys)) = slotBytes (slotValues xs) ++ slotBytes (slotValues ys) := by
  induction k generalizing xs with
  | zero =>
    have h0 : xs = [] := List.length_eq_zero_iff.mp (by omega)
    subst h0
    rfl
  | succ k ih =>
    obtain ⟨us, ws, rfl, hu⟩ : ∃ us ws, xs = us ++ ws ∧ us.length = 20 :=
      ⟨xs.take 20, xs.drop 20, (List.take_append_drop 20 xs).symm, by simp; omega⟩
    have hw : ws.length = 20 * k := by rw [List.length_append] at h; omega
    obtain ⟨a, b, c, d, e, f, g, i, m, n, hv⟩ := ten_values _ (slotValues_length us 10 hu)
    rw [List.append_assoc, slotValues_append us _ 10 hu, slotValues_append us _ 10 hu, hv]
    simp only [List.cons_append, List.nil_append, slotBytes, ih ws hw]

@[simp] theorem receivedSlots_length (n : Nat) : (receivedSlots n).length = n := by
  induction n with
  | zero => rfl
  | succ n ih => simp [receivedSlots, ih]

@[simp] theorem sentSlots_length (bytes : List Byte) (final : Bit) : (sentSlots bytes final).length = bytes.length := by
  induction bytes with
  | nil => rfl
  | cons b rest ih => simp [sentSlots, ih]

end Sys2Proof.Safety

namespace Sys2Proof.Machine

open Sys2Proof.Safety

theorem ByteRan.acks {slot : ByteSlot} {s t : State} {evs : List Event} {vals : List Bit}
    (h : ByteRan slot s t evs vals) : acknowledgements (slotValues (sampleBits evs)) = [t.sakf] := by
  obtain ⟨a, b, c, d, e, f, g, i, m, n, hv⟩ := ten_values _ h.values_length
  have hk := h.sakf
  rw [hv] at hk
  rw [h.values, hv]
  simpa [acknowledgements] using hk

theorem ByteRan.bytes {slot : ByteSlot} {s t : State} {evs : List Event} {vals : List Bit}
    (h : ByteRan slot s t evs vals) : slotBytes (slotValues (sampleBits evs)) = [byteOfBits (vals.take 8)] := by
  obtain ⟨a, b, c, d, e, f, g, i, m, n, hv⟩ := ten_values _ h.values_length
  rw [h.values, hv]
  rfl

/-- What the events of some byte slots amount to: all acknowledged and `OK`, or stopped at the first that was not
and `NOSAK` (R160, R163, R225). -/
def FrameOutcome (t : Timing) (slots : List ByteSlot) (evs : List Event) (r : Result) : Prop :=
  (r = .ok ∧ evs.map eraseSample = slots.flatMap (byteShape t) ∧ (sampleBits evs).length = 20 * slots.length ∧
    acknowledgements (slotValues (sampleBits evs)) = List.replicate slots.length true) ∨
  (r = .nosak ∧ ∃ k, k < slots.length ∧ evs.map eraseSample = (slots.take (k + 1)).flatMap (byteShape t) ∧
    (sampleBits evs).length = 20 * (k + 1) ∧
    acknowledgements (slotValues (sampleBits evs)) = List.replicate k true ++ [false])

theorem FrameOutcome.nil (t : Timing) : FrameOutcome t [] [] .ok := Or.inl ⟨rfl, rfl, rfl, rfl⟩

/-- A byte slot that was acknowledged, and then the others. -/
theorem FrameOutcome.cons {t : Timing} {b : ByteSlot} {slots : List ByteSlot} {xs ys : List Event} {r : Result}
    (hx : xs.map eraseSample = byteShape t b) (hl : (sampleBits xs).length = 20)
    (ha : acknowledgements (slotValues (sampleBits xs)) = [true]) (h : FrameOutcome t slots ys r) :
    FrameOutcome t (b :: slots) (xs ++ ys) r := by
  rcases h with ⟨hr, he, hn, hk⟩ | ⟨hr, k, hlt, he, hn, hk⟩
  · refine Or.inl ⟨hr, ?_, ?_, ?_⟩
    · rw [List.map_append, hx, he, List.flatMap_cons]
    · rw [sampleBits_append, List.length_append, hl, hn, List.length_cons]
      omega
    · rw [sampleBits_append, acks_append _ _ 1 (by omega), ha, hk]
      rfl
  · refine Or.inr ⟨hr, k + 1, by simpa using hlt, ?_, ?_, ?_⟩
    · rw [List.map_append, hx, he, List.take_succ_cons, List.flatMap_cons]
    · rw [sampleBits_append, List.length_append, hl, hn]
      omega
    · rw [sampleBits_append, acks_append _ _ 1 (by omega), ha, hk]
      rfl

/-- A byte slot that was not acknowledged ends the frame. -/
theorem FrameOutcome.stop {t : Timing} {b : ByteSlot} {slots : List ByteSlot} {xs : List Event}
    (hx : xs.map eraseSample = byteShape t b) (hl : (sampleBits xs).length = 20)
    (ha : acknowledgements (slotValues (sampleBits xs)) = [false]) : FrameOutcome t (b :: slots) xs .nosak :=
  Or.inr ⟨rfl, 0, Nat.succ_pos _, by simp [hx], hl, by simp [ha]⟩

/-- A frame that was acknowledged, and then another. -/
theorem FrameOutcome.append {t : Timing} {as bs : List ByteSlot} {xs ys : List Event} {r : Result}
    (hx : FrameOutcome t as xs .ok) (hy : FrameOutcome t bs ys r) : FrameOutcome t (as ++ bs) (xs ++ ys) r := by
  rcases hx with ⟨-, he, hn, hk⟩ | ⟨hr, -⟩
  swap
  · exact absurd hr (by decide)
  rcases hy with ⟨hr, he', hn', hk'⟩ | ⟨hr, k, hlt, he', hn', hk'⟩
  · refine Or.inl ⟨hr, ?_, ?_, ?_⟩
    · rw [List.map_append, he, he', List.flatMap_append]
    · rw [sampleBits_append, List.length_append, hn, hn', List.length_append]
      omega
    · rw [sampleBits_append, acks_append _ _ _ hn, hk, hk', List.length_append, List.replicate_add]
  · refine Or.inr ⟨hr, as.length + k, by simp; omega, ?_, ?_, ?_⟩
    · have h1 : (as ++ bs).take (as.length + k + 1) = as ++ bs.take (k + 1) := by
        rw [List.take_append]
        have h2 : as.length + k + 1 - as.length = k + 1 := by omega
        rw [h2, List.take_of_length_le (by omega)]
      rw [List.map_append, he, he', h1, List.flatMap_append]
    · rw [sampleBits_append, List.length_append, hn, hn']
      omega
    · rw [sampleBits_append, acks_append _ _ _ hn, hk, hk', List.replicate_add, List.append_assoc]

/-- A frame that failed is where the transaction fails (R182). -/
theorem FrameOutcome.fail {t : Timing} {as : List ByteSlot} (bs : List ByteSlot) {xs : List Event}
    (hx : FrameOutcome t as xs .nosak) : FrameOutcome t (as ++ bs) xs .nosak := by
  rcases hx with ⟨hr, -⟩ | ⟨hr, k, hlt, he, hn, hk⟩
  · exact absurd hr (by decide)
  · refine Or.inr ⟨hr, k, by simp; omega, ?_, hn, hk⟩
    rw [he, List.take_append_of_le_length (by omega)]

theorem FrameOutcome.result {t : Timing} {slots : List ByteSlot} {xs : List Event} {r : Result}
    (h : FrameOutcome t slots xs r) : r = .ok ∨ r = .nosak := by
  rcases h with ⟨h, -⟩ | ⟨h, -⟩
  · exact Or.inl h
  · exact Or.inr h

/-- What a frame does to the state (R39, R160, R163, R176). -/
structure FrameRan (slots : List ByteSlot) (s t : State) (r : Result) (evs : List Event) : Prop
    extends Ran s t evs where
  guard : t.guard = s.guard
  dir : s.dir = .output → t.dir = .output
  lvl : s.lvl = true → t.lvl = true
  outcome : FrameOutcome s.timing slots evs r

theorem FrameRan.refl (s : State) : FrameRan [] s s .ok [] := ⟨Ran.refl s, rfl, id, id, FrameOutcome.nil _⟩

theorem Ran.storeByte {s t : State} {evs : List Event} (h : Ran s t evs) : Ran s (storeByte t) evs :=
  ⟨h.trace, h.devaddr, h.timing, h.params, h.addr, h.len, h.seq, h.result, h.pollcnt, h.host, h.done, h.rdata, h.epoch,
    h.mem⟩

/-- SEND_FRAME (R160). -/
theorem sendFrame_ran (bytes : List Byte) (final : Bit) (s : State) :
    ∃ evs, FrameRan (sentSlots bytes final) s (sendFrame bytes final s).2 (sendFrame bytes final s).1 evs := by
  induction bytes generalizing s with
  | nil => exact ⟨[], FrameRan.refl s⟩
  | cons b rest ih =>
    obtain ⟨xs, vals, hb⟩ := sendByte_ran b (final && rest.isEmpty) s
    have ha := hb.acks
    simp only [sendFrame]
    split
    · rename_i hk
      obtain ⟨ys, hr⟩ := ih (sendByte b (final && rest.isEmpty) s)
      rw [hk] at ha
      refine ⟨_, ⟨hb.toRan.trans hr.toRan, hr.guard.trans hb.guard, fun _ => hr.dir hb.dir, fun _ => hr.lvl hb.lvl, ?_⟩⟩
      exact FrameOutcome.cons hb.shape hb.samples ha (hb.timing ▸ hr.outcome)
    · rename_i hk
      rw [Bool.not_eq_true] at hk
      rw [hk] at ha
      exact ⟨_, ⟨hb.toRan, hb.guard, fun _ => hb.dir, fun _ => hb.lvl, FrameOutcome.stop hb.shape hb.samples ha⟩⟩

/-- The loop of RECV_FRAME (R163): where every byte was acknowledged, `RBUF` has grown by the bytes read. -/
theorem recvBytes_ran (n : Nat) (s : State) :
    ∃ evs, FrameRan (receivedSlots n) s (recvBytes n s).2 (recvBytes n s).1 evs ∧
      ((recvBytes n s).1 = .ok → (recvBytes n s).2.rbuf = s.rbuf ++ slotBytes (slotValues (sampleBits evs))) := by
  induction n generalizing s with
  | zero => exact ⟨[], FrameRan.refl s, fun _ => by simp [recvBytes, sampleBits, slotValues, slotBytes]⟩
  | succ n ih =>
    obtain ⟨xs, vals, hb, hsh⟩ := recvByte_ran (decide (n = 0)) s
    have ha := hb.acks
    simp only [recvBytes]
    split
    · rename_i hk
      obtain ⟨ys, hr, hbuf⟩ := ih (storeByte (recvByte (decide (n = 0)) s))
      rw [hk] at ha
      have hs := hb.toRan.storeByte
      refine ⟨_, ⟨hs.trans hr.toRan, hr.guard.trans ((storeByte_guard _).trans hb.guard), fun _ => hr.dir hb.dir, fun _ => hr.lvl hb.lvl, ?_⟩, ?_⟩
      · exact FrameOutcome.cons hb.shape hb.samples ha (hs.timing ▸ hr.outcome)
      · intro h
        have h1 : (storeByte (recvByte (decide (n = 0)) s)).rbuf = s.rbuf ++ [byteOfBits (vals.take 8)] :=
          congrArg₂ (fun x y => x ++ [y]) hb.rbuf hsh
        rw [hbuf h, h1, sampleBits_append, bytes_append _ _ 1 (by rw [hb.samples]), hb.bytes, List.append_assoc]
    · rename_i hk
      rw [Bool.not_eq_true] at hk
      rw [hk] at ha
      refine ⟨_, ⟨hb.toRan, hb.guard, fun _ => hb.dir, fun _ => hb.lvl, FrameOutcome.stop hb.shape hb.samples ha⟩, ?_⟩
      intro h
      exact Result.noConfusion h

/-- RECV_FRAME (R163): where every byte was acknowledged, `RBUF` is the bytes read. -/
theorem recvFrame_ran (n : Nat) (s : State) :
    ∃ evs, FrameRan (receivedSlots n) s (recvFrame n s).2 (recvFrame n s).1 evs ∧
      ((recvFrame n s).1 = .ok → (recvFrame n s).2.rbuf = slotBytes (slotValues (sampleBits evs))) := by
  obtain ⟨evs, hr, hb⟩ := recvBytes_ran n (clearRbuf s)
  exact ⟨evs, ⟨⟨hr.trace, hr.devaddr, hr.timing, hr.params, hr.addr, hr.len, hr.seq, hr.result, hr.pollcnt, hr.host,
    hr.done, hr.rdata, hr.epoch, hr.mem⟩, hr.guard, hr.dir, hr.lvl, hr.outcome⟩, fun h => (hb h).trans (List.nil_append _)⟩

/-- The payload of a WRITE (R186). -/
theorem sendPayload_ran (p : List Byte) (s : State) :
    ∃ evs, FrameRan (sentSlots p true) s (sendPayload p s).2 (sendPayload p s).1 evs := sendFrame_ran p true s

theorem noData_ran (s : State) : FrameRan [] s (noData s).2 (noData s).1 [] := FrameRan.refl s

/-- STANDBY_PULSE (R166). -/
theorem standbyPulse_ran (s : State) :
    BitsRan s (standbyPulse s) (standbyShape s.timing) ∧ (standbyPulse s).dir = s.dir ∧ (standbyPulse s).lvl = true :=
  ⟨(((setLevel_ran false s).trans (wait_ran .stbyLow _)).trans (setLevel_ran true _)).trans (wait_ran .stbyHigh _),
    rfl, rfl⟩

/-- GAP (R170). -/
theorem gap_ran (s : State) : BitsRan s (gap s) [.dly (requestedDelay s.timing .gap)] := wait_ran .gap s

/-- START_HEADER (R168). -/
theorem startHeader_ran (s : State) :
    ∃ evs, BitsRan s (startHeader s) evs ∧ evs.map eraseSample = headerShape s.timing ∧
      (sampleBits evs).length = 20 ∧ (startHeader s).dir = .output ∧ (startHeader s).lvl = true := by
  obtain ⟨evs, vals, hb⟩ := sendByte_ran Config.startHeader true (wait .hdr (setLevel false s))
  have h0 := (setLevel_ran false s).trans (wait_ran .hdr _)
  refine ⟨_, h0.trans hb.toBitsRan, ?_, hb.samples, hb.dir, hb.lvl⟩
  rw [List.map_append, hb.shape]
  rfl

/-- The byte slots whose bytes were read: as many bytes as slots. -/
theorem slotBytes_length (xs : List Bit) (k : Nat) (h : xs.length = 20 * k) : (slotBytes (slotValues xs)).length = k := by
  induction k generalizing xs with
  | zero =>
    have h0 : xs = [] := List.length_eq_zero_iff.mp (by omega)
    subst h0
    rfl
  | succ k ih =>
    obtain ⟨us, ws, rfl, hu⟩ : ∃ us ws, xs = us ++ ws ∧ us.length = 20 :=
      ⟨xs.take 20, xs.drop 20, (List.take_append_drop 20 xs).symm, by simp; omega⟩
    have hw : ws.length = 20 * k := by rw [List.length_append] at h; omega
    obtain ⟨a, b, c, d, e, f, g, i, m, n, hv⟩ := ten_values _ (slotValues_length us 10 hu)
    rw [slotValues_append us _ 10 hu, hv]
    simp only [List.cons_append, List.nil_append, slotBytes, List.length_cons, ih ws hw]

theorem FrameOutcome.samples {t : Timing} {slots : List ByteSlot} {evs : List Event}
    (h : FrameOutcome t slots evs .ok) : (sampleBits evs).length = 20 * slots.length := by
  rcases h with ⟨-, -, h, -⟩ | ⟨h, -⟩
  · exact h
  · exact Result.noConfusion h

/-- A data frame `data` of byte slots `slots`; where `reads` holds, `RBUF` ends as the bytes of its slots. -/
def DataFrame (slots : List ByteSlot) (reads : Prop) (data : State → Result × State) : Prop :=
  ∀ u, ∃ evs, FrameRan slots u (data u).2 (data u).1 evs ∧
    (reads → (data u).1 = .ok → (data u).2.rbuf = slotBytes (slotValues (sampleBits evs)))

theorem noData_frame : DataFrame [] False noData := fun u => ⟨[], noData_ran u, False.elim⟩

theorem sendPayload_frame (p : List Byte) : DataFrame (sentSlots p true) False (sendPayload p) := fun u =>
  let ⟨evs, h⟩ := sendPayload_ran p u
  ⟨evs, h, False.elim⟩

theorem recvFrame_frame (n : Nat) : DataFrame (receivedSlots n) True (recvFrame n) := fun u =>
  let ⟨evs, h, hb⟩ := recvFrame_ran n u
  ⟨evs, h, fun _ => hb⟩

/-- The inside of the guard (R174, R182): the header, then the byte slots of the two frames. -/
theorem transactionBody_ran (frame : List Byte) (final : Bit) (data : State → Result × State) (slots : List ByteSlot)
    (reads : Prop) (s : State) (hdata : DataFrame slots reads data) :
    ∃ hdr evs, Ran s (transactionBody frame final data s).2 (hdr ++ evs) ∧
      hdr.map eraseSample = headerShape s.timing ∧ (sampleBits hdr).length = 20 ∧
      FrameOutcome s.timing (sentSlots frame final ++ slots) evs (transactionBody frame final data s).1 ∧
      (reads → (transactionBody frame final data s).1 = .ok → (transactionBody frame final data s).2.rbuf =
        (slotBytes (slotValues (sampleBits evs))).drop frame.length) ∧
      (transactionBody frame final data s).2.guard = s.guard ∧
      (transactionBody frame final data s).2.dir = .output ∧ (transactionBody frame final data s).2.lvl = true := by
  obtain ⟨hdr, hh, hhs, hhn, hhd, hhl⟩ := startHeader_ran s
  obtain ⟨xs, hf⟩ := sendFrame_ran frame final (startHeader s)
  simp only [transactionBody]
  rcases hres : sendFrame frame final (startHeader s) with ⟨r, t⟩
  rw [hres] at hf
  have ho := hh.timing ▸ hf.outcome
  rcases ho.result with hr | hr
  · simp only at hr
    subst hr
    obtain ⟨ys, hd, hbuf⟩ := hdata t
    refine ⟨hdr, xs ++ ys, hh.toRan.trans (hf.toRan.trans hd.toRan), hhs, hhn, ?_, ?_, ?_, hd.dir (hf.dir hhd),
      hd.lvl (hf.lvl hhl)⟩
    · exact FrameOutcome.append ho ((hf.timing.trans hh.timing) ▸ hd.outcome)
    · intro h1 h2
      have hn : (sampleBits xs).length = 20 * frame.length := by
        have h3 := FrameOutcome.samples ho
        rwa [sentSlots_length] at h3
      have hlen := slotBytes_length (sampleBits xs) frame.length hn
      rw [sampleBits_append, bytes_append _ _ _ hn, List.drop_left' hlen]
      exact hbuf h1 h2
    · exact hd.guard.trans (hf.guard.trans hh.guard)
  · simp only at hr
    subst hr
    exact ⟨hdr, xs, hh.toRan.trans hf.toRan, hhs, hhn, FrameOutcome.fail slots ho, fun _ h => Result.noConfusion h,
      hf.guard.trans hh.guard, hf.dir hhd, hf.lvl hhl⟩

/-- A header and the byte slots after it, between `LOCK` and `UNLOCK`: what was read after the header (R84). -/
theorem frameRead_of_samples {lead hdr evs : List Event} (hnone : sampleBits lead = [])
    (hn : (sampleBits hdr).length = 20) :
    frameAcks (lead ++ (.lock :: (hdr ++ evs) ++ [.unlock])) = acknowledgements (slotValues (sampleBits evs)) ∧
      frameBytes (lead ++ (.lock :: (hdr ++ evs) ++ [.unlock])) = slotBytes (slotValues (sampleBits evs)) := by
  have h1 : sampleBits (lead ++ (.lock :: (hdr ++ evs) ++ [.unlock])) = sampleBits hdr ++ sampleBits evs := by
    simp [hnone, sampleBits]
  obtain ⟨a, b, c, d, e, f, g, i, m, n, hv⟩ := ten_values _ (slotValues_length (sampleBits hdr) 10 hn)
  constructor
  · rw [frameAcks, h1, acks_append _ _ 1 (by omega), hv]
    rfl
  · rw [frameBytes, h1, bytes_append _ _ 1 (by omega), hv]
    rfl

/-- A header and the byte slots after it, between `LOCK` and `UNLOCK`, are a transaction (R84, R220). -/
theorem transaction_of_outcome {t : Timing} {lead leadShape hdr evs : List Event} {slots : List ByteSlot} {r : Result}
    (hlead : lead.map eraseSample = leadShape) (hnone : sampleBits lead = [])
    (hh : hdr.map eraseSample = headerShape t) (hn : (sampleBits hdr).length = 20) (ho : FrameOutcome t slots evs r) :
    Transaction t leadShape slots (lead ++ (.lock :: (hdr ++ evs) ++ [.unlock])) r := by
  have hacks := (frameRead_of_samples (evs := evs) hnone hn).1
  have hshape : ∀ bs, evs.map eraseSample = bs.flatMap (byteShape t) →
      (lead ++ (Event.lock :: (hdr ++ evs) ++ [Event.unlock])).map eraseSample = leadShape ++ guardedShape t bs := by
    intro bs h
    simp only [List.map_append, List.map_cons, List.map_nil, hlead, hh, h, guardedShape, List.append_assoc,
      List.cons_append]
    rfl
  rcases ho with ⟨hr, he, -, hk⟩ | ⟨hr, k, hlt, he, -, hk⟩
  · exact Or.inl ⟨hr, hshape _ he, by rw [hacks, hk]⟩
  · exact Or.inr ⟨hr, k, hlt, hshape _ he, by rw [hacks, hk]⟩

theorem takeGuard_ran (s : State) : Ran s (takeGuard s) [.lock] :=
  ⟨rfl, rfl, rfl, rfl, rfl, rfl, rfl, rfl, rfl, rfl, rfl, rfl, rfl, emit_keeps _ { s with guard := true }⟩

theorem unlock_ran (s : State) : Ran s (unlock s) [.unlock] :=
  ⟨rfl, rfl, rfl, rfl, rfl, rfl, rfl, rfl, rfl, rfl, rfl, rfl, rfl, emit_keeps _ { s with guard := false }⟩

/-- What a guarded transaction body does after events `lead` without a sample (R173, R174, R225); it faults only at
`GUARD = 1` (R172). -/
theorem guarded_ran (frame : List Byte) (final : Bit) (data : State → Result × State) (slots : List ByteSlot)
    (reads : Prop) (s0 s : State) (lead : List Event) (hlead : Ran s0 s lead) (hnone : sampleBits lead = [])
    (hdata : DataFrame slots reads data) (hg : s.guard = false) :
    ∃ r t evs, guarded (transactionBody frame final data) s = .ok (r, t) ∧ Ran s0 t evs ∧
      Transaction s0.timing (lead.map eraseSample) (sentSlots frame final ++ slots) evs r ∧
      (reads → r = .ok → t.rbuf = (frameBytes evs).drop frame.length) ∧
      t.guard = false ∧ t.dir = .output ∧ t.lvl = true := by
  have hl : lock s = .ok (takeGuard s) := by simp [lock, hg]
  obtain ⟨hdr, evs, hb, hh, hn, ho, hbuf, -, hd, hlv⟩ :=
    transactionBody_ran frame final data slots reads (takeGuard s) hdata
  have ht : (takeGuard s).timing = s0.timing := hlead.timing
  have hg1 := frameRead_of_samples (lead := lead) (evs := evs) hnone hn
  rw [ht] at hh ho
  refine ⟨_, unlock (transactionBody frame final data (takeGuard s)).2, lead ++ (.lock :: (hdr ++ evs) ++ [.unlock]), by rw [guarded, hl],
    hlead.trans (((takeGuard_ran s).trans hb).trans (unlock_ran _)),
    transaction_of_outcome rfl hnone hh hn ho, ?_, rfl, hd, hlv⟩
  intro h2 h3
  rw [hg1.2]
  exact hbuf h2 h3

/-- What one transaction that opens with a standby pulse does (R180): its result, its events, the line it leaves. -/
theorem transact_ran (frame payload : List Byte) (final : Bit) (data : State → Result × State) (slots : List ByteSlot)
    (reads : Prop) (s : State) (hdata : DataFrame slots reads data) (hg : s.guard = false) :
    ∃ r t evs, transact frame payload final data s = .ok (r, t) ∧ Ran s t evs ∧
      Transaction s.timing (standbyShape s.timing) (sentSlots frame final ++ slots) evs r ∧
      (reads → r = .ok → t.rbuf = (frameBytes evs).drop frame.length) ∧
      t.guard = false ∧ t.dir = .output ∧ t.lvl = true := by
  obtain ⟨hp, hpd, hpl⟩ := standbyPulse_ran (loadWbuf (frame ++ payload) s)
  have hp' : Ran s (standbyPulse (loadWbuf (frame ++ payload) s)) (standbyShape s.timing) :=
    ⟨hp.trace, hp.devaddr, hp.timing, hp.params, hp.addr, hp.len, hp.seq, hp.result, hp.pollcnt, hp.host, hp.done,
      hp.rdata, hp.epoch, hp.mem⟩
  exact guarded_ran frame final data slots reads s _ _ hp' rfl hdata (hp.guard.trans hg)

end Sys2Proof.Machine
end

