-- ==== Sys2Proof/Laws/Commands.lean ====
section
/-! SUPPORT. What the last step of a command, a poll, the turns of WAIT_WIP and the chunks of PAGED_WRITE do: each
said once, for every outcome (44_commands.md). -/

namespace Sys2Proof.Machine

open Sys2Proof.Safety

/-- A command that ended without data. -/
theorem ret_ended (r : Result) {t : State} (hg : t.guard = false) (hd : t.dir = .output) (hl : t.lvl = true) :
    Ended (ret r t) r none := ⟨⟨rfl, hd, hl, hg⟩, rfl, rfl, rfl⟩

/-- A command that ended with data. -/
theorem retData_ended {t : State} (hg : t.guard = false) (hd : t.dir = .output) (hl : t.lvl = true) :
    Ended (retData t) .ok (some t.rbuf) := ⟨⟨rfl, hd, hl, hg⟩, rfl, rfl, rfl⟩

theorem Ran.ret {s t : State} {evs : List Event} (h : Ran s t evs) (r : Result) :
    (ret r t).events = s.events ++ evs := h.events

theorem Ran.frame {s t : State} {evs : List Event} (h : Ran s t evs) : CommandFrame s t :=
  ⟨h.devaddr, h.timing, h.params, h.host, fun ha => by rw [h.mem.2 ha]⟩

theorem Ran.slaveKept {s t : State} {evs : List Event} (h : Ran s t evs) : SlaveKept s t := h.mem.2

theorem commandFrame_trans {s t u : State} (h : CommandFrame s t) (k : CommandFrame t u) : CommandFrame s u := by
  refine ⟨k.devaddr.trans h.devaddr, k.timing.trans h.timing, k.params.trans h.params, k.host.trans h.host, fun ha => ?_⟩
  have h1 := h.slave ha
  have h2 := k.slave (by rw [h1]; exact ha)
  rw [h1] at h2
  exact h2

theorem commandFrame_losePage (a : Addr) (s : State) : CommandFrame s (losePage a s) :=
  ⟨losePage_devaddr s a, losePage_timing s a, losePage_params s a, losePage_host s a,
    fun ha => ((losePage_keepsBut a s).2 ha).1⟩

/-- What a command that writes may leave unspecified after its last event `u`: where it ended with `NOSAK`, the page of
the WRITE whose address is in `ADDR` (R58, R201). -/
def PageLost (r : Result) (u t : State) : Prop := t = u ∨ (r = .nosak ∧ t = losePage u.addr u)

theorem addrPlus_zero (a : Addr) : addrPlus a 0 = a := by simp [addrPlus]

theorem addrPlus_add (a : Addr) (c d : Nat) : addrPlus (addrPlus a c) d = addrPlus a (c + d) := by
  simp [addrPlus, BitVec.ofNat_add, BitVec.add_assoc]

theorem endWrite_pageLost {a : Addr} (r : Result) {u : State} (ha : u.addr = a) : PageLost r u (endWrite a r u) := by
  subst ha
  rcases endWrite_cases u.addr r u with ⟨-, h⟩ | ⟨hr, h⟩
  · exact Or.inl h
  · exact Or.inr ⟨hr, h⟩

/-- `u`, the page of the WRITE at `lost` unspecified, where there is one (R58). -/
def lostAt (lost : Option Addr) (u : State) : State :=
  match lost with
  | none => u
  | some b => losePage b u

theorem lostAt_pageLost {r : Result} {lost : Option Addr} {u : State} (h : ∀ b, lost = some b → r = .nosak ∧ b = u.addr) :
    PageLost r u (lostAt lost u) := by
  cases lost with
  | none => exact Or.inl rfl
  | some b =>
    obtain ⟨hr, hb⟩ := h b rfl
    exact Or.inr ⟨hr, by rw [hb]; rfl⟩

/-- The page that is lost reads as free values (R58). -/
theorem lostAt_unspecified {b : Addr} {u : State} (w : Memory.wf u.env.slave.mem = true) :
    PageUnspecified u.epoch b (lostAt (some b) u) := fun x hx =>
  losePage_inside b u w x (by simp only [pageStart, Config.page] at *; omega)

theorem PageLost.frame {r : Result} {u t : State} (h : PageLost r u t) : CommandFrame u t := by
  rcases h with rfl | ⟨-, rfl⟩
  · exact ⟨rfl, rfl, rfl, rfl, fun _ => rfl⟩
  · exact commandFrame_losePage _ _

/-- The page, where the command ended with `NOSAK`. -/
def pageOf (r : Result) (a : Addr) : Option Addr := if r = .nosak then some a else none

/-- What the end of a WRITE loses, said by its page. -/
theorem lostAt_pageOf (r : Result) (a : Addr) (u : State) : lostAt (pageOf r a) u = endWrite a r u := by
  cases r <;> rfl

theorem PageLost.keeps {r : Result} {u t : State} (h : PageLost r u t) : EnvKeepsBut (pageOf r u.addr) u.env t.env := by
  rcases h with rfl | ⟨hr, rfl⟩
  · exact EnvKeepsBut.refl _ _
  · rw [pageOf, if_pos hr]
    exact losePage_keepsBut _ _

theorem PageLost.of_ne {r : Result} {u t : State} (h : PageLost r u t) (hr : r ≠ .nosak) : t = u := by
  rcases h with h | ⟨h, -⟩
  · exact h
  · exact absurd h hr

/-- What is lost leaves everything else of the master. -/
theorem PageLost.rest {r : Result} {u t : State} (h : PageLost r u t) : t = { u with env := t.env } := by
  rcases h with rfl | ⟨-, rfl⟩ <;> rfl

/-- The frame of a command that writes (R58). -/
theorem PageLost.writeFrame {a : Addr} {n : Nat} {r : Result} {s u t : State} (h : PageLost r u t)
    (hs : SlaveKept s u) : WriteFrame a n r s t := by
  unfold WriteFrame
  rcases h with rfl | ⟨hr, rfl⟩
  · split <;> exact fun ha _ x _ => by rw [hs ha]
  · rw [if_pos hr]
    intro ha hw x hx
    have h1 := hs ha
    rw [losePage_outside u.addr u (by rw [h1]; exact hw) x hx, h1]

theorem commandFrame_ret {s t : State} (r : Result) (h : CommandFrame s t) : CommandFrame s (ret r t) :=
  commandFrame_trans h ⟨rfl, rfl, rfl, rfl, fun _ => rfl⟩

theorem commandFrame_retData {s t : State} (h : CommandFrame s t) : CommandFrame s (retData t) :=
  commandFrame_trans h ⟨rfl, rfl, rfl, rfl, fun _ => rfl⟩

/-- One transaction as a whole command without data, from `u` with a free guard (R180). -/
theorem conclude_transact (frame payload : List Byte) (final : Bit) (data : State → Result × State) (slots : List ByteSlot)
    (reads : Prop) (u : State) (hdata : DataFrame slots reads data) (hg : u.guard = false) :
    ∃ t evs r, conclude (transact frame payload final data u) = .next (ret r t) ∧ Ran u t evs ∧
      Transaction u.timing (standbyShape u.timing) (sentSlots frame final ++ slots) evs r ∧
      t.guard = false ∧ t.dir = .output ∧ t.lvl = true := by
  obtain ⟨r, t, evs, h, hr, ht, -, hgd⟩ := transact_ran frame payload final data slots reads u hdata hg
  exact ⟨t, evs, r, by rw [h]; rfl, hr, ht, hgd⟩

/-- One transaction as a whole command that returns data (R180, R226). -/
theorem concludeData_transact (frame payload : List Byte) (final : Bit) (n : Nat) (u : State) (hg : u.guard = false) :
    ∃ t evs r, concludeData (transact frame payload final (recvFrame n) u) = .next (if r = .ok then retData t else ret r t) ∧
      Ran u t evs ∧
      Transaction u.timing (standbyShape u.timing) (sentSlots frame final ++ receivedSlots n) evs r ∧
      (r = .ok → t.rbuf = (frameBytes evs).drop frame.length) ∧
      t.guard = false ∧ t.dir = .output ∧ t.lvl = true := by
  obtain ⟨r, t, evs, h, hr, ht, hb, hgd⟩ := transact_ran frame payload final (recvFrame n) _ True u (recvFrame_frame n) hg
  refine ⟨t, evs, r, ?_, hr, ht, hb trivial, hgd⟩
  rw [h]
  cases r <;> rfl

theorem sampleBits_erase_length (evs : List Event) :
    (sampleBits (evs.map eraseSample)).length = (sampleBits evs).length := by
  induction evs with
  | nil => rfl
  | cons e rest ih => cases e <;> simp [eraseSample, sampleBits, ih]

theorem sampleBits_byteShape (t : Timing) (b : ByteSlot) : (sampleBits (byteShape t b)).length = 20 := by
  cases b <;> rfl

theorem sampleBits_slots (t : Timing) (slots : List ByteSlot) :
    (sampleBits (slots.flatMap (byteShape t))).length = 20 * slots.length := by
  induction slots with
  | nil => rfl
  | cons b rest ih =>
    rw [List.flatMap_cons, sampleBits_append, List.length_append, ih, sampleBits_byteShape, List.length_cons]
    omega

theorem sampleBits_guardedShape (t : Timing) (slots : List ByteSlot) :
    (sampleBits (guardedShape t slots)).length = 20 * (slots.length + 1) := by
  have h1 : sampleBits (guardedShape t slots) =
      sampleBits (byteShape t (.sent Config.startHeader true)) ++ sampleBits (slots.flatMap (byteShape t)) := by
    simp [guardedShape, headerShape, sampleBits, sampleBits_append]
  rw [h1, List.length_append, sampleBits_byteShape, sampleBits_slots]
  omega

/-- An acknowledged transaction read as many bytes as it has byte slots. -/
theorem Transaction.frameBytes_length {t : Timing} {lead : List Event} {slots : List ByteSlot} {evs : List Event}
    (h : Transaction t lead slots evs .ok) (hlead : sampleBits lead = []) : (frameBytes evs).length = slots.length := by
  rcases h with ⟨-, he, -⟩ | ⟨h, -⟩
  · have hn : (sampleBits evs).length = 20 * (slots.length + 1) := by
      rw [← sampleBits_erase_length, he, sampleBits_append, hlead, List.nil_append, sampleBits_guardedShape]
    rw [frameBytes, List.length_drop, slotBytes_length _ _ hn]
    omega
  · exact absurd h (by decide)

/-- POLL (R197), after the gap before it. -/
theorem poll_ran (s : State) (hg : s.guard = false) :
    ∃ r t evs, poll (gap s) = .ok (r, t) ∧ Ran s t evs ∧ PollTurn s.timing s.devaddr evs r ∧
      (r = .ok → statusBusy t = turnBusy evs) ∧ t.guard = false ∧ t.dir = .output ∧ t.lvl = true := by
  have hgap := gap_ran s
  have h0 : Ran s (loadWbuf (cmdframe2 s.devaddr .rdsr) (gap s)) [.dly (requestedDelay s.timing .gap)] :=
    ⟨hgap.trace, hgap.devaddr, hgap.timing, hgap.params, hgap.addr, hgap.len, hgap.seq, hgap.result, hgap.pollcnt,
      hgap.host, hgap.done, hgap.rdata, hgap.epoch, hgap.mem⟩
  obtain ⟨r, t, evs, h, hr, ht, hb, hgd⟩ := guarded_ran (cmdframe2 s.devaddr .rdsr) false (recvFrame 1) _ True s _ _
    h0 rfl (recvFrame_frame 1) (hgap.guard.trans hg)
  refine ⟨r, t, evs, h, hr, ht, fun hok => ?_, hgd⟩
  have hbuf := hb trivial hok
  have hlen := Transaction.frameBytes_length (hok ▸ ht) rfl
  obtain ⟨x, y, z, hx⟩ : ∃ x y z, frameBytes evs = [x, y, z] := List.length_eq_three.mp hlen
  rw [statusBusy, hbuf, turnBusy, hx]
  rfl

/-- The state with another poll count. -/
def withPolls (n : Nat) (s : State) : State := { s with pollcnt := n }

theorem Ran.withPolls {s t : State} {evs : List Event} (n : Nat) (h : Ran s t evs) :
    Ran (withPolls n s) (withPolls n t) evs :=
  ⟨h.trace, h.devaddr, h.timing, h.params, h.addr, h.len, h.seq, h.result, rfl, h.host, h.done, h.rdata, h.epoch, h.mem⟩

/-- `PollRun` where `c` polls were made before. -/
def PollRunFrom (t : Timing) (d : Byte) (limit : Option Nat) (c : Nat) (turns : List (List Event)) (r : Result) : Prop :=
  (r = .ok ∧ ∃ busy last, turns = busy ++ [last] ∧ (∀ e ∈ busy, BusyTurn t d e) ∧ PollTurn t d last .ok ∧
    turnBusy last = false ∧ ∀ k, limit = some k → c + turns.length ≤ k) ∨
  (r = .nosak ∧ ∃ busy last, turns = busy ++ [last] ∧ (∀ e ∈ busy, BusyTurn t d e) ∧ PollTurn t d last .nosak ∧
    ∀ k, limit = some k → c + turns.length ≤ k) ∨
  (r = .timeout ∧ limit = some (c + turns.length) ∧ ∀ e ∈ turns, BusyTurn t d e)

theorem PollRunFrom.zero {t : Timing} {d : Byte} {limit : Option Nat} {turns : List (List Event)} {r : Result}
    (h : PollRunFrom t d limit 0 turns r) : PollRun t d limit turns r := by
  simpa only [PollRunFrom, PollRun, Nat.zero_add] using h

theorem PollRunFrom.cons {t : Timing} {d : Byte} {limit : Option Nat} {c : Nat} {e : List Event}
    {turns : List (List Event)} {r : Result} (he : BusyTurn t d e) (h : PollRunFrom t d limit (c + 1) turns r) :
    PollRunFrom t d limit c (e :: turns) r := by
  have hlen : c + (e :: turns).length = c + 1 + turns.length := by simp; omega
  rw [PollRunFrom, hlen]
  rcases h with ⟨hr, busy, last, rfl, hb, hp⟩ | ⟨hr, busy, last, rfl, hb, hp⟩ | ⟨hr, hk, hb⟩
  · exact Or.inl ⟨hr, e :: busy, last, rfl, List.forall_mem_cons.mpr ⟨he, hb⟩, hp⟩
  · exact Or.inr (Or.inl ⟨hr, e :: busy, last, rfl, List.forall_mem_cons.mpr ⟨he, hb⟩, hp⟩)
  · exact Or.inr (Or.inr ⟨hr, hk, List.forall_mem_cons.mpr ⟨he, hb⟩⟩)

/-- How the turns of WAIT_WIP leave off. -/
def WaitOutcome (s : State) (turns : Nat) (runs : List (List Event)) (e : Ending) : Prop :=
  (∃ r, e = .ends r ∧ PollRunFrom s.timing s.devaddr s.params.pollLimit s.pollcnt runs r) ∨
  (e = .polling [] ∧ runs.length = turns ∧ (∀ e ∈ runs, BusyTurn s.timing s.devaddr e) ∧
    ∀ k, s.params.pollLimit = some k → s.pollcnt + turns ≤ k)

/-- The turns of WAIT_WIP from a line at rest (R198): every poll is counted, failed or not; it faults nowhere. -/
theorem waitTurns_ran (turns : Nat) (s : State) (hg : s.guard = false)
    (hk : ∀ k, s.params.pollLimit = some k → s.pollcnt ≤ k) :
    ∃ e t runs, waitTurns turns s = .ok (e, t) ∧ Ran (withPolls (s.pollcnt + runs.length) s) t runs.flatten ∧
      WaitOutcome s turns runs e ∧ t.guard = false ∧ (s.dir = .output → t.dir = .output) ∧
      (s.lvl = true → t.lvl = true) := by
  induction turns generalizing s with
  | zero => exact ⟨.polling [], s, [], rfl, Ran.refl s, Or.inr ⟨rfl, rfl, by simp, hk⟩, hg, id, id⟩
  | succ turns ih =>
    simp only [waitTurns]
    split
    · rename_i hlim
      refine ⟨.ends .timeout, s, [], rfl, Ran.refl s, Or.inl ⟨.timeout, rfl, Or.inr (Or.inr ⟨rfl, ?_, by simp⟩)⟩, hg, id, id⟩
      unfold limitReached at hlim
      split at hlim
      · rename_i k hp
        rw [hp, of_decide_eq_true hlim]
        rfl
      · cases hlim
    · rename_i hlim
      have hlt : ∀ k, s.params.pollLimit = some k → s.pollcnt + 1 ≤ k := by
        intro k hp
        have h1 := hk k hp
        have h2 : ¬ s.pollcnt = k := by simpa [limitReached, hp] using hlim
        omega
      obtain ⟨r, t, evs, h, hr, hturn, hbusy, htg, htd, htl⟩ := poll_ran s hg
      have hran : Ran (withPolls (s.pollcnt + 1) s) (countPoll t) evs := hr.pollcnt ▸ hr.withPolls (t.pollcnt + 1)
      rw [h]
      cases r with
      | ok =>
        simp only
        split
        · rename_i hb
          have hbt : BusyTurn s.timing s.devaddr evs := ⟨hturn, (hbusy rfl).symm.trans hb⟩
          obtain ⟨e, u, runs, hu, hru, hout, hline⟩ := ih (countPoll t) htg (by
            intro k hp
            rw [hran.pollcnt]
            exact hlt k (hran.params ▸ hp))
          refine ⟨e, u, evs :: runs, hu, ?_, ?_, hline.1, fun _ => hline.2.1 htd, fun _ => hline.2.2 htl⟩
          · have h1 := hran.withPolls ((countPoll t).pollcnt + runs.length)
            have h2 := h1.trans hru
            have h3 : s.pollcnt + (evs :: runs).length = (countPoll t).pollcnt + runs.length := by
              rw [hran.pollcnt]
              simp [Sys2Proof.Machine.withPolls]
              omega
            rw [h3]
            exact h2
          · have e1 : (countPoll t).timing = s.timing := hran.timing
            have e2 : (countPoll t).devaddr = s.devaddr := hran.devaddr
            have e3 : (countPoll t).params = s.params := hran.params
            have e4 : (countPoll t).pollcnt = s.pollcnt + 1 := hran.pollcnt
            rw [WaitOutcome, e1, e2, e3, e4] at hout
            rcases hout with ⟨r, he, hp⟩ | ⟨he, hn, hall, hlk⟩
            · exact Or.inl ⟨r, he, PollRunFrom.cons hbt hp⟩
            · exact Or.inr ⟨he, by simp [hn], List.forall_mem_cons.mpr ⟨hbt, hall⟩, fun k hp => by
                have := hlk k hp
                omega⟩
        · rename_i hb
          refine ⟨_, _, [evs], rfl, by simpa using hran, Or.inl ⟨.ok, rfl, Or.inl ⟨rfl, [], evs, rfl, by simp, hturn, ?_, ?_⟩⟩,
            htg, fun _ => htd, fun _ => htl⟩
          · exact (hbusy rfl).symm.trans (Bool.not_eq_true _ ▸ hb)
          · exact hlt
      | nosak =>
        exact ⟨_, _, [evs], rfl, by simpa using hran, Or.inl ⟨.nosak, rfl, Or.inr (Or.inl ⟨rfl, [], evs, rfl, by simp,
          hturn, hlt⟩)⟩, htg, fun _ => htd, fun _ => htl⟩
      | _ =>
        rcases hturn with ⟨h, -⟩ | ⟨h, -⟩ <;> cases h

/-- WAIT_WIP where a limit is set: it has its result (R198, R199). -/
theorem waitOp_limited (s : State) (k : Nat) (hk : s.params.pollLimit = some k) (hg : s.guard = false) :
    ∃ r t runs, waitOp s = .ok (.ends r, t) ∧ Ran (withPolls runs.length s) t runs.flatten ∧
      PollRun s.timing s.devaddr s.params.pollLimit runs r ∧ t.guard = false ∧ (s.dir = .output → t.dir = .output) ∧
      (s.lvl = true → t.lvl = true) := by
  obtain ⟨e, t, runs, h, hr, hout, hline⟩ :=
    waitTurns_ran (turnsPerRun s) (pollStart s) hg (fun _ _ => Nat.zero_le _)
  have hz : (pollStart s).pollcnt + runs.length = runs.length := Nat.zero_add _
  rw [hz] at hr
  rcases hout with ⟨r, rfl, hp⟩ | ⟨-, -, -, hlk⟩
  · exact ⟨r, t, runs, h, hr, PollRunFrom.zero hp, hline⟩
  · have h1 := hlk k hk
    simp only [turnsPerRun, hk, pollStart_pollcnt] at h1
    omega

/-- The first turn of WAIT_WIP without a limit (R200). -/
theorem waitOp_unlimited (s : State) (hk : s.params.pollLimit = none) (hg : s.guard = false) :
    ∃ e t evs r, waitOp s = .ok (e, t) ∧ Ran (withPolls 1 s) t evs ∧ PollTurn s.timing s.devaddr evs r ∧
      e = (if r = .ok ∧ turnBusy evs = true then .polling [] else .ends r) ∧
      t.guard = false ∧ t.dir = .output ∧ t.lvl = true := by
  have hn : limitReached (pollStart s) = false := by simp [limitReached, hk]
  have ht : turnsPerRun s = 1 := by simp [turnsPerRun, hk]
  obtain ⟨r, t, evs, h, hr, hturn, hbusy, htg, htd, htl⟩ := poll_ran (pollStart s) hg
  have hran : Ran (withPolls 1 s) (countPoll t) evs := by
    have h1 := hr.withPolls (t.pollcnt + 1)
    have h0 : t.pollcnt + 1 = 1 := congrArg (· + 1) hr.pollcnt
    show Ran (withPolls 1 s) (withPolls (t.pollcnt + 1) t) evs
    rw [h0] at h1 ⊢
    exact h1
  have hw : waitOp s = .ok (if r = .ok ∧ turnBusy evs = true then .polling [] else .ends r, countPoll t) := by
    rw [waitOp, ht]
    simp only [waitTurns, hn, h, Bool.false_eq_true, if_false]
    cases r with
    | ok =>
      have hb : statusBusy (countPoll t) = turnBusy evs := hbusy rfl
      simp only [hb, true_and]
      split <;> rfl
    | _ => rfl
  exact ⟨_, countPoll t, evs, r, hw, hran, hturn, rfl, htg, htd, htl⟩

/-- WREN (R188). -/
theorem wrenOp_ran (s : State) (hg : s.guard = false) :
    ∃ r t evs, wrenOp s = .ok (r, t) ∧ Ran s t evs ∧ WrenRun s.timing s.devaddr evs r ∧
      t.guard = false ∧ t.dir = .output ∧ t.lvl = true := by
  obtain ⟨r, t, evs, h, hr, ht, -, hline⟩ := transact_ran (cmdframe2 s.devaddr .wren) [] true noData [] False s noData_frame hg
  rw [List.append_nil] at ht
  exact ⟨r, t, evs, h, hr, ht, hline⟩

/-- WRITE after its checks (R186): the events, and the page lost where it was not acknowledged (R58). -/
theorem writeOp_ran (a : Addr) (n : Nat) (p : List Byte) (s : State) (hg : s.guard = false) :
    ∃ r u evs, writeOp a n p s = .ok (r, endWrite a r u) ∧ Ran (loadAddr a n s) u evs ∧
      WriteRun s.timing s.devaddr a p evs r ∧ u.guard = false ∧ u.dir = .output ∧ u.lvl = true := by
  obtain ⟨r, t, evs, h, hr, ht, -, hline⟩ := transact_ran (cmdframe4 s.devaddr .write a) p false (sendPayload p) _ False
    (loadAddr a n s) (sendPayload_frame p) hg
  refine ⟨r, t, evs, ?_, hr, ht, hline⟩
  rw [writeOp, h]
  rfl

theorem chunkLen_pos (a : Addr) {n : Nat} (hn : 1 ≤ n) : 1 ≤ chunkLen a n := by
  have := Nat.mod_lt a.toNat (show 0 < 16 by decide)
  simp only [chunkLen, Config.page]
  omega

theorem chunkLen_le (a : Addr) (n : Nat) : chunkLen a n ≤ n := Nat.min_le_left _ _

/-- A chunk passes both checks of WRITE (R201, R202). -/
theorem chunk_fits (a : Addr) (p : List Byte) (hp : p ≠ []) :
    (p.take (chunkLen a p.length)).length = chunkLen a p.length ∧
      writeBadLen (chunkLen a p.length) (p.take (chunkLen a p.length)) = false ∧
      crossesPage a (chunkLen a p.length) = false := by
  have h1 : 1 ≤ chunkLen a p.length := chunkLen_pos a (List.length_pos_iff.mpr hp)
  have h2 := chunkLen_le a p.length
  have h3 : (p.take (chunkLen a p.length)).length = chunkLen a p.length := by simp [h2]
  refine ⟨h3, ?_, ?_⟩
  · have h0 : decide (chunkLen a p.length = 0) = false := decide_eq_false (by omega)
    rw [writeBadLen, h0, Bool.false_or, decide_eq_false_iff_not]
    exact fun h => h h3
  · have := Nat.mod_lt a.toNat (show 0 < 16 by decide)
    refine decide_eq_false (fun h => ?_)
    simp only [chunkLen, Config.page] at h
    omega

/-- The state with other operands. -/
def withOperands (a : Addr) (n c : Nat) (s : State) : State := { s with addr := a, len := n, pollcnt := c }

theorem Ran.withOperands {s t : State} {evs : List Event} (a : Addr) (n c : Nat) (h : Ran s t evs) :
    Ran (withOperands a n c s) (withOperands a n c t) evs :=
  ⟨h.trace, h.devaddr, h.timing, h.params, rfl, rfl, h.seq, h.result, rfl, h.host, h.done, h.rdata, h.epoch, h.mem⟩

/-- A state is what it is with its own operands. -/
theorem Ran.operands {s t : State} {evs : List Event} (h : Ran s t evs) :
    Ran (Sys2Proof.Machine.withOperands t.addr t.len t.pollcnt s) t evs := h.withOperands t.addr t.len t.pollcnt

/-- One chunk of PAGED_WRITE: WREN, then WRITE (R201). -/
theorem chunkOp_ran (a : Addr) (p : List Byte) (hp : p ≠ []) (s : State) (hg : s.guard = false) :
    ∃ r u evs lost, chunkOp a (p.take (chunkLen a p.length)) s = .ok (r, lostAt lost u) ∧
      Ran (withOperands u.addr u.len u.pollcnt s) u evs ∧ (s.addr = a → u.addr = a) ∧
      ((r = .nosak ∧ lost = none ∧ WrenRun s.timing s.devaddr evs .nosak) ∨
       ∃ e1 e2, evs = e1 ++ e2 ∧ WrenRun s.timing s.devaddr e1 .ok ∧
         WriteRun s.timing s.devaddr a (p.take (chunkLen a p.length)) e2 r ∧ lost = pageOf r a) ∧
      u.guard = false ∧ u.dir = .output ∧ u.lvl = true := by
  have hlen := (chunk_fits a p hp).1
  obtain ⟨r, t, e1, h, hr, hw, hline⟩ := wrenOp_ran s hg
  have hr' := hw
  rcases hr' with ⟨rfl, -⟩ | ⟨rfl, -⟩
  · obtain ⟨r2, u, e2, h2, hr2, hw2, hline2⟩ := writeOp_ran a (chunkLen a p.length) (p.take (chunkLen a p.length)) t hline.1
    have et : t.timing = s.timing := hr.timing
    have ed : t.devaddr = s.devaddr := hr.devaddr
    rw [et, ed] at hw2
    refine ⟨r2, u, e1 ++ e2, pageOf r2 a, ?_, (hr.withOperands u.addr u.len u.pollcnt).trans hr2.operands,
      fun _ => hr2.addr, Or.inr ⟨e1, e2, rfl, hw, hw2, rfl⟩, hline2⟩
    rw [chunkOp, h, hlen, lostAt_pageOf]
    exact h2
  · refine ⟨.nosak, t, e1, none, ?_, hr.operands, fun h => hr.addr.trans h, Or.inl ⟨rfl, rfl, hw⟩, hline⟩
    rw [chunkOp, h]
    rfl

/-- Operands written on the way do not matter where they are written again. -/
theorem Ran.chain {s t u : State} {xs ys : List Event} {n : Nat}
    (h : Ran (Sys2Proof.Machine.withOperands t.addr t.len t.pollcnt s) t xs) (k : Ran (Sys2Proof.Machine.withPolls n t) u ys) :
    Ran (Sys2Proof.Machine.withOperands u.addr u.len u.pollcnt s) u (xs ++ ys) :=
  (h.withOperands u.addr u.len u.pollcnt).trans k.operands

theorem Ran.chainOperands {s t u : State} {xs ys : List Event}
    (h : Ran (Sys2Proof.Machine.withOperands t.addr t.len t.pollcnt s) t xs)
    (k : Ran (Sys2Proof.Machine.withOperands u.addr u.len u.pollcnt t) u ys) :
    Ran (Sys2Proof.Machine.withOperands u.addr u.len u.pollcnt s) u (xs ++ ys) :=
  (h.withOperands u.addr u.len u.pollcnt).trans k

theorem PollRun.nosak_or_ok {t : Timing} {d : Byte} {evs : List Event} {r : Result} (h : PollTurn t d evs r)
    (hr : r ≠ .ok ∨ turnBusy evs = false) : PollRun t d none [evs] r := by
  rcases h.symm with ⟨rfl, -⟩ | ⟨rfl, -⟩
  · exact Or.inr (Or.inl ⟨rfl, [], evs, rfl, by simp, h, by simp⟩)
  · refine Or.inl ⟨rfl, [], evs, rfl, by simp, h, ?_, by simp⟩
    rcases hr with hr | hr
    · exact absurd rfl hr
    · exact hr

/-- The chunk at which a PAGED_WRITE ended begins inside the payload. -/
theorem PagedRun.before_lt {t : Timing} {d : Byte} {limit : Option Nat} {a : Addr} {p : List Byte} {evs : List Event}
    {r : Result} {before : Nat} {lost : Option Addr} (h : PagedRun t d limit a p evs r before lost) :
    before < p.length := by
  induction h with
  | chunk a p e1 e2 turns e3 r before lost hp h1 h2 h3 h4 ih => rw [List.length_drop] at ih; omega
  | _ => exact List.length_pos_iff.mpr ‹_›

/-- The WRITE that ended with `NOSAK` is that of the chunk at which the command ended. -/
theorem PagedRun.lost_eq {t : Timing} {d : Byte} {limit : Option Nat} {a : Addr} {p : List Byte} {evs : List Event}
    {r : Result} {before : Nat} {lost : Option Addr} (h : PagedRun t d limit a p evs r before lost) (b : Addr)
    (hb : lost = some b) : r = .nosak ∧ b = addrPlus a before := by
  induction h with
  | writeFails a p e1 e2 hp h1 h2 =>
    injection hb with hb
    exact ⟨rfl, by rw [addrPlus_zero, hb]⟩
  | chunk a p e1 e2 turns e3 r before lost hp h1 h2 h3 h4 ih =>
    obtain ⟨hr, hb⟩ := ih hb
    exact ⟨hr, by rw [hb, addrPlus_add]⟩
  | _ => cases hb

theorem PagedRun.pageLost {t : Timing} {d : Byte} {limit : Option Nat} {a : Addr} {p : List Byte} {evs : List Event}
    {r : Result} {before : Nat} {lost : Option Addr} {u : State} (h : PagedRun t d limit a p evs r before lost)
    (hu : u.addr = addrPlus a before) : PageLost r u (lostAt lost u) :=
  lostAt_pageLost (fun b hb => ⟨(PagedRun.lost_eq h b hb).1, (PagedRun.lost_eq h b hb).2.trans hu.symm⟩)

theorem PagedPolls.bounds {t : Timing} {d : Byte} {a : Addr} {p : List Byte} {evs : List Event} {before done : Nat}
    (h : PagedPolls t d a p evs before done) : before < done ∧ done ≤ p.length := by
  induction h with
  | here a p e1 e2 e3 hp h1 h2 h3 => exact ⟨chunkLen_pos a (List.length_pos_iff.mpr hp), chunkLen_le a p.length⟩
  | later a p e1 e2 e3 e4 before done hp h1 h2 h3 hb h4 ih =>
    have := chunkLen_le a p.length
    rw [List.length_drop] at ih
    omega

/-- No payload, no turn (R201). -/
theorem pagedTurns_nil (turns : Nat) (a : Addr) (s : State) : pagedTurns turns a [] s = .ok (.ends .ok, s) := by
  cases turns <;> rfl

/-- The page loop where a limit is set (R201, R202, R229(5)). -/
theorem pagedTurns_limited (turns : Nat) (a : Addr) (p : List Byte) (s : State) (k : Nat) (hp : p ≠ [])
    (hk : s.params.pollLimit = some k) (hn : p.length ≤ turns) (hg : s.guard = false) :
    ∃ r u evs before lost, pagedTurns turns a p s = .ok (.ends r, lostAt lost u) ∧
      Ran (withOperands u.addr u.len u.pollcnt s) u evs ∧
      PagedRun s.timing s.devaddr s.params.pollLimit a p evs r before lost ∧ u.addr = addrPlus a before ∧
      u.guard = false ∧ u.dir = .output ∧ u.lvl = true := by
  induction turns generalizing a p s with
  | zero => exact absurd (List.length_eq_zero_iff.mp (by omega)) hp
  | succ turns ih =>
    have hpe : p.isEmpty = false := by simpa using hp
    obtain ⟨r, t, e12, lost, h, hr, hat, hout, hline⟩ := chunkOp_ran a p hp (loadAddr a p.length s) hg
    replace hat : t.addr = addrPlus a 0 := (hat rfl).trans (addrPlus_zero a).symm
    change Ran (withOperands t.addr t.len t.pollcnt s) t e12 at hr
    simp only [loadAddr_timing, loadAddr_devaddr] at hout
    simp only [pagedTurns, hpe, h, Bool.false_eq_true, if_false]
    rcases hout with ⟨rfl, rfl, hw⟩ | ⟨e1, e2, rfl, hw1, hw2, rfl⟩
    · exact ⟨.nosak, t, e12, 0, none, rfl, hr, PagedRun.wrenFails a p e12 hp hw, hat, hline⟩
    have hw2' := hw2
    rcases hw2' with ⟨rfl, -⟩ | ⟨rfl, -⟩
    swap
    · exact ⟨.nosak, t, _, 0, some a, rfl, hr, PagedRun.writeFails a p e1 e2 hp hw1 hw2, hat, hline⟩
    have et : t.timing = s.timing := hr.timing
    have ed : t.devaddr = s.devaddr := hr.devaddr
    have ep : t.params = s.params := hr.params
    obtain ⟨r, u, runs, hu, hru, hpoll, hug, hud, hul⟩ := waitOp_limited t k (ep ▸ hk) hline.1
    rw [et, ed, ep] at hpoll
    replace hud := hud hline.2.1
    replace hul := hul hline.2.2
    have hat' : u.addr = addrPlus a 0 := hru.addr.trans hat
    have hsu := hr.chain hru
    simp only [show lostAt (pageOf .ok a) t = t from rfl, hu]
    by_cases hrok : r = .ok
    swap
    · refine ⟨r, u, _, 0, none, ?_, hsu, PagedRun.waitFails a p e1 e2 runs r hp hw1 hw2 hpoll hrok, hat', hug, hud, hul⟩
      cases r <;> first | rfl | exact absurd rfl hrok
    subst hrok
    by_cases hl : p.drop (chunkLen a p.length) = []
    · rw [hl]
      exact ⟨.ok, u, _, 0, none, pagedTurns_nil _ _ _, hsu, PagedRun.lastChunk a p e1 e2 runs hp hl hw1 hw2 hpoll, hat',
        hug, hud, hul⟩
    have et' : u.timing = s.timing := hru.timing.trans et
    have ed' : u.devaddr = s.devaddr := hru.devaddr.trans ed
    have ep' : u.params = s.params := hru.params.trans ep
    have hc := chunkLen_pos a (List.length_pos_iff.mpr hp)
    obtain ⟨r, v, e3, before, lost, hv, hrv, hrun, hat3, hline3⟩ := ih (addrPlus a (chunkLen a p.length))
      (p.drop (chunkLen a p.length)) u hl (ep' ▸ hk) (by simp; omega) hug
    rw [et', ed', ep'] at hrun
    exact ⟨r, v, _, _, lost, hv, hsu.chainOperands hrv,
      PagedRun.chunk a p e1 e2 runs e3 r before lost hp hw1 hw2 hpoll hrun, hat3.trans (addrPlus_add _ _ _), hline3⟩

/-- The page loop without a limit: it has its result, or it polls after one of its chunks (R200, R201; log 19). -/
theorem pagedTurns_unlimited (turns : Nat) (a : Addr) (p : List Byte) (s : State) (hp : p ≠ [])
    (hk : s.params.pollLimit = none) (hn : p.length ≤ turns) (hg : s.guard = false) :
    ∃ e u t evs before, pagedTurns turns a p s = .ok (e, t) ∧ Ran (withOperands u.addr u.len u.pollcnt s) u evs ∧
      u.addr = addrPlus a before ∧
      ((∃ r lost, e = .ends r ∧ t = lostAt lost u ∧ PagedRun s.timing s.devaddr none a p evs r before lost) ∨
       (∃ done, PagedPolls s.timing s.devaddr a p evs before done ∧
         e = .polling [.pages (addrPlus a done) (p.drop done)] ∧ t = u)) ∧
      u.guard = false ∧ u.dir = .output ∧ u.lvl = true := by
  induction turns generalizing a p s with
  | zero => exact absurd (List.length_eq_zero_iff.mp (by omega)) hp
  | succ turns ih =>
    have hpe : p.isEmpty = false := by simpa using hp
    obtain ⟨r, t, e12, lost, h, hr, hat, hout, hline⟩ := chunkOp_ran a p hp (loadAddr a p.length s) hg
    replace hat : t.addr = addrPlus a 0 := (hat rfl).trans (addrPlus_zero a).symm
    change Ran (withOperands t.addr t.len t.pollcnt s) t e12 at hr
    simp only [loadAddr_timing, loadAddr_devaddr] at hout
    simp only [pagedTurns, hpe, h, Bool.false_eq_true, if_false]
    rcases hout with ⟨rfl, rfl, hw⟩ | ⟨e1, e2, rfl, hw1, hw2, rfl⟩
    · exact ⟨.ends .nosak, t, t, e12, 0, rfl, hr, hat,
        Or.inl ⟨.nosak, none, rfl, rfl, PagedRun.wrenFails a p e12 hp hw⟩, hline⟩
    have hw2' := hw2
    rcases hw2' with ⟨rfl, -⟩ | ⟨rfl, -⟩
    swap
    · exact ⟨.ends .nosak, t, _, _, 0, rfl, hr, hat,
        Or.inl ⟨.nosak, some a, rfl, rfl, PagedRun.writeFails a p e1 e2 hp hw1 hw2⟩, hline⟩
    have et : t.timing = s.timing := hr.timing
    have ed : t.devaddr = s.devaddr := hr.devaddr
    have ep : t.params = s.params := hr.params
    obtain ⟨e, u, pe, r, hu, hru, hpoll, he, hline'⟩ := waitOp_unlimited t (ep ▸ hk) hline.1
    rw [et, ed] at hpoll
    have hat' : u.addr = addrPlus a 0 := hru.addr.trans hat
    have hsu := hr.chain hru
    simp only [show lostAt (pageOf .ok a) t = t from rfl, hu]
    have hc := chunkLen_pos a (List.length_pos_iff.mpr hp)
    by_cases hb : r = .ok ∧ turnBusy pe = true
    · rw [if_pos hb] at he
      subst he
      exact ⟨_, u, u, _, 0, rfl, hsu, hat', Or.inr ⟨chunkLen a p.length,
        PagedPolls.here a p e1 e2 pe hp hw1 hw2 ⟨hb.1 ▸ hpoll, hb.2⟩, rfl, rfl⟩, hline'⟩
    rw [if_neg hb] at he
    subst he
    by_cases hrok : r = .ok
    swap
    · have h1 := PagedRun.waitFails a p e1 e2 [pe] r hp hw1 hw2 (PollRun.nosak_or_ok hpoll (Or.inl hrok)) hrok
      refine ⟨.ends r, u, u, _, 0, ?_, hsu, hat', Or.inl ⟨r, none, rfl, rfl, by simpa using h1⟩, hline'⟩
      cases r <;> first | rfl | exact absurd rfl hrok
    subst hrok
    have hpoll1 := PollRun.nosak_or_ok hpoll (Or.inr (by simpa using hb))
    by_cases hl : p.drop (chunkLen a p.length) = []
    · rw [hl]
      have h1 := PagedRun.lastChunk a p e1 e2 [pe] hp hl hw1 hw2 hpoll1
      exact ⟨.ends .ok, u, u, _, 0, pagedTurns_nil _ _ _, hsu, hat',
        Or.inl ⟨.ok, none, rfl, rfl, by simpa using h1⟩, hline'⟩
    have et' : u.timing = s.timing := hru.timing.trans et
    have ed' : u.devaddr = s.devaddr := hru.devaddr.trans ed
    have ep' : u.params = s.params := hru.params.trans ep
    obtain ⟨e, v, v', e3, before, hv, hrv, hat3, hrun, hline3⟩ := ih (addrPlus a (chunkLen a p.length))
      (p.drop (chunkLen a p.length)) u hl (ep' ▸ hk) (by simp; omega) hline'.1
    rw [et', ed'] at hrun
    refine ⟨e, v, v', _, _, hv, hsu.chainOperands hrv, hat3.trans (addrPlus_add _ _ _), ?_, hline3⟩
    rcases hrun with ⟨r, lost, rfl, rfl, hrun⟩ | ⟨done, hrun, rfl, rfl⟩
    · have h1 := PagedRun.chunk a p e1 e2 [pe] e3 r before lost hp hw1 hw2 hpoll1 hrun
      exact Or.inl ⟨r, lost, rfl, rfl, by simpa using h1⟩
    · refine Or.inr ⟨chunkLen a p.length + done,
        PagedPolls.later a p e1 e2 pe e3 before done hp hw1 hw2 hpoll (by simpa using hb) hrun, ?_, rfl⟩
      rw [List.drop_drop, addrPlus_add]

end Sys2Proof.Machine
end

