-- ==== Sys2Proof/Laws/Decode.lean ====
section
/-! SUPPORT. The small laws of the opcode map and of the two address bytes. -/

namespace Sys2Proof

/-- Every opcode is read back from its value (R85). -/
@[simp] theorem decodeOpcode_code (o : Opcode) : decodeOpcode o.code = some o := by cases o <;> rfl

/-- A byte that names an opcode is the value of that opcode (R86). -/
theorem code_of_decodeOpcode (b : Byte) (o : Opcode) (h : decodeOpcode b = some o) : o.code = b := by
  unfold decodeOpcode at h
  repeat' split at h
  all_goals first
    | (injection h with h; subst h; subst b; rfl)
    | exact absurd h (by simp)

/-- `{a[15:8], a[7:0]} = a` (R196(c)). -/
@[simp] theorem addrOf_high_low (a : Addr) : addrOf (addrHigh a) (addrLow a) = a := by
  apply BitVec.eq_of_getLsbD_eq
  intro i hi
  simp only [addrOf, addrHigh, addrLow, BitVec.getLsbD_append, BitVec.getLsbD_extractLsb']
  by_cases h : i < 8
  · simp [h]
  · have h2 : i - 8 < 8 := by omega
    have h3 : 8 + (i - 8) = i := by omega
    simp [h, h2, h3]

@[simp] theorem addrHigh_addrOf (h l : Byte) : addrHigh (addrOf h l) = h := by
  apply BitVec.eq_of_getLsbD_eq
  intro i hi
  have h1 : ¬ 8 + i < 8 := by omega
  have h2 : 8 + i - 8 = i := by omega
  simp only [addrOf, addrHigh, BitVec.getLsbD_extractLsb', BitVec.getLsbD_append, hi, h1, h2, decide_true,
    Bool.true_and, if_false]

@[simp] theorem addrLow_addrOf (h l : Byte) : addrLow (addrOf h l) = l := by
  apply BitVec.eq_of_getLsbD_eq
  intro i hi
  have h1 : 0 + i = i := by omega
  simp only [addrOf, addrLow, BitVec.getLsbD_extractLsb', BitVec.getLsbD_append, hi, h1, decide_true, Bool.true_and,
    if_true]

end Sys2Proof
end

