-- ==== Sys2Proof/Laws/Slave.lean ====
section
/-! SUPPORT. What the bit, byte and frame operations do while the reference slave of 95_test_vectors.md section 3
answers the samples: which state it is left in, what it acknowledges and what is received from it. -/

namespace Sys2Proof.Machine

open Sys2Proof.Safety

/-- The slave between two bit slots. -/
structure Slave.Between (sl : Slave) : Prop where
  answers : sl.answers = true
  second : sl.second = false
  pulse : sl.pulse = .none

/-- A slot that ends leaves the slave between slots, `second` and `pulse` whatever they were. -/
def Slave.nextSlot (sl : Slave) (dir : Dir) (lvl : Bit) : Slave := { sl.slotDone dir lvl with pulse := .none }

theorem Slave.byteDone_marks (sl : Slave) (x : Bit) (q : Pulse) :
    ({ sl with second := x, pulse := q } : Slave).byteDone = { sl.byteDone with second := x, pulse := q } := by
  cases sl with
  | mk answers present saddr mem status k k0 phase slot second shift mak pulse =>
    cases phase <;> simp only [Slave.byteDone, Slave.opcodeRead, Slave.statusRead, Slave.store] <;> (repeat' split) <;>
      first | rfl | simp_all [Slave.acks]

theorem Slave.slotDone_marks (sl : Slave) (x : Bit) (q : Pulse) (dir : Dir) (lvl : Bit) :
    ({ ({ sl with second := x, pulse := q } : Slave).slotDone dir lvl with pulse := .none } : Slave) =
      sl.nextSlot dir lvl := by
  have h := Slave.byteDone_marks sl x q
  simp only [Slave.nextSlot, Slave.slotDone, h]
  split
  · rfl
  · split <;> rfl

theorem Slave.slotDone_second (sl : Slave) (dir : Dir) (lvl : Bit) : (sl.slotDone dir lvl).second = false := by
  unfold Slave.slotDone
  split
  · rfl
  · split <;> rfl

/-- An event that is no sample and no change of level leaves a slave without a pulse as it is. -/
theorem Env.observe_quiet (e : Env) (dir : Dir) (lvl : Bit) (n : Nat) (h : e.slave.pulse = .none) :
    (e.observe dir lvl (.dly n)).slave = e.slave ∧ (e.observe dir lvl .out).slave = e.slave ∧
      (e.observe dir lvl .inp).slave = e.slave := by
  cases e with
  | mk script draws slave =>
    cases slave
    simp only at h
    subst h
    simp only [Env.observe]
    split <;> exact ⟨rfl, rfl, rfl⟩

/-- A level and the delay after it. -/
theorem setLevel_wait_slave (v : Bit) (c : Delay) (s : State) (ha : s.env.slave.answers = true)
    (hp : s.env.slave.pulse = .none) :
    (wait c (setLevel v s)).env.slave = { s.env.slave with pulse := if v then .none else .held } := by
  cases v <;> simp [wait, delay, setLevel, emit, Env.observe, Slave.observe, ha, hp]

/-- The first sample of a slot and the delay after it. -/
theorem sampleA_wait_slave (c : Delay) (s : State) (ha : s.env.slave.answers = true) (h2 : s.env.slave.second = false) :
    (wait c (sampleA s)).env.slave = { s.env.slave with second := true, pulse := .none } ∧
      (wait c (sampleA s)).sa = s.env.slave.level s.dir s.lvl := by
  simp [wait, delay, sampleA, emit, Env.observe, Slave.observe, Env.answer, ha, h2]

/-- The second sample of a slot and the delay after it. -/
theorem sampleB_wait_slave (c : Delay) (s : State) (ha : s.env.slave.answers = true) (h2 : s.env.slave.second = true) :
    (wait c (sampleB s)).env.slave = { s.env.slave.slotDone s.dir s.lvl with pulse := .none } ∧
      (wait c (sampleB s)).sb = s.env.slave.level s.dir s.lvl := by
  have h1 : (sampleB s).env.slave = { s.env.slave.slotDone s.dir s.lvl with pulse := .none } := by
    simp [sampleB, emit, Env.observe, Slave.observe, ha, h2]
  constructor
  · have h3 := (Env.observe_quiet (sampleB s).env (sampleB s).dir (sampleB s).lvl (requestedDelay (sampleB s).timing c)
      (by rw [h1])).1
    rw [← h1, ← h3]
    rfl
  · simp [wait, delay, sampleB, emit, Env.answer, ha]

theorem Slave.level_eq (sl : Slave) (x : Bit) (q : Pulse) (dir : Dir) (lvl : Bit) :
    ({ sl with second := x, pulse := q } : Slave).level dir lvl = (match dir with
      | .output => lvl
      | .input => match sl.presents with
        | some b => if x then b else !b
        | none => true) := rfl

/-- What the slave and the sampled bits are after a bit slot that the slave was between (rules 1, 2 and 4). -/
theorem xferBit_slave (w : Bit) (s : State) (h : s.env.slave.Between) :
    (xferBit w s).env.slave = s.env.slave.nextSlot s.dir w ∧
    (xferBit w s).sa = (match s.dir with
      | .output => !w
      | .input => match s.env.slave.presents with
        | some b => !b
        | none => true) ∧
    (xferBit w s).sb = (match s.dir with
      | .output => w
      | .input => match s.env.slave.presents with
        | some b => b
        | none => true) := by
  obtain ⟨ha, h2, hp⟩ := h
  have e1 := setLevel_wait_slave (!w) .quarter s ha hp
  obtain ⟨e2, a2⟩ := sampleA_wait_slave .quarter (wait .quarter (setLevel (!w) s)) (by rw [e1]; exact ha) (by rw [e1]; exact h2)
  have e3 := setLevel_wait_slave w .quarter (wait .quarter (sampleA (wait .quarter (setLevel (!w) s))))
    (by rw [e2, e1]; exact ha) (by rw [e2])
  obtain ⟨e4, b4⟩ := sampleB_wait_slave .quarter
    (wait .quarter (setLevel w (wait .quarter (sampleA (wait .quarter (setLevel (!w) s))))))
    (by rw [e3, e2, e1]; exact ha) (by rw [e3, e2])
  have hsl : s.env.slave = { s.env.slave with second := false, pulse := .none } := by
    cases hs : s.env.slave
    rw [hs] at h2 hp
    simp only at h2 hp
    subst h2 hp
    rfl
  refine ⟨?_, ?_, ?_⟩
  · have h1 : (xferBit w s).env.slave = _ := e4
    rw [h1, e3, e2, e1]
    exact Slave.slotDone_marks s.env.slave true (if w then .none else .held) s.dir w
  · have h1 : (xferBit w s).sa = _ := a2
    rw [h1, e1, hsl]
    exact Slave.level_eq s.env.slave false _ s.dir (!w)
  · have h1 : (xferBit w s).sb = _ := b4
    rw [h1, e3, e2, e1]
    exact Slave.level_eq s.env.slave true _ s.dir w

/-- RECV_BIT (rule 2). -/
theorem recvBit_slave (s : State) (h : s.env.slave.Between) :
    (recvBit s).env.slave = s.env.slave.nextSlot .input true ∧
    slotValue (recvBit s) = (match s.env.slave.presents with
      | some b => b
      | none => false) := by
  have h0 : (setInput s).env.slave = s.env.slave := (Env.observe_quiet s.env .input s.lvl 0 h.pulse).2.2
  obtain ⟨h1, ha, hb⟩ := xferBit_slave true (setInput s) (by rw [h0]; exact h)
  rw [h0] at h1 ha hb
  have hp : (xferBit true (setInput s)).env.slave.pulse = .none := by rw [h1]; rfl
  have h2 : (recvBit s).env.slave = (xferBit true (setInput s)).env.slave := (Env.observe_quiet _ _ _ 0 hp).2.1
  refine ⟨h2.trans h1, ?_⟩
  have e1 : (recvBit s).sa = (xferBit true (setInput s)).sa := rfl
  have e2 : (recvBit s).sb = (xferBit true (setInput s)).sb := rfl
  rw [slotValue, e1, e2, ha, hb]
  simp only [setInput_dir]
  cases s.env.slave.presents with
  | none => rfl
  | some b => cases b <;> rfl

theorem Slave.nextSlot_driven (sl : Slave) (lvl : Bit) (h : sl.Between) (hs : sl.slot < 8) :
    sl.nextSlot .output lvl = { sl with slot := sl.slot + 1, shift := shiftLeftIn sl.shift lvl } := by
  obtain ⟨-, h2, hp⟩ := h
  cases sl
  simp only at h2 hp hs
  subst h2 hp
  simp [Slave.nextSlot, Slave.slotDone, hs]

theorem Slave.nextSlot_sensed (sl : Slave) (lvl : Bit) (h : sl.Between) (hs : sl.slot < 8) :
    sl.nextSlot .input lvl = { sl with slot := sl.slot + 1 } := by
  obtain ⟨-, h2, hp⟩ := h
  cases sl
  simp only at h2 hp hs
  subst h2 hp
  simp [Slave.nextSlot, Slave.slotDone, hs]

theorem Slave.nextSlot_mak (sl : Slave) (dir : Dir) (lvl : Bit) (h : sl.Between) (hs : sl.slot = 8) :
    sl.nextSlot dir lvl = { sl with slot := 9, mak := lvl } := by
  obtain ⟨-, h2, hp⟩ := h
  cases sl
  simp only at h2 hp hs
  subst h2 hp hs
  simp [Slave.nextSlot, Slave.slotDone]

/-- The loop of SEND_BYTE (rule 4). -/
theorem sendBits_slave (k : Nat) (s : State) (h : s.env.slave.Between) (hd : s.dir = .output)
    (hk : s.env.slave.slot + k ≤ 8) :
    (sendBits k s).env.slave = { s.env.slave with
      slot := s.env.slave.slot + k, shift := (topBits k s.shreg).foldl shiftLeftIn s.env.slave.shift } := by
  induction k generalizing s with
  | zero => rfl
  | succ k ih =>
    have h1 := (xferBit_slave (s.shreg.getLsbD 7) s h).1
    rw [hd, Slave.nextSlot_driven _ _ h (by omega)] at h1
    have h2 : (shiftOut (xferBit (s.shreg.getLsbD 7) s)).env.slave = _ := h1
    have h3 := ih (shiftOut (xferBit (s.shreg.getLsbD 7) s)) (by rw [h2]; exact ⟨h.answers, h.second, h.pulse⟩) hd
      (by rw [h2]; simp only; omega)
    rw [h2] at h3
    rw [sendBits, h3]
    have h4 : (shiftOut (xferBit (s.shreg.getLsbD 7) s)).shreg = shiftLeftIn s.shreg false := rfl
    simp only [h4, topBits, List.foldl_cons]
    congr 1
    omega

/-- What a receive slot reads at slot `j`. -/
def Slave.bitAt (sl : Slave) (j : Nat) : Bit :=
  match ({ sl with slot := j } : Slave).presents with
  | some b => b
  | none => false

/-- The loop of RECV_BYTE (rules 2 and 5). -/
theorem recvBits_slave (k : Nat) (s : State) (h : s.env.slave.Between) (hk : s.env.slave.slot + k ≤ 8) :
    (recvBits k s).env.slave = { s.env.slave with slot := s.env.slave.slot + k } ∧
      (recvBits k s).shreg = ((List.range' s.env.slave.slot k).map s.env.slave.bitAt).foldl shiftLeftIn s.shreg := by
  induction k generalizing s with
  | zero => exact ⟨rfl, rfl⟩
  | succ k ih =>
    obtain ⟨h1, hv⟩ := recvBit_slave s h
    rw [Slave.nextSlot_sensed _ _ h (by omega)] at h1
    have h2 : (shiftIn (recvBit s)).env.slave = _ := h1
    obtain ⟨h3, h4⟩ := ih (shiftIn (recvBit s)) (by rw [h2]; exact ⟨h.answers, h.second, h.pulse⟩)
      (by rw [h2]; simp only; omega)
    rw [h2] at h3 h4
    refine ⟨?_, ?_⟩
    · rw [recvBits, h3]
      simp only
      congr 1
      omega
    · have h5 : (shiftIn (recvBit s)).shreg = shiftLeftIn s.shreg (s.env.slave.bitAt s.env.slave.slot) := by
        show shiftLeftIn s.shreg (slotValue (recvBit s)) = _
        rw [hv]
        rfl
      rw [recvBits, h4, h5, List.range'_succ, List.map_cons, List.foldl_cons]
      rfl

/-- The slave after a byte slot in which it read the byte `v` and the MAK value `m`. -/
def Slave.taken (sl : Slave) (v : Byte) (m : Bit) : Slave :=
  { ({ sl with shift := v, mak := m } : Slave).byteDone with slot := 0, second := false, shift := 0, pulse := .none }

/-- The slave between two byte slots. -/
structure Slave.AtByte (sl : Slave) : Prop extends sl.Between where
  slot : sl.slot = 0
  shift : sl.shift = 0

theorem Slave.nextSlot_last (sl : Slave) (lvl : Bit) (hs : sl.slot = 9) :
    sl.nextSlot .input lvl = { sl.byteDone with slot := 0, second := false, shift := 0, pulse := .none } := by
  simp [Slave.nextSlot, Slave.slotDone, hs]

/-- The MAK and SAK slots (rules 3 and 4). -/
theorem handshake_slave (last : Bit) (s : State) (h : s.env.slave.Between) (hs : s.env.slave.slot = 8)
    (hd : s.dir = .output) :
    (handshake last s).env.slave =
        { ({ s.env.slave with slot := 9, mak := mak last } : Slave).byteDone with
          slot := 0, second := false, shift := 0, pulse := .none } ∧
      (handshake last s).sakf = (s.env.slave.present && s.env.slave.acks) := by
  have h1 := (xferBit_slave (mak last) s h).1
  rw [Slave.nextSlot_mak _ _ _ h hs] at h1
  obtain ⟨h2, hv⟩ := recvBit_slave (xferBit (mak last) s) (by rw [h1]; exact ⟨h.answers, h.second, h.pulse⟩)
  rw [h1, Slave.nextSlot_last _ _ rfl] at h2
  refine ⟨h2, ?_⟩
  have h3 : (handshake last s).sakf = slotValue (recvBit (xferBit (mak last) s)) := rfl
  rw [h3, hv, h1]
  cases hp : s.env.slave.present <;> cases ha : s.env.slave.acks <;>
    simp_all [Slave.presents, Slave.acks]

theorem Slave.byteDone_slot (sl : Slave) (n : Nat) :
    ({ sl with slot := n } : Slave).byteDone = { sl.byteDone with slot := n } := by
  cases sl with
  | mk answers present saddr mem status k k0 phase slot second shift mak pulse =>
    cases phase <;> simp only [Slave.byteDone, Slave.opcodeRead, Slave.statusRead, Slave.store] <;> (repeat' split) <;>
      first | rfl | simp_all [Slave.acks]

theorem Slave.taken_atByte (sl : Slave) (v : Byte) (m : Bit) (h : (sl.taken v m).answers = true) :
    (sl.taken v m).AtByte := ⟨⟨h, rfl, rfl⟩, rfl, rfl⟩

theorem byteOfBits_topBits : ∀ v : Byte, (topBits 8 v).foldl shiftLeftIn 0 = v := by decide +kernel

theorem byteOfBits_select : ∀ b : Byte,
    ((List.range' 0 8).map (fun j => b.getLsbD (7 - j))).foldl shiftLeftIn 0 = b := by decide +kernel

/-- SEND_BYTE to the slave (rule 4). -/
theorem sendByte_slave (v : Byte) (last : Bit) (s : State) (h : s.env.slave.AtByte) (hd : s.dir = .output) :
    (sendByte v last s).env.slave = s.env.slave.taken v (mak last) ∧
      (sendByte v last s).sakf = (s.env.slave.present && ({ s.env.slave with shift := v } : Slave).acks) := by
  have h1 := sendBits_slave 8 (loadShreg v s) h.toBetween hd (by rw [loadShreg_env, h.slot])
  rw [loadShreg_env, loadShreg_shreg, h.slot, h.shift, byteOfBits_topBits] at h1
  have hdir : (sendBits 8 (loadShreg v s)).dir = .output := by
    obtain ⟨evs, -, -, -, h2, -⟩ := sendBits_ran 8 (loadShreg v s)
    exact h2.trans hd
  obtain ⟨h2, h3⟩ := handshake_slave last (sendBits 8 (loadShreg v s))
    (by rw [h1]; exact ⟨h.answers, h.second, h.pulse⟩) (by rw [h1]) hdir
  constructor
  · show (handshake last (sendBits 8 (loadShreg v s))).env.slave = _
    rw [h2, h1]
    have h4 := Slave.byteDone_slot { s.env.slave with shift := v, mak := mak last } 9
    simp only at h4 ⊢
    rw [h4]
    rfl
  · show (handshake last (sendBits 8 (loadShreg v s))).sakf = _
    rw [h3, h1]
    simp [Slave.acks]

theorem Slave.bitAt_eq (sl : Slave) (j : Nat) (b : Byte) (hp : sl.present = true) (hb : sl.sends = some b)
    (hj : j < 8) : sl.bitAt j = b.getLsbD (7 - j) := by
  have h1 : ({ sl with slot := j } : Slave).presents = sl.sends.map (fun b => b.getLsbD (7 - j)) := by
    unfold Slave.presents
    rw [if_neg (by simp [hp]), if_pos hj]
    rfl
  rw [Slave.bitAt, h1, hb]
  rfl

/-- RECV_BYTE from the slave (rule 5). -/
theorem recvByte_slave (last : Bit) (s : State) (h : s.env.slave.AtByte) :
    (recvByte last s).env.slave = s.env.slave.taken 0 (mak last) ∧
      (recvByte last s).sakf = (s.env.slave.present && s.env.slave.acks) ∧
      (∀ b, s.env.slave.present = true → s.env.slave.sends = some b → (recvByte last s).shreg = b) := by
  obtain ⟨h1, h1s⟩ := recvBits_slave 8 (loadShreg 0 s) h.toBetween (by rw [loadShreg_env, h.slot])
  rw [loadShreg_env, h.slot] at h1 h1s
  have hdir : (recvBits 8 (loadShreg 0 s)).dir = .output := by
    obtain ⟨evs, vals, -, -, -, -, -, -, h2⟩ := recvBits_ran 8 (loadShreg 0 s)
    exact h2
  obtain ⟨h2, h3⟩ := handshake_slave last (recvBits 8 (loadShreg 0 s))
    (by rw [h1]; exact ⟨h.answers, h.second, h.pulse⟩) (by rw [h1]) hdir
  refine ⟨?_, ?_, ?_⟩
  · show (handshake last (recvBits 8 (loadShreg 0 s))).env.slave = _
    rw [h2, h1]
    have h4 := Slave.byteDone_slot { s.env.slave with mak := mak last } 9
    simp only at h4 ⊢
    rw [h4]
    have h5 : s.env.slave = { s.env.slave with shift := 0 } := by
      have := h.shift
      cases hs : s.env.slave
      rw [hs] at this
      simp only at this
      subst this
      rfl
    rw [Slave.taken, h5]
  · show (handshake last (recvBits 8 (loadShreg 0 s))).sakf = _
    rw [h3, h1]
    rfl
  · intro b hp hb
    have h6 : (recvByte last s).shreg = (recvBits 8 (loadShreg 0 s)).shreg := rfl
    rw [h6, h1s, loadShreg_shreg]
    have h7 : ∀ j ∈ List.range' 0 8, s.env.slave.bitAt j = b.getLsbD (7 - j) := by
      intro j hj
      have hj8 : j < 8 := by
        have := List.mem_range'_1.mp hj
        omega
      exact Slave.bitAt_eq _ j b hp hb hj8
    rw [List.map_congr_left h7]
    exact byteOfBits_select b

/-- The slave at the start of a command. -/
def Slave.atHeader (sl : Slave) : Slave :=
  { sl with phase := .header, slot := 0, second := false, shift := 0, pulse := .none }

/-- `s` with another slave. -/
def withSlave (sl : Slave) (s : State) : State := { s with env := { s.env with slave := sl } }

/-- The rise that ends a low phase without a sample is seen as a restart (rule 3; log 15). -/
theorem setLevel_restart (s : State) (ha : s.env.slave.answers = true) (hp : s.env.slave.pulse = .held) :
    setLevel true s = setLevel true (withSlave s.env.slave.atHeader s) := by
  simp [setLevel, withSlave, emit, Env.observe, Slave.observe, Slave.restart, Slave.atHeader, ha, hp]

/-- Before a byte whose first bit is 0 a slave that saw such a low phase is at the start of a command. -/
theorem sendByte_restart (v : Byte) (last : Bit) (s : State) (hv : v.getLsbD 7 = false)
    (ha : s.env.slave.answers = true) (hp : s.env.slave.pulse = .held) :
    sendByte v last s = sendByte v last (withSlave s.env.slave.atHeader s) := by
  have h1 := setLevel_restart (loadShreg v s) ha hp
  have h2 : ∀ u : State, sendByte v last (u) = handshake last (sendBits 7 (shiftOut
      (wait .quarter (sampleB (wait .quarter (setLevel (v.getLsbD 7) (wait .quarter (sampleA (wait .quarter
        (setLevel (!v.getLsbD 7) (loadShreg v u))))))))))) := fun _ => rfl
  have h3 : loadShreg v (withSlave s.env.slave.atHeader s) =
      withSlave (loadShreg v s).env.slave.atHeader (loadShreg v s) := rfl
  rw [h2, h2, hv, h3, Bool.not_false, ← h1]

/-- START_HEADER puts the slave at the device-address byte (rule 3). -/
theorem startHeader_slave (s : State) (ha : s.env.slave.answers = true) (hd : s.dir = .output) :
    (startHeader s).env.slave = { s.env.slave with
      phase := .address, slot := 0, second := false, shift := 0, mak := true, pulse := .none } := by
  have h1 : (wait .hdr (setLevel false s)).env.slave = { s.env.slave with pulse := .held } := by
    simp [wait, delay, setLevel, emit, Env.observe, Slave.observe, ha]
  have h2 : startHeader s = sendByte Config.startHeader true
      (withSlave (wait .hdr (setLevel false s)).env.slave.atHeader (wait .hdr (setLevel false s))) :=
    sendByte_restart _ _ _ rfl (by rw [h1]; exact ha) (by rw [h1])
  have h3 := (sendByte_slave Config.startHeader true
    (withSlave (wait .hdr (setLevel false s)).env.slave.atHeader (wait .hdr (setLevel false s)))
    ⟨⟨by rw [h1]; exact ha, rfl, rfl⟩, rfl, rfl⟩ hd).1
  rw [h2, h3, h1]
  rfl

/-- The slave between two byte slots, in phase `ph`. -/
def Slave.put (sl : Slave) (ph : Phase) (m : Bit) : Slave :=
  { sl with phase := ph, slot := 0, second := false, shift := 0, mak := m, pulse := .none }

theorem Slave.put_atByte (sl : Slave) (ph : Phase) (m : Bit) (h : sl.answers = true) : (sl.put ph m).AtByte :=
  ⟨⟨h, rfl, rfl⟩, rfl, rfl⟩

@[simp] theorem Slave.put_put (sl : Slave) (ph ph' : Phase) (m m' : Bit) : (sl.put ph m).put ph' m' = sl.put ph' m' := rfl

/-- The device-address byte (rule 4). -/
theorem Slave.taken_address (sl : Slave) (m m' : Bit) (v : Byte) :
    (sl.put .address m).taken v m' = sl.put (if sl.present && decide (v = sl.saddr) then .opcode else .silent) m' := rfl

theorem Slave.taken_addrHigh (sl : Slave) (m m' : Bit) (v : Byte) (w : Bool) :
    (sl.put (.addrHigh w) m).taken v m' = sl.put (.addrLow w v) m' := rfl

theorem Slave.taken_addrLow (sl : Slave) (m m' : Bit) (v hi : Byte) (w : Bool) :
    (sl.put (.addrLow w hi) m).taken v m' =
      sl.put (if w then .recvData (addrOf hi v).toNat [] else .sendData (addrOf hi v).toNat) m' := rfl

theorem Slave.taken_silent (sl : Slave) (m m' : Bit) (v : Byte) : (sl.put .silent m).taken v m' = sl.put .silent m' := rfl

theorem Slave.taken_sendStatus (sl : Slave) (m m' : Bit) (v : Byte) :
    (sl.put .sendStatus m).taken v m' = sl.statusRead.put .silent m' := by
  unfold Slave.taken Slave.put Slave.byteDone Slave.statusRead
  simp only
  split
  · rfl
  · split <;> rfl

theorem Slave.taken_sendData (sl : Slave) (m : Bit) (v : Byte) (a : Nat) :
    (sl.put (.sendData a) m).taken v true = sl.put .silent true := rfl

theorem Slave.taken_sendData_more (sl : Slave) (m : Bit) (v : Byte) (a : Nat) (h : a + 1 < Config.addrTop) :
    (sl.put (.sendData a) m).taken v false = sl.put (.sendData (a + 1)) false := by
  simp [Slave.taken, Slave.put, Slave.byteDone, Config.makLast, h]

theorem Slave.taken_recvData_more (sl : Slave) (m : Bit) (v : Byte) (a : Nat) (buf : List Byte) :
    (sl.put (.recvData a buf) m).taken v false = sl.put (.recvData a (buf ++ [v])) false := rfl

/-- The end of a WRITE that stays in the array (rule 5). -/
theorem Slave.taken_recvData (sl : Slave) (m : Bit) (v : Byte) (a : Nat) (buf : List Byte)
    (h : a + (buf.length + 1) ≤ Config.addrTop) :
    (sl.put (.recvData a buf) m).taken v true =
      ({ sl with mem := Memory.writeMany sl.mem a (buf ++ [v]), k := sl.k0,
                 status := if sl.k0 = 0 then sl.status else sl.status ||| 0x01 } : Slave).put .silent true := by
  simp only [Slave.taken, Slave.put, Slave.byteDone, Slave.store, Config.makLast, List.length_append, List.length_cons,
    List.length_nil, Nat.zero_add, h, if_true]
  rfl

theorem Slave.taken_statusValue (sl : Slave) (m m' : Bit) (v : Byte) :
    (sl.put .statusValue m).taken v m' =
      ({ sl with status := (v &&& 0xFE) ||| (sl.status &&& 0x01) } : Slave).put .silent m' := rfl

/-- The opcode byte (rule 5). -/
theorem Slave.taken_opcode (sl : Slave) (m m' : Bit) (o : Opcode) :
    (sl.put .opcode m).taken o.code m' = (match o with
      | .read => sl.put (.addrHigh false) m'
      | .write => sl.put (.addrHigh true) m'
      | .wren => sl.put .silent m'
      | .wrdi => sl.put .silent m'
      | .rdsr => sl.put .sendStatus m'
      | .wrsr => sl.put .statusValue m'
      | .eral => { sl with answers := false }.put .silent m'
      | .setal => { sl with answers := false }.put .silent m') := by
  cases o <;> rfl

/-- A byte that is acknowledged. -/
theorem sendFrame_acked {b : Byte} {rest : List Byte} {final : Bit} {s : State}
    (h : (sendByte b (final && rest.isEmpty) s).sakf = true) :
    sendFrame (b :: rest) final s = sendFrame rest final (sendByte b (final && rest.isEmpty) s) := by
  simp [sendFrame, h]

/-- A byte that is not. -/
theorem sendFrame_refused {b : Byte} {rest : List Byte} {final : Bit} {s : State}
    (h : (sendByte b (final && rest.isEmpty) s).sakf = false) :
    sendFrame (b :: rest) final s = (.nosak, sendByte b (final && rest.isEmpty) s) := by
  simp [sendFrame, h]

/-- What the master holds that no byte of a frame writes (R176), as far as the slave's laws need it. -/
structure FrameKeeps (s t : State) : Prop where
  dir : t.dir = .output
  devaddr : t.devaddr = s.devaddr
  params : t.params = s.params
  rbuf : t.rbuf = s.rbuf

theorem FrameKeeps.trans {s t u : State} (h : FrameKeeps s t) (k : FrameKeeps t u) : FrameKeeps s u :=
  ⟨k.dir, k.devaddr.trans h.devaddr, k.params.trans h.params, k.rbuf.trans h.rbuf⟩

theorem sendByte_keeps (v : Byte) (last : Bit) (s : State) : FrameKeeps s (sendByte v last s) := by
  obtain ⟨evs, vals, h⟩ := sendByte_ran v last s
  exact ⟨h.dir, h.devaddr, h.params, h.rbuf⟩

/-- A byte sent to a slave in phase `ph`. -/
theorem sendByte_put (v : Byte) (last : Bit) (s : State) (sl : Slave) (ph : Phase) (m : Bit)
    (h : s.env.slave = sl.put ph m) (ha : sl.answers = true) (hd : s.dir = .output) :
    (sendByte v last s).env.slave = (sl.put ph m).taken v (mak last) ∧
      (sendByte v last s).sakf = (sl.present && ({ sl.put ph m with shift := v } : Slave).acks) := by
  have h1 := sendByte_slave v last s (by rw [h]; exact sl.put_atByte ph m ha) hd
  rw [h] at h1
  exact h1

/-- The device address to a slave that is there and has it. -/
theorem sendByte_addressed (last : Bit) (s : State) (sl : Slave) (m : Bit) (v : Byte)
    (h : s.env.slave = sl.put .address m) (ha : sl.answers = true) (hp : sl.present = true) (hv : sl.saddr = v)
    (hd : s.dir = .output) :
    (sendByte v last s).env.slave = sl.put .opcode (mak last) ∧ (sendByte v last s).sakf = true := by
  obtain ⟨h1, h2⟩ := sendByte_put v last s sl .address m h ha hd
  refine ⟨?_, ?_⟩
  · rw [h1, Slave.taken_address, hp, hv]
    simp
  · rw [h2, hp]
    simp [Slave.put, Slave.acks, hv]

/-- Two bytes of a command frame to a slave that is there (rules 4 and 5). -/
theorem sendFrame2_slave (o : Opcode) (final : Bit) (s : State) (sl : Slave) (m : Bit)
    (h : s.env.slave = sl.put .address m) (ha : sl.answers = true) (hp : sl.present = true) (hv : sl.saddr = s.devaddr)
    (hd : s.dir = .output) (rest : List Byte) :
    ∃ t, sendFrame (s.devaddr :: o.code :: rest) final s = sendFrame rest final t ∧
      t.env.slave = (sl.put .opcode false).taken o.code (mak (final && rest.isEmpty)) ∧ FrameKeeps s t := by
  obtain ⟨h1, k1⟩ := sendByte_addressed (final && (o.code :: rest).isEmpty) s sl m s.devaddr h ha hp hv hd
  have e1 : mak (final && (o.code :: rest).isEmpty) = false := by cases final <;> rfl
  rw [e1] at h1
  have f1 := sendByte_keeps s.devaddr (final && (o.code :: rest).isEmpty) s
  obtain ⟨h2, k2⟩ := sendByte_put o.code (final && rest.isEmpty) _ sl .opcode false h1 ha f1.dir
  have k2' := k2.trans (show _ = true by rw [hp]; rfl)
  exact ⟨_, (sendFrame_acked k1).trans (sendFrame_acked k2'), h2, f1.trans (sendByte_keeps _ _ _)⟩

/-- A byte to a slave that acknowledges in its phase. -/
theorem sendByte_listening (v : Byte) (last : Bit) (s : State) (sl : Slave) (ph : Phase) (m : Bit)
    (h : s.env.slave = sl.put ph m) (ha : sl.answers = true) (hp : sl.present = true) (hd : s.dir = .output)
    (hph : ph ≠ .silent ∧ ph ≠ .header ∧ ph ≠ .address) :
    (sendByte v last s).env.slave = (sl.put ph m).taken v (mak last) ∧ (sendByte v last s).sakf = true := by
  obtain ⟨h1, h2⟩ := sendByte_put v last s sl ph m h ha hd
  refine ⟨h1, h2.trans ?_⟩
  rw [hp]
  cases ph <;> simp_all [Slave.put, Slave.acks]

/-- The command frame of READ (`w = false`) or WRITE (`w = true`) to a slave that is there. -/
theorem sendFrame4_slave (w : Bool) (a : Addr) (s : State) (sl : Slave) (m : Bit)
    (h : s.env.slave = sl.put .address m) (ha : sl.answers = true) (hp : sl.present = true) (hv : sl.saddr = s.devaddr)
    (hd : s.dir = .output) :
    ∃ t, sendFrame (cmdframe4 s.devaddr (if w then .write else .read) a) false s = (.ok, t) ∧
      t.env.slave = sl.put (if w then .recvData a.toNat [] else .sendData a.toNat) false ∧ FrameKeeps s t := by
  obtain ⟨t, h1, h2, f1⟩ := sendFrame2_slave (if w then .write else .read) false s sl m h ha hp hv hd [addrHigh a, addrLow a]
  have h2' : t.env.slave = sl.put (.addrHigh w) false := by
    rw [h2, Slave.taken_opcode]
    cases w <;> rfl
  obtain ⟨h3, k3⟩ := sendByte_listening (addrHigh a) false t sl _ _ h2' ha hp f1.dir ⟨by simp, by simp, by simp⟩
  rw [Slave.taken_addrHigh] at h3
  have f2 := f1.trans (sendByte_keeps (addrHigh a) false t)
  obtain ⟨h4, k4⟩ := sendByte_listening (addrLow a) false _ sl _ _ h3 ha hp f2.dir ⟨by simp, by simp, by simp⟩
  rw [Slave.taken_addrLow, addrOf_high_low] at h4
  refine ⟨_, ?_, h4, f2.trans (sendByte_keeps _ _ _)⟩
  rw [cmdframe4, h1]
  exact (sendFrame_acked (final := false) (rest := [addrLow a]) k3).trans (sendFrame_acked (final := false) (rest := []) k4)

/-- The payload of a WRITE to the array (rule 5). -/
theorem sendPayload_slave (p : List Byte) (hp0 : p ≠ []) (s : State) (sl : Slave) (a : Nat) (buf : List Byte) (m : Bit)
    (h : s.env.slave = sl.put (.recvData a buf) m) (ha : sl.answers = true) (hp : sl.present = true)
    (hd : s.dir = .output) (hfit : a + (buf.length + p.length) ≤ Config.addrTop) :
    ∃ t, sendFrame p true s = (.ok, t) ∧ FrameKeeps s t ∧ t.env.slave =
      ({ sl with mem := Memory.writeMany sl.mem a (buf ++ p), k := sl.k0,
                 status := if sl.k0 = 0 then sl.status else sl.status ||| 0x01 } : Slave).put .silent true := by
  induction p generalizing s buf m with
  | nil => exact absurd rfl hp0
  | cons v rest ih =>
    obtain ⟨h1, k1⟩ := sendByte_listening v (true && rest.isEmpty) s sl _ _ h ha hp hd ⟨by simp, by simp, by simp⟩
    have f1 := sendByte_keeps v (true && rest.isEmpty) s
    rw [sendFrame_acked k1]
    by_cases hr : rest = []
    · subst hr
      have e1 : mak (true && ([] : List Byte).isEmpty) = true := rfl
      rw [e1, Slave.taken_recvData _ _ _ _ _ (by simpa using hfit)] at h1
      exact ⟨_, rfl, f1, h1⟩
    · have hre : rest.isEmpty = false := by simpa using hr
      have e1 : mak (true && rest.isEmpty) = false := by rw [hre]; rfl
      rw [e1, Slave.taken_recvData_more] at h1
      obtain ⟨t, h2, f2, h3⟩ := ih hr _ (buf ++ [v]) false h1 f1.dir (by simp at hfit ⊢; omega)
      refine ⟨t, h2, f1.trans f2, ?_⟩
      rw [h3, List.append_assoc]
      rfl

/-- A byte received from a slave in phase `ph`. -/
theorem recvByte_put (last : Bit) (s : State) (sl : Slave) (ph : Phase) (m : Bit) (b : Byte)
    (h : s.env.slave = sl.put ph m) (ha : sl.answers = true) (hp : sl.present = true)
    (hb : (sl.put ph m).sends = some b) :
    (recvByte last s).env.slave = (sl.put ph m).taken 0 (mak last) ∧ (recvByte last s).sakf = true ∧
      (recvByte last s).shreg = b := by
  obtain ⟨h1, h2, h3⟩ := recvByte_slave last s (by rw [h]; exact sl.put_atByte ph m ha)
  rw [h] at h1 h2 h3
  refine ⟨h1, h2.trans ?_, h3 b hp hb⟩
  have h4 : (sl.put ph m).present = true := hp
  rw [h4]
  cases ph <;> simp_all [Slave.put, Slave.acks, Slave.sends]

theorem recvByte_keeps (last : Bit) (s : State) : FrameKeeps s (recvByte last s) := by
  obtain ⟨evs, vals, h, -⟩ := recvByte_ran last s
  exact ⟨h.dir, h.devaddr, h.params, h.rbuf⟩

/-- The bytes of the array (rule 5). -/
theorem recvBytes_slave (n : Nat) (hn : 1 ≤ n) (s : State) (sl : Slave) (a : Nat) (m : Bit)
    (h : s.env.slave = sl.put (.sendData a) m) (ha : sl.answers = true) (hp : sl.present = true)
    (hfit : a + n ≤ Config.addrTop) :
    ∃ t, recvBytes n s = (.ok, t) ∧ t.env.slave = sl.put .silent true ∧ t.dir = .output ∧ t.devaddr = s.devaddr ∧
      t.params = s.params ∧ t.rbuf = s.rbuf ++ Memory.readMany sl.mem a n := by
  induction n generalizing s a m with
  | zero => omega
  | succ n ih =>
    obtain ⟨h1, k1, v1⟩ := recvByte_put (decide (n = 0)) s sl _ _ (Memory.read sl.mem a) h ha hp rfl
    have f1 := recvByte_keeps (decide (n = 0)) s
    have hb : (storeByte (recvByte (decide (n = 0)) s)).rbuf = s.rbuf ++ [Memory.read sl.mem a] := by
      show (recvByte (decide (n = 0)) s).rbuf ++ [(recvByte (decide (n = 0)) s).shreg] = _
      rw [v1, f1.rbuf]
    have hs : (storeByte (recvByte (decide (n = 0)) s)).env.slave = (recvByte (decide (n = 0)) s).env.slave := rfl
    simp only [recvBytes, k1, if_true]
    by_cases hn0 : n = 0
    · subst hn0
      refine ⟨_, rfl, h1, f1.dir, f1.devaddr, f1.params, ?_⟩
      rw [hb]
      rfl
    · have e1 : mak (decide (n = 0)) = false := by simp [mak, hn0, Config.makMore]
      rw [e1, Slave.taken_sendData_more _ _ _ _ (by omega)] at h1
      obtain ⟨t, h2, h3, h4, h5, h6, h7⟩ := ih (by omega) _ (a + 1) false (hs.trans h1) (by omega)
      refine ⟨t, h2, h3, h4, h5.trans f1.devaddr, h6.trans f1.params, ?_⟩
      rw [h7, hb, List.append_assoc]
      rfl

/-- The status byte (rule 5). -/
theorem recvStatus_slave (s : State) (sl : Slave) (m : Bit) (h : s.env.slave = sl.put .sendStatus m)
    (ha : sl.answers = true) (hp : sl.present = true) :
    ∃ t, recvFrame 1 s = (.ok, t) ∧ t.env.slave = sl.statusRead.put .silent true ∧ t.dir = .output ∧
      t.devaddr = s.devaddr ∧ t.params = s.params ∧ t.rbuf = [sl.status] := by
  obtain ⟨h1, k1, v1⟩ := recvByte_put true (clearRbuf s) sl .sendStatus m sl.status h ha hp rfl
  have f1 := recvByte_keeps true (clearRbuf s)
  rw [Slave.taken_sendStatus] at h1
  have h2 : recvBytes 1 (clearRbuf s) = if (recvByte true (clearRbuf s)).sakf then
      recvBytes 0 (storeByte (recvByte true (clearRbuf s))) else (.nosak, recvByte true (clearRbuf s)) := by
    simp only [recvBytes, decide_true]
  rw [k1, if_pos rfl] at h2
  refine ⟨storeByte (recvByte true (clearRbuf s)), h2, h1, f1.dir, f1.devaddr, f1.params, ?_⟩
  show (recvByte true (clearRbuf s)).rbuf ++ [(recvByte true (clearRbuf s)).shreg] = _
  rw [v1, f1.rbuf]
  rfl

end Sys2Proof.Machine
end

