-- ==== Sys2Proof/Laws/Conversation.lean ====
section
/-! SUPPORT. What whole transactions and polls do while the reference slave of 95_test_vectors.md section 3 answers. -/

namespace Sys2Proof.Machine

open Sys2Proof.Safety

/-- The end of a transaction leaves a slave without a pulse as it is. -/
theorem unlock_slave (t : State) (h : t.env.slave.pulse = .none) : (unlock t).env.slave = t.env.slave := by
  show (t.env.observe t.dir t.lvl .unlock).slave = t.env.slave
  cases he : t.env with
  | mk script draws slave =>
    rw [he] at h
    cases slave
    simp only at h
    subst h
    simp only [Env.observe]
    split <;> rfl

/-- What a frame and its data frame make of the state after the header. -/
def afterHeader (frame : List Byte) (final : Bit) (data : State → Result × State) (u : State) : Result × State :=
  match sendFrame frame final u with
  | (.ok, t) => data t
  | (r, t) => (r, t)

/-- A guarded body begins, after its header, at the device-address byte of the slave (rule 3). -/
theorem guarded_slave (frame : List Byte) (final : Bit) (data : State → Result × State) (s : State)
    (hg : s.guard = false) (hd : s.dir = .output) (ha : s.env.slave.answers = true) :
    ∃ u, u.env.slave = s.env.slave.put .address true ∧ FrameKeeps s u ∧
      ∀ r t, afterHeader frame final data u = (r, t) → t.env.slave.pulse = .none →
        guarded (transactionBody frame final data) s = .ok (r, unlock t) ∧ (unlock t).env.slave = t.env.slave := by
  have hl : lock s = .ok (takeGuard s) := by simp [lock, hg]
  have h1 : (takeGuard s).env.slave = { s.env.slave with pulse := .none } := by
    simp [takeGuard, emit, Env.observe, Slave.observe, ha]
  have h2 := startHeader_slave (takeGuard s) (by rw [h1]; exact ha) hd
  rw [h1] at h2
  obtain ⟨evs, hb, -, -, hdir, -⟩ := startHeader_ran (takeGuard s)
  refine ⟨startHeader (takeGuard s), h2, ⟨hdir, hb.devaddr, hb.params, hb.rbuf⟩, fun r t h hp => ⟨?_, unlock_slave t hp⟩⟩
  have h3 : transactionBody frame final data (takeGuard s) = (r, t) := h
  rw [guarded, hl]
  simp only [h3]

/-- A standby pulse restarts the slave (rule 3). -/
theorem standbyPulse_slave (s : State) (ha : s.env.slave.answers = true) :
    (standbyPulse s).env.slave = s.env.slave.atHeader := by
  simp [standbyPulse, wait, delay, setLevel, emit, Env.observe, Slave.observe, Slave.restart, Slave.atHeader, ha]

/-- A transaction with its standby pulse. -/
theorem transact_slave (frame payload : List Byte) (final : Bit) (data : State → Result × State) (s : State)
    (hg : s.guard = false) (hd : s.dir = .output) (ha : s.env.slave.answers = true) :
    ∃ u, u.env.slave = s.env.slave.put .address true ∧ FrameKeeps s u ∧
      ∀ r t, afterHeader frame final data u = (r, t) → t.env.slave.pulse = .none →
        transact frame payload final data s = .ok (r, unlock t) ∧ (unlock t).env.slave = t.env.slave := by
  have h1 := standbyPulse_slave (loadWbuf (frame ++ payload) s) ha
  obtain ⟨u, h2, h3, h4⟩ := guarded_slave frame final data (standbyPulse (loadWbuf (frame ++ payload) s)) hg hd (by rw [h1]; exact ha)
  rw [h1] at h2
  exact ⟨u, h2, ⟨h3.dir, h3.devaddr, h3.params, h3.rbuf⟩, h4⟩

/-- The slave answers, is there, and has the master's address (log 14); what lasts from command to command. -/
structure Talks (s : State) (sl : Slave) : Prop where
  guard : s.guard = false
  dir : s.dir = .output
  answers : sl.answers = true
  present : sl.present = true
  saddr : sl.saddr = s.devaddr
  put : ∀ ph m, s.env.slave.put ph m = sl.put ph m

theorem Talks.live {s : State} {sl : Slave} (h : Talks s sl) : s.env.slave.answers = true := by
  have := congrArg Slave.answers (h.put .silent false)
  exact this.trans h.answers

theorem Talks.refl {s : State} (hg : s.guard = false) (hd : s.dir = .output) (h : SlaveReady s) :
    Talks s s.env.slave := ⟨hg, hd, h.1, h.2.1, h.2.2, fun _ _ => rfl⟩

/-- After a transaction. -/
theorem Talks.after {s t : State} {sl sl' : Slave} (h : Talks s sl) (hd : t.dir = .output) (hv : t.devaddr = s.devaddr)
    (hs : t.env.slave = sl'.put .silent true) (ha : sl'.answers = true) (hp : sl'.present = true)
    (hsa : sl'.saddr = sl.saddr) (hu : (unlock t).env.slave = t.env.slave) : Talks (unlock t) sl' :=
  ⟨rfl, hd, ha, hp, hsa.trans (h.saddr.trans hv.symm), fun ph m => by rw [hu, hs]; rfl⟩

/-- The slave's status register after a read of it. -/
theorem statusRead_same (sl : Slave) : sl.statusRead.answers = sl.answers ∧ sl.statusRead.present = sl.present ∧
    sl.statusRead.saddr = sl.saddr ∧ sl.statusRead.mem = sl.mem ∧ sl.statusRead.k0 = sl.k0 := by
  unfold Slave.statusRead
  split
  · exact ⟨rfl, rfl, rfl, rfl, rfl⟩
  · split <;> exact ⟨rfl, rfl, rfl, rfl, rfl⟩

/-- The inside of a status read (rule 5). -/
theorem afterHeader_status (u : State) (sl : Slave) (d : Byte) (hu : u.env.slave = sl.put .address true)
    (ha : sl.answers = true) (hp : sl.present = true) (hv : sl.saddr = d) (hud : u.devaddr = d) (hd : u.dir = .output) :
    ∃ t, afterHeader (cmdframe2 d .rdsr) false (recvFrame 1) u = (.ok, t) ∧
      t.env.slave = sl.statusRead.put .silent true ∧ t.dir = .output ∧ t.devaddr = d ∧ t.params = u.params ∧
      t.rbuf = [sl.status] := by
  subst hud
  obtain ⟨t, h1, h2, f1⟩ := sendFrame2_slave .rdsr false u sl true hu ha hp hv hd []
  rw [Slave.taken_opcode] at h2
  obtain ⟨v, h3, h4, h5, h6, h7, h8⟩ := recvStatus_slave t sl _ h2 ha hp
  refine ⟨v, ?_, h4, h5, h6.trans f1.devaddr, h7.trans f1.params, h8⟩
  have h9 : sendFrame (cmdframe2 u.devaddr .rdsr) false u = (.ok, t) := h1
  rw [afterHeader, h9]
  exact h3

/-- RDSR (R190). -/
theorem rdsrOp_slave (s : State) (sl : Slave) (h : Talks s sl) :
    ∃ t, rdsrOp s = .ok (.ok, t) ∧ Talks t sl.statusRead ∧ t.rbuf = [sl.status] ∧ t.params = s.params ∧
      t.devaddr = s.devaddr := by
  obtain ⟨u, hu, fu, hrun⟩ := transact_slave (cmdframe2 s.devaddr .rdsr) [] false (recvFrame 1) s h.guard h.dir h.live
  rw [h.put] at hu
  obtain ⟨t, h1, h2, h3, h4, h5, h6⟩ := afterHeader_status u sl s.devaddr hu h.answers h.present h.saddr fu.devaddr fu.dir
  obtain ⟨h7, h8⟩ := hrun _ _ h1 (by rw [h2]; rfl)
  have hs := statusRead_same sl
  exact ⟨unlock t, h7, h.after h3 h4 h2 (hs.1.trans h.answers) (hs.2.1.trans h.present) hs.2.2.1 h8, h6,
    h5.trans fu.params, h4⟩

/-- A poll and the gap before it (R197). -/
theorem poll_slave (s : State) (sl : Slave) (h : Talks s sl) :
    ∃ t, poll (gap s) = .ok (.ok, t) ∧ Talks t sl.statusRead ∧ t.rbuf = [sl.status] ∧ t.params = s.params ∧
      t.devaddr = s.devaddr := by
  have hput : ∀ ph m, (loadWbuf (cmdframe2 s.devaddr .rdsr) (gap s)).env.slave.put ph m = s.env.slave.put ph m := by
    intro ph m
    simp [gap, wait, delay, emit, Env.observe, Slave.observe, h.live, Slave.put]
  have hlive : (loadWbuf (cmdframe2 s.devaddr .rdsr) (gap s)).env.slave.answers = true :=
    (congrArg Slave.answers (hput .silent false)).trans h.live
  obtain ⟨u, hu, fu, hrun⟩ := guarded_slave (cmdframe2 s.devaddr .rdsr) false (recvFrame 1)
    (loadWbuf (cmdframe2 s.devaddr .rdsr) (gap s)) h.guard h.dir hlive
  rw [hput, h.put] at hu
  obtain ⟨t, h1, h2, h3, h4, h5, h6⟩ := afterHeader_status u sl s.devaddr hu h.answers h.present h.saddr fu.devaddr fu.dir
  obtain ⟨h7, h8⟩ := hrun _ _ h1 (by rw [h2]; rfl)
  have hs := statusRead_same sl
  exact ⟨unlock t, h7, h.after h3 h4 h2 (hs.1.trans h.answers) (hs.2.1.trans h.present) hs.2.2.1 h8, h6,
    h5.trans fu.params, h4⟩

/-- WREN has no effect on this slave (rule 5). -/
theorem wrenOp_slave (s : State) (sl : Slave) (h : Talks s sl) :
    ∃ t, wrenOp s = .ok (.ok, t) ∧ Talks t sl ∧ t.params = s.params ∧ t.devaddr = s.devaddr := by
  obtain ⟨u, hu, fu, hrun⟩ := transact_slave (cmdframe2 s.devaddr .wren) [] true noData s h.guard h.dir h.live
  rw [h.put] at hu
  obtain ⟨t, h1, h2, f1⟩ := sendFrame2_slave .wren true u sl true hu h.answers h.present (h.saddr.trans fu.devaddr.symm)
    fu.dir []
  rw [fu.devaddr] at h1
  rw [Slave.taken_opcode] at h2
  have h3 : afterHeader (cmdframe2 s.devaddr .wren) true noData u = (.ok, t) := by
    have h9 : sendFrame (cmdframe2 s.devaddr .wren) true u = (.ok, t) := h1
    rw [afterHeader, h9]
    rfl
  obtain ⟨h7, h8⟩ := hrun _ _ h3 (by rw [h2]; rfl)
  exact ⟨unlock t, h7, h.after f1.dir (f1.devaddr.trans fu.devaddr) h2 h.answers h.present rfl h8, f1.params.trans fu.params,
    f1.devaddr.trans fu.devaddr⟩

/-- READ (R184, rule 5). -/
theorem readOp_slave (s : State) (sl : Slave) (a : Addr) (n : Nat) (h : Talks s sl) (hn : 1 ≤ n)
    (hfit : a.toNat + n ≤ Config.addrTop) :
    ∃ t, readOp a n s = .ok (.ok, t) ∧ Talks t sl ∧ t.rbuf = Memory.readMany sl.mem a.toNat n ∧ t.params = s.params ∧
      t.devaddr = s.devaddr := by
  obtain ⟨u, hu, fu, hrun⟩ := transact_slave (cmdframe4 s.devaddr .read a) [] false (recvFrame n) (loadAddr a n s)
    h.guard h.dir h.live
  have hput : (loadAddr a n s).env.slave.put .address true = sl.put .address true := h.put _ _
  rw [hput] at hu
  obtain ⟨t, h1, h2, f1⟩ := sendFrame4_slave false a u sl true hu h.answers h.present (h.saddr.trans fu.devaddr.symm) fu.dir
  rw [fu.devaddr] at h1
  obtain ⟨v, h3, h4, h5, h6, h7, h8⟩ := recvBytes_slave n hn (clearRbuf t) sl a.toNat false h2 h.answers h.present hfit
  have h9 : afterHeader (cmdframe4 s.devaddr .read a) false (recvFrame n) u = (.ok, v) := by
    have h9 : sendFrame (cmdframe4 s.devaddr .read a) false u = (.ok, t) := h1
    rw [afterHeader, h9]
    exact h3
  obtain ⟨h10, h11⟩ := hrun _ _ h9 (by rw [h4]; rfl)
  have hv : v.devaddr = s.devaddr := h6.trans (f1.devaddr.trans fu.devaddr)
  exact ⟨unlock v, h10, h.after h5 hv h4 h.answers h.present rfl h11, by simpa using h8,
    h7.trans (f1.params.trans fu.params), hv⟩

/-- The slave after a WRITE of `p` at `a` (rule 5). -/
def Slave.written (sl : Slave) (a : Nat) (p : List Byte) : Slave :=
  { sl with mem := Memory.writeMany sl.mem a p, k := sl.k0,
            status := if sl.k0 = 0 then sl.status else sl.status ||| 0x01 }

/-- WRITE past its checks (R186, rule 5). -/
theorem writeOp_slave (s : State) (sl : Slave) (a : Addr) (p : List Byte) (h : Talks s sl) (hp0 : p ≠ [])
    (hc : crossesPage a p.length = false) :
    ∃ t, writeOp a p.length p s = .ok (.ok, t) ∧ Talks t (sl.written a.toNat p) ∧ t.params = s.params ∧
      t.devaddr = s.devaddr := by
  have hfit : a.toNat + (([] : List Byte).length + p.length) ≤ Config.addrTop := by
    have h1 := of_decide_eq_false hc
    have h2 := a.isLt
    simp only [Config.page] at h1
    simp only [Config.addrTop, List.length_nil]
    omega
  obtain ⟨u, hu, fu, hrun⟩ := transact_slave (cmdframe4 s.devaddr .write a) p false (sendPayload p)
    (loadAddr a p.length s) h.guard h.dir h.live
  have hput : (loadAddr a p.length s).env.slave.put .address true = sl.put .address true := h.put _ _
  rw [hput] at hu
  obtain ⟨t, h1, h2, f1⟩ := sendFrame4_slave true a u sl true hu h.answers h.present (h.saddr.trans fu.devaddr.symm) fu.dir
  rw [fu.devaddr] at h1
  obtain ⟨v, h3, fv, h4⟩ := sendPayload_slave p hp0 t sl a.toNat [] false h2 h.answers h.present f1.dir hfit
  have h9 : afterHeader (cmdframe4 s.devaddr .write a) false (sendPayload p) u = (.ok, v) := by
    have h9 : sendFrame (cmdframe4 s.devaddr .write a) false u = (.ok, t) := h1
    rw [afterHeader, h9]
    exact h3
  obtain ⟨h10, h11⟩ := hrun _ _ h9 (by rw [h4]; rfl)
  have hv : v.devaddr = s.devaddr := fv.devaddr.trans (f1.devaddr.trans fu.devaddr)
  refine ⟨unlock v, ?_, h.after (sl' := sl.written a.toNat p) fv.dir hv h4 h.answers h.present rfl h11,
    fv.params.trans (f1.params.trans fu.params), hv⟩
  rw [writeOp, h10]
  rfl

/-- A counted poll: what the slave and the count are after it. -/
theorem countedPoll_slave (s : State) (sl : Slave) (h : Talks s sl) :
    ∃ t, poll (gap s) = .ok (.ok, t) ∧ Talks (countPoll t) sl.statusRead ∧
      statusBusy (countPoll t) = sl.status.getLsbD 0 ∧ (countPoll t).pollcnt = s.pollcnt + 1 ∧
      (countPoll t).params = s.params ∧ (countPoll t).devaddr = s.devaddr := by
  obtain ⟨t, h1, h2, h3, h4, h5⟩ := poll_slave s sl h
  obtain ⟨r, t', evs, h6, h7, -⟩ := poll_ran s h.guard
  rw [h1] at h6
  injection h6 with h6
  injection h6 with hr ht
  subst ht
  refine ⟨t, h1, ⟨h2.guard, h2.dir, h2.answers, h2.present, h2.saddr, h2.put⟩, ?_, ?_, h4, h5⟩
  · show (t.rbuf.headD _).getLsbD 0 = _
    rw [h3]
    rfl
  · show t.pollcnt + 1 = _
    rw [h7.pollcnt]

/-- A turn of WAIT_WIP that reads `WIP = 0` (R198). -/
theorem waitTurns_idle (turns : Nat) (s : State) (sl : Slave) (h : Talks s sl) (hl : limitReached s = false)
    (hb : sl.status.getLsbD 0 = false) :
    ∃ t, waitTurns (turns + 1) s = .ok (.ends .ok, t) ∧ Talks t sl.statusRead ∧ t.pollcnt = s.pollcnt + 1 ∧
      t.params = s.params ∧ t.devaddr = s.devaddr := by
  obtain ⟨t, h1, h2, h3, h4, h5, h6⟩ := countedPoll_slave s sl h
  rw [hb] at h3
  refine ⟨countPoll t, ?_, h2, h4, h5, h6⟩
  simp [waitTurns, hl, h1, h3]

/-- A turn of WAIT_WIP that reads `WIP = 1` (R198). -/
theorem waitTurns_busy (turns : Nat) (s : State) (sl : Slave) (h : Talks s sl) (hl : limitReached s = false)
    (hb : sl.status.getLsbD 0 = true) :
    ∃ t, waitTurns (turns + 1) s = waitTurns turns t ∧ Talks t sl.statusRead ∧ t.pollcnt = s.pollcnt + 1 ∧
      t.params = s.params ∧ t.devaddr = s.devaddr := by
  obtain ⟨t, h1, h2, h3, h4, h5, h6⟩ := countedPoll_slave s sl h
  rw [hb] at h3
  refine ⟨countPoll t, ?_, h2, h4, h5, h6⟩
  simp [waitTurns, hl, h1, h3]

theorem limitReached_lt {s : State} {k : Nat} (h : s.params.pollLimit = some k) (hk : s.pollcnt < k) :
    limitReached s = false := by
  simp only [limitReached, h, decide_eq_false_iff_not]
  omega

theorem statusRead_cleared (sl : Slave) (hk : sl.k = 1) : sl.statusRead.status.getLsbD 0 = false := by
  simp [Slave.statusRead, hk]

/-- A slave busy for `j` more reads is idle at read `j + 1` (R199). -/
theorem waitTurns_slave (j turns : Nat) (s : State) (sl : Slave) (k : Nat) (h : Talks s sl) (hj : 1 ≤ j) (hsk : sl.k = j)
    (hb : sl.status.getLsbD 0 = true) (hk : s.params.pollLimit = some k) (hlim : s.pollcnt + j + 1 ≤ k)
    (ht : j + 1 ≤ turns) :
    ∃ t sl', waitTurns turns s = .ok (.ends .ok, t) ∧ Talks t sl' ∧ t.pollcnt = s.pollcnt + j + 1 ∧
      t.params = s.params ∧ t.devaddr = s.devaddr ∧ sl'.mem = sl.mem ∧ sl'.k0 = sl.k0 ∧
      sl'.status.getLsbD 0 = false := by
  induction j generalizing s sl turns with
  | zero => omega
  | succ j ih =>
    obtain ⟨m, rfl⟩ : ∃ m, turns = m + 1 := ⟨turns - 1, by omega⟩
    obtain ⟨t, h1, h2, h3, h4, h5⟩ := waitTurns_busy m s sl h (limitReached_lt hk (by omega)) hb
    have hsame := statusRead_same sl
    by_cases hj0 : j = 0
    · subst hj0
      have hc := statusRead_cleared sl hsk
      obtain ⟨n, rfl⟩ : ∃ n, m = n + 1 := ⟨m - 1, by omega⟩
      obtain ⟨u, h6, h7, h8, h9, h10⟩ := waitTurns_idle n t _ h2 (limitReached_lt (h4 ▸ hk) (by omega)) hc
      have hsame' := statusRead_same sl.statusRead
      have hk0 : sl.statusRead.k = 0 := by simp [Slave.statusRead, hsk]
      refine ⟨u, _, h1.trans h6, h7, by omega, h9.trans h4, h10.trans h5, hsame'.2.2.2.1.trans hsame.2.2.2.1,
        hsame'.2.2.2.2.trans hsame.2.2.2.2, ?_⟩
      rw [show sl.statusRead.statusRead = sl.statusRead by simp [Slave.statusRead, hsk]]
      exact hc
    · have hk1 : sl.statusRead.k = j := by
        simp only [Slave.statusRead, hsk]
        rw [if_neg (by omega), if_neg (by omega)]
        exact Nat.add_sub_cancel j 1
      have hb1 : sl.statusRead.status.getLsbD 0 = true := by
        simp only [Slave.statusRead, hsk]
        rw [if_neg (by omega), if_neg (by omega)]
        exact hb
      obtain ⟨u, sl', h6, h7, h8, h9, h10, h11, h12, h13⟩ := ih m t _ h2 (by omega) hk1 hb1 (h4 ▸ hk) (by omega) (by omega)
      exact ⟨u, sl', h1.trans h6, h7, by omega, h9.trans h4, h10.trans h5, h11.trans hsame.2.2.2.1,
        h12.trans hsame.2.2.2.2, h13⟩

/-- WAIT_WIP from a slave whose write cycle is over, or is over after `k` reads (R199). -/
theorem waitOp_slave (s : State) (sl : Slave) (k : Nat) (h : Talks s sl) (hk : s.params.pollLimit = some k)
    (hb : (sl.status.getLsbD 0 = false ∧ 1 ≤ k) ∨ (sl.status.getLsbD 0 = true ∧ 1 ≤ sl.k ∧ sl.k + 1 ≤ k)) :
    ∃ t sl', waitOp s = .ok (.ends .ok, t) ∧ Talks t sl' ∧
      t.pollcnt = (if sl.status.getLsbD 0 then sl.k + 1 else 1) ∧ t.params = s.params ∧ t.devaddr = s.devaddr ∧
      sl'.mem = sl.mem ∧ sl'.k0 = sl.k0 ∧ sl'.status.getLsbD 0 = false := by
  have h0 : Talks (pollStart s) sl := ⟨h.guard, h.dir, h.answers, h.present, h.saddr, h.put⟩
  have hturns : turnsPerRun s = k + 1 := by simp [turnsPerRun, hk]
  have hp0 : (pollStart s).pollcnt = 0 := rfl
  rcases hb with ⟨hb, hk1⟩ | ⟨hb, hj, hk1⟩
  · obtain ⟨t, h1, h2, h3, h4, h5⟩ := waitTurns_idle k (pollStart s) sl h0 (limitReached_lt (k := k) hk (by omega)) hb
    have hsame := statusRead_same sl
    refine ⟨t, _, by rw [waitOp, hturns]; exact h1, h2, by rw [h3, hb]; rfl, h4, h5, hsame.2.2.2.1, hsame.2.2.2.2, ?_⟩
    unfold Slave.statusRead
    split
    · exact hb
    · split
      · simp
      · exact hb
  · obtain ⟨t, sl', h1, h2, h3, h4, h5, h6⟩ := waitTurns_slave sl.k (k + 1) (pollStart s) sl k h0 hj rfl hb hk (by omega)
      (by omega)
    exact ⟨t, sl', by rw [waitOp, hturns]; exact h1, h2, by rw [h3, hb, hp0]; simp, h4, h5, h6⟩

end Sys2Proof.Machine
end

