-- ==== Sys2Proof/Laws/Exec.lean ====
section
/-! SUPPORT. What `exec` does when it answers a next state, said once for every instruction: the events it adds and
their guard discipline (R174, R273), the line it leaves (R262), and what it leaves alone (R39). -/

namespace Sys2Proof.Machine

open Sys2Proof.Safety

theorem guardDiscipline_append (xs ys : List Event) (held : Bool) (h : guardDiscipline held xs = true) :
    guardDiscipline held (xs ++ ys) = guardDiscipline false ys := by
  induction xs generalizing held with
  | nil =>
    simp only [guardDiscipline, Bool.not_eq_true'] at h
    rw [h, List.nil_append]
  | cons e rest ih =>
    cases e <;> simp only [guardDiscipline, List.cons_append, Bool.and_eq_true, Bool.not_eq_true'] at h ⊢
    case lock => rw [ih _ h.2, h.1]; rfl
    case unlock => rw [ih _ h.2, h.1]; rfl
    case smp => rw [ih _ h.2, h.1]; rfl
    case out => rw [ih _ h.2, h.1]; rfl
    case inp => rw [ih _ h.2, h.1]; rfl
    case drv => exact ih _ h
    case dly => exact ih _ h

/-- Events that neither take nor drop the guard. -/
def guardKept (evs : List Event) : Bool := evs.all (fun e => decide (e ≠ .lock) && decide (e ≠ .unlock))

theorem guardDiscipline_held (xs ys : List Event) (h : guardKept xs = true) :
    guardDiscipline true (xs ++ ys) = guardDiscipline true ys := by
  induction xs with
  | nil => rfl
  | cons e rest ih =>
    simp only [guardKept, List.all_cons, Bool.and_eq_true] at h
    have h2 := ih h.2
    cases e <;> simp_all [guardDiscipline]

theorem guardKept_byteShape (t : Timing) (b : ByteSlot) : guardKept (byteShape t b) = true := by
  cases b <;> rfl

theorem guardKept_append (xs ys : List Event) : guardKept (xs ++ ys) = (guardKept xs && guardKept ys) := by
  simp [guardKept]

theorem guardKept_slots (t : Timing) (slots : List ByteSlot) : guardKept (slots.flatMap (byteShape t)) = true := by
  induction slots with
  | nil => rfl
  | cons b rest ih => rw [List.flatMap_cons, guardKept_append, guardKept_byteShape, ih]; rfl

theorem guardDiscipline_guardedShape (t : Timing) (slots : List ByteSlot) :
    guardDiscipline false (guardedShape t slots) = true := by
  have h1 : guardKept (headerShape t) = true := rfl
  rw [guardedShape, List.cons_append, List.cons_append, List.append_assoc]
  simp only [guardDiscipline, Bool.not_false, Bool.true_and]
  rw [guardDiscipline_held _ _ h1, guardDiscipline_held _ _ (guardKept_slots t slots)]
  rfl

/-- A transaction keeps the guard discipline, whatever was sampled (R174). -/
theorem Transaction.guardDiscipline {t : Timing} {lead : List Event} {slots : List ByteSlot} {evs : List Event}
    {r : Result} (h : Transaction t lead slots evs r) (hlead : guardDiscipline false lead = true) :
    Sys2Proof.Safety.guardDiscipline false evs = true := by
  rw [← guardDiscipline_erase]
  rcases h with ⟨-, he, -⟩ | ⟨-, k, -, he, -⟩ <;>
    rw [he, guardDiscipline_append _ _ _ hlead, guardDiscipline_guardedShape]

theorem PollTurn.guardDiscipline {t : Timing} {d : Byte} {evs : List Event} {r : Result} (h : PollTurn t d evs r) :
    Sys2Proof.Safety.guardDiscipline false evs = true := Transaction.guardDiscipline h rfl

theorem guardDiscipline_flatten (runs : List (List Event)) (h : ∀ e ∈ runs, guardDiscipline false e = true) :
    guardDiscipline false runs.flatten = true := by
  induction runs with
  | nil => rfl
  | cons e rest ih =>
    rw [List.flatten_cons, guardDiscipline_append _ _ _ (h e (by simp))]
    exact ih (fun e he => h e (by simp [he]))

theorem PollRun.guardDiscipline {t : Timing} {d : Byte} {limit : Option Nat} {turns : List (List Event)} {r : Result}
    (h : PollRun t d limit turns r) : Sys2Proof.Safety.guardDiscipline false turns.flatten = true := by
  refine guardDiscipline_flatten _ (fun e he => ?_)
  rcases h with ⟨-, busy, last, rfl, hb, hp, -⟩ | ⟨-, busy, last, rfl, hb, hp, -⟩ | ⟨-, -, hb⟩
  · rcases List.mem_append.mp he with he | he
    · exact PollTurn.guardDiscipline (hb e he).1
    · exact List.mem_singleton.mp he ▸ PollTurn.guardDiscipline hp
  · rcases List.mem_append.mp he with he | he
    · exact PollTurn.guardDiscipline (hb e he).1
    · exact List.mem_singleton.mp he ▸ PollTurn.guardDiscipline hp
  · exact PollTurn.guardDiscipline (hb e he).1

theorem PagedRun.guardDiscipline {t : Timing} {d : Byte} {limit : Option Nat} {a : Addr} {p : List Byte}
    {evs : List Event} {r : Result} {before : Nat} {lost : Option Addr} (h : PagedRun t d limit a p evs r before lost) :
    Sys2Proof.Safety.guardDiscipline false evs = true := by
  induction h with
  | wrenFails a p e1 hp h1 => exact Transaction.guardDiscipline h1 rfl
  | writeFails a p e1 e2 hp h1 h2 =>
    rw [guardDiscipline_append _ _ _ (Transaction.guardDiscipline h1 rfl)]
    exact Transaction.guardDiscipline h2 rfl
  | waitFails a p e1 e2 turns r hp h1 h2 h3 hr =>
    rw [List.append_assoc, guardDiscipline_append _ _ _ (Transaction.guardDiscipline h1 rfl),
      guardDiscipline_append _ _ _ (Transaction.guardDiscipline h2 rfl)]
    exact PollRun.guardDiscipline h3
  | lastChunk a p e1 e2 turns hp hl h1 h2 h3 =>
    rw [List.append_assoc, guardDiscipline_append _ _ _ (Transaction.guardDiscipline h1 rfl),
      guardDiscipline_append _ _ _ (Transaction.guardDiscipline h2 rfl)]
    exact PollRun.guardDiscipline h3
  | chunk a p e1 e2 turns e3 r before lost hp h1 h2 h3 h4 ih =>
    rw [List.append_assoc, List.append_assoc, guardDiscipline_append _ _ _ (Transaction.guardDiscipline h1 rfl),
      guardDiscipline_append _ _ _ (Transaction.guardDiscipline h2 rfl),
      guardDiscipline_append _ _ _ (PollRun.guardDiscipline h3)]
    exact ih

theorem PagedPolls.guardDiscipline {t : Timing} {d : Byte} {a : Addr} {p : List Byte} {evs : List Event}
    {before done : Nat} (h : PagedPolls t d a p evs before done) : Sys2Proof.Safety.guardDiscipline false evs = true := by
  induction h with
  | here a p e1 e2 e3 hp h1 h2 h3 =>
    rw [List.append_assoc, guardDiscipline_append _ _ _ (Transaction.guardDiscipline h1 rfl),
      guardDiscipline_append _ _ _ (Transaction.guardDiscipline h2 rfl)]
    exact PollTurn.guardDiscipline h3.1
  | later a p e1 e2 e3 e4 before done hp h1 h2 h3 hb h4 ih =>
    rw [List.append_assoc, List.append_assoc, guardDiscipline_append _ _ _ (Transaction.guardDiscipline h1 rfl),
      guardDiscipline_append _ _ _ (Transaction.guardDiscipline h2 rfl),
      guardDiscipline_append _ _ _ (PollTurn.guardDiscipline h3)]
    exact ih

/-- A transaction at `GUARD = 1` faults (R172). -/
theorem guarded_guardHeld (body : State → Result × State) (s : State) (h : s.guard = true) :
    guarded body s = .error .guardHeld := by simp [guarded, lock, h]

theorem transact_guardHeld (frame payload : List Byte) (final : Bit) (data : State → Result × State) (s : State)
    (h : s.guard = true) : transact frame payload final data s = .error .guardHeld := guarded_guardHeld _ _ h

theorem waitTurns_guardHeld (turns : Nat) (s : State) (hl : limitReached s = false) (h : s.guard = true) :
    waitTurns (turns + 1) s = .error .guardHeld := by
  have hp : poll (gap s) = .error .guardHeld := guarded_guardHeld _ _ h
  simp [waitTurns, hl, hp]

/-- What a command that answers a next state has done, from `s` to `t`; `lost` is the WRITE whose page it loses. -/
structure Executed (lost : Option Addr) (s t : State) (evs : List Event) : Prop where
  events : t.events = s.events ++ evs
  frame : CommandFrame s t
  env : EnvKeepsBut lost s.env t.env
  discipline : s.guard = false → guardDiscipline false evs = true
  settles : Idle s → settles t.seq (lineOf t) = true
  noData : t.done = true → t.result ≠ .ok → t.rdata = none

/-- A command rejected before any event (R181, R262). -/
theorem executed_rejected (lost : Option Addr) (s : State) (r : Result) : Executed lost s (ret r s) [] :=
  ⟨by simp [State.events], ⟨rfl, rfl, rfl, rfl, fun _ => rfl⟩, EnvKeepsBut.refl _ _, fun _ => rfl,
    fun h => by simp [lineOf, h.2.1, h.2.2.1, h.2.2.2]; rfl, fun _ _ => rfl⟩

/-- A command whose body runs from `u`, which differs from `s` in no state that outlives a command. -/
theorem executed_of_ran {lost : Option Addr} {s u t t' : State} {evs : List Event} (hr : Ran u t evs) (hu : u.events = s.events)
    (hf : CommandFrame s u) (he : u.env = s.env) (hg : guardDiscipline false evs = true)
    (hl : Idle s → settles t'.seq (lineOf t') = true)
    (ht : t'.events = t.events ∧ CommandFrame t t' ∧ EnvKeepsBut lost t.env t'.env)
    (hd : t'.done = true → t'.result ≠ .ok → t'.rdata = none) : Executed lost s t' evs := by
  exact ⟨by rw [ht.1, hr.events, hu], commandFrame_trans (commandFrame_trans hf hr.frame) ht.2.1,
    he ▸ hr.mem.transBut ht.2.2, fun _ => hg, hl, hd⟩

/-- At `IDLE` the invariant is the idle line (R262). -/
theorem settles_idle {t : State} (h1 : t.seq = []) (h2 : t.dir = .output) (h3 : t.lvl = true) (h4 : t.guard = false) :
    settles t.seq (lineOf t) = true := by
  simp [lineOf, h1, h2, h3, h4]
  rfl

theorem commandFrame_begin (s : State) : CommandFrame s (begin s) := ⟨rfl, rfl, rfl, rfl, fun _ => rfl⟩

theorem commandFrame_refl (s : State) : CommandFrame s s := ⟨rfl, rfl, rfl, rfl, fun _ => rfl⟩

theorem conclude_next {x : Except Fault (Result × State)} {t : State} (h : conclude x = .next t) :
    ∃ r u, x = .ok (r, u) ∧ t = ret r u := by
  match x, h with
  | .ok (r, u), h =>
    injection h with h
    exact ⟨r, u, rfl, h.symm⟩

theorem concludeData_next {x : Except Fault (Result × State)} {t : State} (h : concludeData x = .next t) :
    ∃ r u, x = .ok (r, u) ∧ t = if r = .ok then retData u else ret r u := by
  match x, h with
  | .ok (r, u), h => cases r <;> (injection h with h; exact ⟨_, u, rfl, h.symm⟩)

theorem concludeEnding_next {x : Except Fault (Ending × State)} {t : State} (h : concludeEnding x = .next t) :
    (∃ r u, x = .ok (.ends r, u) ∧ t = ret r u) ∨
    (∃ todo u, x = .ok (.polling todo, u) ∧ t = { u with seq := .pollLoop :: (todo ++ [.ret .ok]) }) := by
  match x, h with
  | .ok (.ends r, u), h =>
    injection h with h
    exact Or.inl ⟨r, u, rfl, h.symm⟩
  | .ok (.polling todo, u), h =>
    injection h with h
    exact Or.inr ⟨todo, u, rfl, h.symm⟩

/-- One transaction as a command without data. -/
theorem executed_conclude {lost : Option Addr} {frame payload : List Byte} {final : Bit} {data : State → Result × State} {slots : List ByteSlot}
    {s u t : State} (hdata : DataFrame slots False data) (hu : u.events = s.events)
    (hf : CommandFrame s u) (he : u.env = s.env)
    (h : conclude (transact frame payload final data u) = .next t) : ∃ evs, Executed lost s t evs := by
  by_cases hg : u.guard = true
  · rw [transact_guardHeld _ _ _ _ _ hg] at h
    cases h
  rw [Bool.not_eq_true] at hg
  obtain ⟨t', evs, r, h', hr, ht, htg, htd, htl⟩ := conclude_transact frame payload final data slots False u hdata hg
  rw [h'] at h
  injection h with h
  subst h
  exact ⟨evs, executed_of_ran hr hu hf he (Transaction.guardDiscipline ht rfl) (fun _ => settles_idle rfl htd htl htg)
    ⟨rfl, commandFrame_ret r (commandFrame_refl _), EnvKeepsBut.refl _ _⟩ (fun _ _ => rfl)⟩

/-- One transaction as a command that returns data. -/
theorem executed_concludeData {lost : Option Addr} {frame payload : List Byte} {final : Bit} {n : Nat}
    {s u t : State} (hu : u.events = s.events)
    (hf : CommandFrame s u) (he : u.env = s.env)
    (h : concludeData (transact frame payload final (recvFrame n) u) = .next t) : ∃ evs, Executed lost s t evs := by
  by_cases hg : u.guard = true
  · rw [transact_guardHeld _ _ _ _ _ hg] at h
    cases h
  rw [Bool.not_eq_true] at hg
  obtain ⟨t', evs, r, h', hr, ht, -, htg, htd, htl⟩ := concludeData_transact frame payload final n u hg
  rw [h'] at h
  injection h with h
  subst h
  refine ⟨evs, executed_of_ran hr hu hf he (Transaction.guardDiscipline ht rfl) ?_ ?_ ?_⟩
  · split <;> exact fun _ => settles_idle rfl htd htl htg
  · split
    · exact ⟨rfl, commandFrame_retData (commandFrame_refl _), EnvKeepsBut.refl _ _⟩
    · exact ⟨rfl, commandFrame_ret r (commandFrame_refl _), EnvKeepsBut.refl _ _⟩
  · split
    · exact fun _ h => absurd rfl h
    · exact fun _ _ => rfl

/-- What is lost of a page is nothing that the master drives or that settles a command. -/
theorem PageLost.lineOf {r : Result} {u t : State} (h : PageLost r u t) :
    t.events = u.events ∧ t.dir = u.dir ∧ t.lvl = u.lvl ∧ t.guard = u.guard ∧ t.done = u.done := by
  rw [h.rest]
  exact ⟨rfl, rfl, rfl, rfl, rfl⟩

theorem lostEnd_ret (a : Addr) (r : Result) (t : State) : lostEnd a (ret r t) = pageOf r a := by simp [lostEnd, pageOf]

/-- WRITE after its checks, its page lost where it was not acknowledged (R58). -/
theorem executed_write {a : Addr} {n : Nat} {p : List Byte} {s t : State}
    (h : conclude (writeOp a n p (begin s)) = .next t) : ∃ evs, Executed (lostEnd a t) s t evs := by
  by_cases hg : s.guard = true
  · rw [writeOp, transact_guardHeld _ _ _ _ (loadAddr a n (begin s)) hg] at h
    cases h
  rw [Bool.not_eq_true] at hg
  obtain ⟨r, u, evs, hx, hr, hw, hgd⟩ := writeOp_ran a n p (begin s) hg
  rw [hx] at h
  injection h with h
  subst h
  have ha : u.addr = a := hr.addr
  have hl := endWrite_pageLost r ha
  have hline := hl.lineOf
  have hk := hl.keeps
  rw [ha, ← lostEnd_ret a r (endWrite a r u)] at hk
  exact ⟨evs, executed_of_ran hr rfl ⟨rfl, rfl, rfl, rfl, fun _ => rfl⟩ rfl (Transaction.guardDiscipline hw rfl)
    (fun _ => settles_idle rfl (hline.2.1.trans hgd.2.1) (hline.2.2.1.trans hgd.2.2) (hline.2.2.2.1.trans hgd.1))
    ⟨hline.1, commandFrame_ret r hl.frame, hk⟩ (fun _ _ => rfl)⟩

/-- PAGED_WRITE: a run from `u` that has its result; the page of its last WRITE may be lost at its end. -/
theorem executed_ends {x : Except Fault (Ending × State)} {s u v w t : State} {evs : List Event} {r : Result}
    (hx : x = .ok (.ends r, w)) (hlost : PageLost r v w) (hr : Ran u v evs)
    (hu : u.events = s.events) (hf : CommandFrame s u) (he : u.env = s.env) (hg : guardDiscipline false evs = true)
    (hl : Idle s → v.dir = .output ∧ v.lvl = true ∧ v.guard = false)
    (h : concludeEnding x = .next t) : Executed (lostEnd t.addr t) s t evs := by
  subst hx
  injection h with h
  subst h
  obtain ⟨hev, hwd, hwl, hwg, -⟩ := hlost.lineOf
  have hk := hlost.keeps
  have ha : (ret r w).addr = v.addr := by rw [hlost.rest]; rfl
  rw [← lostEnd_ret v.addr r w, ← ha] at hk
  exact executed_of_ran hr hu hf he hg
    (fun hi => settles_idle rfl (hwd.trans (hl hi).1) (hwl.trans (hl hi).2.1) (hwg.trans (hl hi).2.2))
    ⟨hev, commandFrame_ret r hlost.frame, hk⟩ (fun _ _ => rfl)

/-- WAIT_WIP and PAGED_WRITE: a run from `u` that polls on, or has its result with no page lost. -/
theorem executed_ending {lost : Option Addr} {x : Except Fault (Ending × State)} {s u v t : State} {evs : List Event}
    {e : Ending} (hx : x = .ok (e, v)) (hr : Ran u v evs)
    (hu : u.events = s.events) (hf : CommandFrame s u) (he : u.env = s.env)
    (hdone : u.done = false) (hg : guardDiscipline false evs = true)
    (hl : Idle s → v.dir = .output ∧ v.lvl = true ∧ v.guard = false)
    (hp : ∀ todo, e = .polling todo → settles (todo ++ [.ret .ok]) Line.rest = true)
    (h : concludeEnding x = .next t) : Executed lost s t evs := by
  subst hx
  cases e with
  | ends r =>
    injection h with h
    subst h
    exact executed_of_ran hr hu hf he hg (fun hi => settles_idle rfl (hl hi).1 (hl hi).2.1 (hl hi).2.2)
      ⟨rfl, commandFrame_ret r (commandFrame_refl _), EnvKeepsBut.refl _ _⟩ (fun _ _ => rfl)
  | polling todo =>
    injection h with h
    subst h
    refine executed_of_ran hr hu hf he hg (fun hi => ?_) ⟨rfl, ⟨rfl, rfl, rfl, rfl, fun _ => rfl⟩, EnvKeepsBut.refl _ _⟩ ?_
    · have h1 : Safety.lineOf { v with seq := .pollLoop :: (todo ++ [.ret .ok]) } = Line.rest := by
        simp [Safety.lineOf, Line.rest, (hl hi).1, (hl hi).2.1, (hl hi).2.2]
      rw [h1]
      exact hp todo rfl
    · exact fun hd => absurd (hr.done.symm.trans hd) (by rw [hdone]; exact Bool.false_ne_true)

theorem executed_waitWip {lost : Option Addr} {s t : State} (h : concludeEnding (waitOp (begin s)) = .next t) :
    ∃ evs, Executed lost s t evs := by
  have hf : ∀ n, CommandFrame s (withPolls n (begin s)) := fun _ => ⟨rfl, rfl, rfl, rfl, fun _ => rfl⟩
  cases hk : s.params.pollLimit with
  | none =>
    by_cases hg : s.guard = true
    · have h1 : waitOp (begin s) = .error .guardHeld := by
        have h2 : turnsPerRun (begin s) = 0 + 1 := by simp [turnsPerRun, hk]
        rw [waitOp, h2]
        exact waitTurns_guardHeld 0 _ (by simp [limitReached, hk]) hg
      rw [h1] at h
      cases h
    rw [Bool.not_eq_true] at hg
    obtain ⟨e, v, evs, r, hx, hr, hp, he, hvg, hvd, hvl⟩ := waitOp_unlimited (begin s) hk hg
    refine ⟨evs, executed_ending hx hr rfl (hf 1) rfl rfl (PollTurn.guardDiscipline hp) (fun _ => ⟨hvd, hvl, hvg⟩) ?_ h⟩
    intro todo ht
    subst ht
    split at he
    · injection he with he
      subst he
      rfl
    · cases he
  | some k =>
    by_cases hg : s.guard = true
    · have h2 : turnsPerRun (begin s) = k + 1 := by simp [turnsPerRun, hk]
      cases k with
      | zero =>
        have h1 : waitOp (begin s) = .ok (.ends .timeout, pollStart (begin s)) := by
          rw [waitOp, h2]
          simp [waitTurns, limitReached, hk]
        refine ⟨[], executed_ending h1 (Ran.refl _) rfl (hf 0) rfl rfl rfl (fun hi => ?_)
          (fun todo ht => by cases ht) h⟩
        exact absurd (hg.symm.trans hi.2.2.2) (by decide)
      | succ k =>
        have h1 : waitOp (begin s) = .error .guardHeld := by
          rw [waitOp, h2]
          exact waitTurns_guardHeld _ _ (by simp [limitReached, hk]) hg
        rw [h1] at h
        cases h
    rw [Bool.not_eq_true] at hg
    obtain ⟨r, v, runs, hx, hr, hp, hvg, hvd, hvl⟩ := waitOp_limited (begin s) k hk hg
    exact ⟨_, executed_ending hx hr rfl (hf _) rfl rfl (PollRun.guardDiscipline hp)
      (fun hi => ⟨hvd hi.2.1, hvl hi.2.2.1, hvg⟩) (fun todo ht => by cases ht) h⟩

theorem executed_pagedWrite {a : Addr} {p : List Byte} {s t : State}
    (h : concludeEnding (pagedTurns p.length a p (begin s)) = .next t) (hp : p ≠ []) :
    ∃ evs, Executed (lostEnd t.addr t) s t evs := by
  have hf : ∀ a n c, CommandFrame s (withOperands a n c (begin s)) := fun _ _ _ => ⟨rfl, rfl, rfl, rfl, fun _ => rfl⟩
  by_cases hg : s.guard = true
  · have h1 : pagedTurns p.length a p (begin s) = .error .guardHeld := by
      have h2 : wrenOp (loadAddr a p.length (begin s)) = .error .guardHeld := transact_guardHeld _ _ _ _ _ hg
      obtain ⟨n, hn⟩ : ∃ n, p.length = n + 1 := ⟨p.length - 1, by have := List.length_pos_iff.mpr hp; omega⟩
      have hpe : p.isEmpty = false := by simpa using hp
      rw [hn]
      simp [pagedTurns, hp, chunkOp, h2]
    rw [h1] at h
    cases h
  rw [Bool.not_eq_true] at hg
  cases hk : s.params.pollLimit with
  | none =>
    obtain ⟨e, v, w, evs, before, hx, hr, hat, hout, hvg, hvl⟩ := pagedTurns_unlimited p.length a p (begin s) hp hk le_rfl hg
    rcases hout with ⟨r, lost, rfl, rfl, hrun⟩ | ⟨done, hrun, rfl, rfl⟩
    · exact ⟨evs, executed_ends hx (PagedRun.pageLost hrun hat) hr rfl (hf _ _ _) rfl (PagedRun.guardDiscipline hrun)
        (fun _ => ⟨hvl.1, hvl.2, hvg⟩) h⟩
    · refine ⟨evs, executed_ending hx hr rfl (hf _ _ _) rfl rfl (PagedPolls.guardDiscipline hrun)
        (fun _ => ⟨hvl.1, hvl.2, hvg⟩) ?_ h⟩
      intro todo ht
      injection ht with ht
      subst ht
      rfl
  | some k =>
    obtain ⟨r, v, evs, before, lost, hx, hr, hrun, hat, hvg, hvl⟩ := pagedTurns_limited p.length a p (begin s) k hp hk le_rfl hg
    exact ⟨evs, executed_ends hx (PagedRun.pageLost hrun hat) hr rfl (hf _ _ _) rfl (PagedRun.guardDiscipline hrun)
      (fun _ => ⟨hvl.1, hvl.2, hvg⟩) h⟩

/-- START_HEADER alone (R168): no guard discipline and no result are its matter (log 13). -/
theorem execStartHeader_next {s t : State} (h : execStartHeader s = .next t) :
    ∃ evs, t.events = s.events ++ evs ∧ CommandFrame s t ∧ EnvKeeps s.env t.env ∧
      (Idle s → settles t.seq (lineOf t) = true) := by
  cases hs : s.seq with
  | cons op rest =>
    rw [execStartHeader, issue, hs] at h
    cases h
  | nil =>
    rw [execStartHeader, issue, hs] at h
    injection h with h
    subst h
    obtain ⟨evs, hr, -, -, hd, hl⟩ := startHeader_ran s
    exact ⟨evs, hr.events, hr.frame, hr.mem,
      fun hi => settles_idle (hr.seq.trans hi.1) hd hl (hr.guard.trans hi.2.2.2)⟩

/-- Every other instruction. -/
theorem exec_next (i : Instr) (hi : i ≠ .startHeader) {s t : State} (h : exec i s = .next t) :
    ∃ evs, Executed (lostBy i t) s t evs := by
  cases hs : s.seq with
  | cons op rest =>
    cases i
    case startHeader => exact absurd rfl hi
    all_goals
      revert h
      simp only [exec, execRead, execWrite, execWren, execWrdi, execRdsr, execWrsr, execEral, execSetal, execWaitWip,
        execPagedWrite, issue, hs]
      intro h
      cases h
  | nil =>
    have hf := commandFrame_begin s
    have hfa : ∀ a n, CommandFrame s (loadAddr a n (begin s)) := fun _ _ => ⟨rfl, rfl, rfl, rfl, fun _ => rfl⟩
    cases i
    case startHeader => exact absurd rfl hi
    all_goals
      simp only [exec, execRead, execWrite, execWren, execWrdi, execRdsr, execWrsr, execEral, execSetal, execWaitWip,
        execPagedWrite, issue, hs] at h
    case read a n =>
      split at h
      · cases h
      · exact executed_concludeData (u := loadAddr a n (begin s)) rfl (hfa a n) rfl h
    case write a n p =>
      split at h
      · cases h
      · split at h
        · injection h with h
          exact ⟨[], h ▸ executed_rejected _ s _⟩
        · exact executed_write h
    case wren => exact executed_conclude (u := begin s) noData_frame rfl hf rfl h
    case wrdi => exact executed_conclude (u := begin s) noData_frame rfl hf rfl h
    case rdsr => exact executed_concludeData (u := begin s) rfl hf rfl h
    case wrsr => exact executed_conclude (u := begin s) noData_frame rfl hf rfl h
    case eral =>
      split at h
      · exact executed_conclude (u := begin s) noData_frame rfl hf rfl h
      · cases h
    case setal =>
      split at h
      · exact executed_conclude (u := begin s) noData_frame rfl hf rfl h
      · cases h
    case waitWip => exact executed_waitWip h
    case pagedWrite a n p =>
      split at h
      · cases h
      · rename_i hb
        refine executed_pagedWrite h (fun hp => hb ?_)
        subst hp
        cases n <;> simp [pagedBadLen]

end Sys2Proof.Machine
end

