-- ==== Sys2Proof/Laws/PerInstr.lean ====
section
/-! SUPPORT. Statements for every instruction as syntax, one lemma per constructor. -/

namespace Sys2Proof.Laws.Framed

/-- What stands on the wire for an instruction (R78, R80, R89): a command frame of two, three or four bytes that
opens with the device address, or the header byte alone, or nothing of its own. -/
def Statement (i : Instr) : Prop :=
  ∀ d : Byte, match encode d i with
    | some [] => False
    | some (b :: rest) => (b = d ∧ 1 ≤ rest.length ∧ rest.length ≤ 3) ∨ (i = .startHeader ∧ b = 0x55 ∧ rest = [])
    | none => i = .waitWip ∨ ∃ a n p, i = .pagedWrite a n p

theorem read (a : Addr) (n : Nat) : Statement (.read a n) := fun _ => Or.inl ⟨rfl, by simp, by simp⟩

theorem write (a : Addr) (n : Nat) (p : List Byte) : Statement (.write a n p) :=
  fun _ => Or.inl ⟨rfl, by simp, by simp⟩

theorem wren : Statement .wren := fun _ => Or.inl ⟨rfl, by simp, by simp⟩

theorem wrdi : Statement .wrdi := fun _ => Or.inl ⟨rfl, by simp, by simp⟩

theorem rdsr : Statement .rdsr := fun _ => Or.inl ⟨rfl, by simp, by simp⟩

theorem wrsr (v : Byte) : Statement (.wrsr v) := fun _ => Or.inl ⟨rfl, by simp, by simp⟩

theorem eral : Statement .eral := fun _ => Or.inl ⟨rfl, by simp, by simp⟩

theorem setal : Statement .setal := fun _ => Or.inl ⟨rfl, by simp, by simp⟩

theorem startHeader : Statement .startHeader := fun _ => Or.inr ⟨rfl, rfl, rfl⟩

theorem waitWip : Statement .waitWip := fun _ => Or.inl rfl

theorem pagedWrite (a : Addr) (n : Nat) (p : List Byte) : Statement (.pagedWrite a n p) :=
  fun _ => Or.inr ⟨a, n, p, rfl⟩

end Sys2Proof.Laws.Framed
end

