-- ==== Sys2Proof/Laws/Sequencer.lean ====
section
/-! SUPPORT. The sequencer runs what the operations as a whole do: from an operation at the head of `SEQ`, steps of
one operation each reach the state the operation as a whole gives, with the rest of `SEQ` still to do (R33, R175). -/

namespace Sys2Proof.Machine

open Sys2Proof.Safety

/-- Some number of steps leads from `s` to `t`. -/
def Reach (s t : State) : Prop := ∃ k, Sys2Proof.core.run k s = .next t

/-- Some number of steps leads from `s` to the fault `f`. -/
def ReachFault (s : State) (f : Fault) : Prop := ∃ k, Sys2Proof.core.run k s = .fault f

theorem run_add {s t : State} {k : Nat} (j : Nat) (h : Sys2Proof.core.run k s = .next t) :
    Sys2Proof.core.run (k + j) s = Sys2Proof.core.run j t := by
  induction k generalizing s with
  | zero =>
    injection h with h
    rw [Nat.zero_add, h]
  | succ k ih =>
    rw [Nat.succ_add]
    simp only [Host.Core.run] at h ⊢
    cases hs : Sys2Proof.core.step s with
    | next u =>
      rw [hs] at h
      exact ih h
    | fault f =>
      rw [hs] at h
      cases h
    | refused r =>
      rw [hs] at h
      cases h

theorem Reach.refl (s : State) : Reach s s := ⟨0, rfl⟩

theorem Reach.trans {s t u : State} (h : Reach s t) (k : Reach t u) : Reach s u := by
  obtain ⟨n, hn⟩ := h
  obtain ⟨m, hm⟩ := k
  exact ⟨n + m, (run_add m hn).trans hm⟩

theorem Reach.fault {s t : State} {f : Fault} (h : Reach s t) (k : ReachFault t f) : ReachFault s f := by
  obtain ⟨n, hn⟩ := h
  obtain ⟨m, hm⟩ := k
  exact ⟨n + m, (run_add m hn).trans hm⟩

/-- One step of the sequencer. -/
theorem reach_tick {op : Op} {rest : List Op} {s t : State} (h : tick op rest (setSeq (op :: rest) s) = .ok t) :
    Reach (setSeq (op :: rest) s) t := by
  refine ⟨1, ?_⟩
  have h1 : Sys2Proof.core.step (setSeq (op :: rest) s) = tickOutcome (tick op rest (setSeq (op :: rest) s)) := rfl
  simp only [Host.Core.run, h1, h, tickOutcome]

theorem reach_setOutput (rest : List Op) (s : State) :
    Reach (setSeq (.setOutput :: rest) s) (setSeq rest (setOutput s)) := reach_tick rfl

theorem reach_setInput (rest : List Op) (s : State) :
    Reach (setSeq (.setInput :: rest) s) (setSeq rest (setInput s)) := reach_tick rfl

theorem reach_setLevel (v : Bit) (rest : List Op) (s : State) :
    Reach (setSeq (.setLevel v :: rest) s) (setSeq rest (setLevel v s)) := reach_tick rfl

theorem reach_wait (c : Delay) (rest : List Op) (s : State) :
    Reach (setSeq (.wait c :: rest) s) (setSeq rest (wait c s)) := reach_tick rfl

theorem reach_sampleA (rest : List Op) (s : State) :
    Reach (setSeq (.sampleA :: rest) s) (setSeq rest (sampleA s)) := reach_tick rfl

theorem reach_sampleB (rest : List Op) (s : State) :
    Reach (setSeq (.sampleB :: rest) s) (setSeq rest (sampleB s)) := reach_tick rfl

/-- XFER_BIT. -/
theorem reach_xferBit (w : Bit) (rest : List Op) (s : State) :
    Reach (setSeq (.xferBit w :: rest) s) (setSeq rest (xferBit w s)) := by
  refine Reach.trans (t := setSeq (slotOps w ++ rest) s) (reach_tick rfl) ?_
  refine (reach_setLevel _ _ _).trans ((reach_wait _ _ _).trans ((reach_sampleA _ _).trans ((reach_wait _ _ _).trans ?_)))
  exact (reach_setLevel _ _ _).trans ((reach_wait _ _ _).trans ((reach_sampleB _ _).trans (reach_wait _ _ _)))

/-- RECV_BIT. -/
theorem reach_recvBit (rest : List Op) (s : State) :
    Reach (setSeq (.recvBit :: rest) s) (setSeq rest (recvBit s)) :=
  Reach.trans (t := setSeq (.setInput :: .xferBit true :: .setOutput :: rest) s) (reach_tick rfl)
    ((reach_setInput _ _).trans ((reach_xferBit _ _ _).trans (reach_setOutput _ _)))

theorem reach_sendBits (k : Nat) (rest : List Op) (s : State) :
    Reach (setSeq (.sendBits k :: rest) s) (setSeq rest (sendBits k s)) := by
  induction k generalizing s with
  | zero => exact ⟨1, rfl⟩
  | succ k ih =>
    refine Reach.trans (t := setSeq (.xferBit (s.shreg.getLsbD 7) :: .shiftOut :: .sendBits k :: rest) s) ⟨1, rfl⟩ ?_
    refine (reach_xferBit _ _ _).trans ?_
    exact Reach.trans ⟨1, rfl⟩ (ih (shiftOut (xferBit (s.shreg.getLsbD 7) s)))

theorem reach_recvBits (k : Nat) (rest : List Op) (s : State) :
    Reach (setSeq (.recvBits k :: rest) s) (setSeq rest (recvBits k s)) := by
  induction k generalizing s with
  | zero => exact ⟨1, rfl⟩
  | succ k ih =>
    refine Reach.trans (t := setSeq (.recvBit :: .shiftIn :: .recvBits k :: rest) s) ⟨1, rfl⟩ ?_
    refine (reach_recvBit _ _).trans ?_
    exact Reach.trans ⟨1, rfl⟩ (ih (shiftIn (recvBit s)))

theorem reach_handshake (last : Bit) (rest : List Op) (s : State) :
    Reach (setSeq (.xferBit (mak last) :: .recvBit :: .latchSak :: rest) s) (setSeq rest (handshake last s)) :=
  (reach_xferBit _ _ _).trans ((reach_recvBit _ _).trans ⟨1, rfl⟩)

/-- SEND_BYTE. -/
theorem reach_sendByte (v : Byte) (last : Bit) (rest : List Op) (s : State) :
    Reach (setSeq (.sendByte v last :: rest) s) (setSeq rest (sendByte v last s)) := by
  refine Reach.trans (t := setSeq (.sendBits 8 :: .xferBit (mak last) :: .recvBit :: .latchSak :: rest) (loadShreg v s))
    ⟨1, rfl⟩ ?_
  exact (reach_sendBits _ _ _).trans (reach_handshake _ _ _)

/-- RECV_BYTE. -/
theorem reach_recvByte (last : Bit) (rest : List Op) (s : State) :
    Reach (setSeq (.recvByte last :: rest) s) (setSeq rest (recvByte last s)) := by
  refine Reach.trans (t := setSeq (.recvBits 8 :: .xferBit (mak last) :: .recvBit :: .latchSak :: rest) (loadShreg 0 s))
    ⟨1, rfl⟩ ?_
  exact (reach_recvBits _ _ _).trans (reach_handshake _ _ _)

theorem reach_checkSak (rest : List Op) (s : State) :
    Reach (setSeq (.checkSak :: rest) s) (setSeq (if s.sakf then rest else failOps rest) s) := ⟨1, rfl⟩

/-- STANDBY_PULSE. -/
theorem reach_standbyPulse (rest : List Op) (s : State) :
    Reach (setSeq (.standbyPulse :: rest) s) (setSeq rest (standbyPulse s)) :=
  Reach.trans (t := setSeq (.setLevel false :: .wait .stbyLow :: .setLevel true :: .wait .stbyHigh :: rest) s)
    (reach_tick rfl) ((reach_setLevel _ _ _).trans ((reach_wait _ _ _).trans ((reach_setLevel _ _ _).trans
      (reach_wait _ _ _))))

/-- START_HEADER. -/
theorem reach_startHeader (rest : List Op) (s : State) :
    Reach (setSeq (.startHeader :: rest) s) (setSeq rest (startHeader s)) :=
  Reach.trans (t := setSeq (.setLevel false :: .wait .hdr :: .sendByte Config.startHeader true :: rest) s)
    (reach_tick rfl) ((reach_setLevel _ _ _).trans ((reach_wait _ _ _).trans (reach_sendByte _ _ _ _)))

theorem failOps_cons {op : Op} (h : op ≠ .unlock) (rest : List Op) : failOps (op :: rest) = failOps rest := by
  simp only [failOps, List.dropWhile_cons, h, ne_eq, not_false_eq_true, decide_true, if_true]

theorem failOps_unlock (rest : List Op) (h : ∀ r, rest ≠ .countPoll :: r) (h' : ∀ a r, rest ≠ .written a :: r) :
    failOps (.unlock :: rest) = [.unlock, .ret .nosak] := by
  simp only [failOps, List.dropWhile_cons, ne_eq, not_true_eq_false, decide_false]
  cases rest with
  | nil => rfl
  | cons op r =>
    cases op <;> first | rfl | exact absurd rfl (h r) | exact absurd rfl (h' _ r)

theorem failOps_write (a : Addr) (rest : List Op) :
    failOps (.unlock :: .written a :: rest) = [.unlock, .losePage a, .ret .nosak] := by
  simp [failOps]

theorem failOps_poll (rest : List Op) :
    failOps (.unlock :: .countPoll :: rest) = [.unlock, .countPoll, .ret .nosak] := by
  simp [failOps]

/-- Operations `ops` that do what `f` does: where `f` answers `OK` they lead on, else to the failure path (R225). -/
def RunsAs (ops : List Op) (f : State → Result × State) : Prop :=
  ∀ (rest : List Op) (s : State),
    ((f s).1 = .ok ∧ Reach (setSeq (ops ++ rest) s) (setSeq rest (f s).2)) ∨
    ((f s).1 = .nosak ∧ Reach (setSeq (ops ++ rest) s) (setSeq (failOps rest) (f s).2))

/-- SEND_FRAME. -/
theorem sendFrame_runsAs (bytes : List Byte) (final : Bit) : RunsAs [.sendFrame bytes final] (sendFrame bytes final) := by
  intro rest s
  induction bytes generalizing s with
  | nil => exact Or.inl ⟨rfl, ⟨1, rfl⟩⟩
  | cons b bs ih =>
    have h1 : Reach (setSeq (.sendFrame (b :: bs) final :: rest) s)
        (setSeq (.checkSak :: .sendFrame bs final :: rest) (sendByte b (final && bs.isEmpty) s)) :=
      Reach.trans (t := setSeq (.sendByte b (final && bs.isEmpty) :: .checkSak :: .sendFrame bs final :: rest) s)
        ⟨1, rfl⟩ (reach_sendByte _ _ _ _)
    have h2 := h1.trans (reach_checkSak _ _)
    simp only [sendFrame]
    split
    · rename_i hk
      rw [hk] at h2
      rcases ih (sendByte b (final && bs.isEmpty) s) with ⟨hr, h3⟩ | ⟨hr, h3⟩
      · exact Or.inl ⟨hr, h2.trans h3⟩
      · exact Or.inr ⟨hr, h2.trans h3⟩
    · rename_i hk
      rw [Bool.not_eq_true] at hk
      rw [hk] at h2
      simp only [Bool.false_eq_true, if_false] at h2
      rw [failOps_cons Op.noConfusion] at h2
      exact Or.inr ⟨rfl, h2⟩

theorem recvBytes_runsAs (n : Nat) : RunsAs [.recvBytes n] (recvBytes n) := by
  intro rest s
  induction n generalizing s with
  | zero => exact Or.inl ⟨rfl, ⟨1, rfl⟩⟩
  | succ n ih =>
    have h1 : Reach (setSeq (.recvBytes (n + 1) :: rest) s)
        (setSeq (.checkSak :: .storeByte :: .recvBytes n :: rest) (recvByte (decide (n = 0)) s)) :=
      Reach.trans (t := setSeq (.recvByte (decide (n = 0)) :: .checkSak :: .storeByte :: .recvBytes n :: rest) s)
        ⟨1, rfl⟩ (reach_recvByte _ _ _)
    have h2 := h1.trans (reach_checkSak _ _)
    simp only [recvBytes]
    split
    · rename_i hk
      rw [hk] at h2
      have h4 : ∀ u, Reach (setSeq (.storeByte :: .recvBytes n :: rest) u) (setSeq (.recvBytes n :: rest) (storeByte u)) :=
        fun u => ⟨1, rfl⟩
      have h5 := h2.trans (h4 _)
      rcases ih (storeByte (recvByte (decide (n = 0)) s)) with ⟨hr, h3⟩ | ⟨hr, h3⟩
      · exact Or.inl ⟨hr, h5.trans h3⟩
      · exact Or.inr ⟨hr, h5.trans h3⟩
    · rename_i hk
      rw [Bool.not_eq_true] at hk
      rw [hk] at h2
      simp only [Bool.false_eq_true, if_false] at h2
      rw [failOps_cons Op.noConfusion, failOps_cons Op.noConfusion] at h2
      exact Or.inr ⟨rfl, h2⟩

/-- RECV_FRAME. -/
theorem recvFrame_runsAs (n : Nat) : RunsAs [.recvFrame n] (recvFrame n) := by
  intro rest s
  have h1 : Reach (setSeq (.recvFrame n :: rest) s) (setSeq (.recvBytes n :: rest) (clearRbuf s)) := ⟨1, rfl⟩
  rcases recvBytes_runsAs n rest (clearRbuf s) with ⟨hr, h⟩ | ⟨hr, h⟩
  · exact Or.inl ⟨hr, h1.trans h⟩
  · exact Or.inr ⟨hr, h1.trans h⟩

theorem noData_runsAs : RunsAs [] noData := fun _ _ => Or.inl ⟨rfl, Reach.refl _⟩

theorem sendPayload_runsAs (p : List Byte) : RunsAs [.sendFrame p true] (sendPayload p) := sendFrame_runsAs p true

/-- The inside of the guard, `data` holding no `UNLOCK`. -/
theorem transactionBody_runsAs (frame : List Byte) (final : Bit) (data : List Op) (f : State → Result × State)
    (hf : RunsAs data f) (hd : ∀ rest, failOps (data ++ rest) = failOps rest) :
    RunsAs (.startHeader :: .sendFrame frame final :: data) (transactionBody frame final f) := by
  intro rest s
  have h1 := reach_startHeader (.sendFrame frame final :: (data ++ rest)) s
  simp only [transactionBody]
  rcases hres : sendFrame frame final (startHeader s) with ⟨r, t⟩
  rcases sendFrame_runsAs frame final (data ++ rest) (startHeader s) with ⟨hr, h⟩ | ⟨hr, h⟩
  · rw [hres] at hr h
    simp only at hr h
    subst hr
    rcases hf rest t with ⟨hr, h2⟩ | ⟨hr, h2⟩
    · exact Or.inl ⟨hr, (h1.trans h).trans h2⟩
    · exact Or.inr ⟨hr, (h1.trans h).trans h2⟩
  · rw [hres] at hr h
    simp only at hr h
    subst hr
    rw [hd] at h
    exact Or.inr ⟨rfl, h1.trans h⟩

/-- A guarded body: where it fails the guard is released and `tail` is left (R225). -/
theorem reach_guarded (body : List Op) (f : State → Result × State) (hf : RunsAs body f) (rest tail : List Op) (s : State)
    (hfail : failOps (.unlock :: rest) = .unlock :: tail) :
    (∀ e, guarded f s = .error e → ReachFault (setSeq (.lock :: (body ++ .unlock :: rest)) s) e) ∧
    (∀ r t, guarded f s = .ok (r, t) →
      (r = .ok ∧ Reach (setSeq (.lock :: (body ++ .unlock :: rest)) s) (setSeq rest t)) ∨
      (r = .nosak ∧ Reach (setSeq (.lock :: (body ++ .unlock :: rest)) s) (setSeq tail t))) := by
  by_cases hg : s.guard = true
  · have hl : lock s = .error .guardHeld := by simp [lock, hg]
    constructor
    · intro e he
      rw [guarded, hl] at he
      injection he with he
      subst he
      refine ⟨1, ?_⟩
      have h1 : Sys2Proof.core.step (setSeq (.lock :: (body ++ .unlock :: rest)) s) =
          tickOutcome ((lock (setSeq (.lock :: (body ++ .unlock :: rest)) s)).map (setSeq (body ++ .unlock :: rest))) := rfl
      have h2 : lock (setSeq (.lock :: (body ++ .unlock :: rest)) s) = .error .guardHeld := by simp [lock, hg]
      simp only [Host.Core.run, h1, h2]
      rfl
    · intro r t ht
      rw [guarded, hl] at ht
      cases ht
  · rw [Bool.not_eq_true] at hg
    have hl : lock s = .ok (takeGuard s) := by simp [lock, hg]
    have h0 : Reach (setSeq (.lock :: (body ++ .unlock :: rest)) s) (setSeq (body ++ .unlock :: rest) (takeGuard s)) := by
      apply reach_tick
      have h2 : lock (setSeq (.lock :: (body ++ .unlock :: rest)) s) =
          .ok (takeGuard (setSeq (.lock :: (body ++ .unlock :: rest)) s)) := by simp [lock, hg]
      simp only [tick, h2]
      rfl
    have hu : ∀ (x : List Op) (u : State), Reach (setSeq (.unlock :: x) u) (setSeq x (unlock u)) := fun x u => ⟨1, rfl⟩
    constructor
    · intro e he
      rw [guarded, hl] at he
      cases he
    · intro r t ht
      rw [guarded, hl] at ht
      injection ht with ht
      injection ht with hr ht
      subst hr ht
      rcases hf (.unlock :: rest) (takeGuard s) with ⟨hr, h⟩ | ⟨hr, h⟩
      · exact Or.inl ⟨hr, (h0.trans h).trans (hu _ _)⟩
      · rw [hfail] at h
        exact Or.inr ⟨hr, (h0.trans h).trans (hu _ _)⟩

/-- A transaction that opens with a standby pulse: where it fails `tail` is left after the `UNLOCK`. -/
theorem reach_transact (frame payload : List Byte) (final : Bit) (data : List Op) (f : State → Result × State)
    (hf : RunsAs data f) (hd : ∀ rest, failOps (data ++ rest) = failOps rest) (rest tail : List Op) (s : State)
    (hfail : failOps (.unlock :: rest) = .unlock :: tail) :
    (∀ e, transact frame payload final f s = .error e →
      ReachFault (setSeq (transactionOps frame payload final data ++ rest) s) e) ∧
    (∀ r t, transact frame payload final f s = .ok (r, t) →
      (r = .ok ∧ Reach (setSeq (transactionOps frame payload final data ++ rest) s) (setSeq rest t)) ∨
      (r = .nosak ∧ Reach (setSeq (transactionOps frame payload final data ++ rest) s) (setSeq tail t))) := by
  have h0 : Reach (setSeq (transactionOps frame payload final data ++ rest) s)
      (setSeq (.lock :: ((.startHeader :: .sendFrame frame final :: data) ++ .unlock :: rest))
        (standbyPulse (loadWbuf (frame ++ payload) s))) := by
    have h1 : transactionOps frame payload final data ++ rest = .loadWbuf (frame ++ payload) :: .standbyPulse :: .lock ::
        ((.startHeader :: .sendFrame frame final :: data) ++ .unlock :: rest) := by simp [transactionOps]
    rw [h1]
    exact Reach.trans ⟨1, rfl⟩ (reach_standbyPulse _ (loadWbuf (frame ++ payload) s))
  have h2 := reach_guarded _ _ (transactionBody_runsAs frame final data f hf hd) rest tail
    (standbyPulse (loadWbuf (frame ++ payload) s)) hfail
  refine ⟨fun e he => h0.fault (h2.1 e he), fun r t ht => ?_⟩
  rcases h2.2 r t ht with ⟨hr, h⟩ | ⟨hr, h⟩
  · exact Or.inl ⟨hr, h0.trans h⟩
  · exact Or.inr ⟨hr, h0.trans h⟩

theorem failOps_recvFrame (n : Nat) (rest : List Op) : failOps ([.recvFrame n] ++ rest) = failOps rest :=
  failOps_cons Op.noConfusion rest

theorem failOps_payload (p : List Byte) (rest : List Op) : failOps ([.sendFrame p true] ++ rest) = failOps rest :=
  failOps_cons Op.noConfusion rest

/-- WRITE after its checks (R186, R58). -/
theorem reach_writeOp (a : Addr) (n : Nat) (p : List Byte) (rest : List Op) (s : State) :
    (∀ e, writeOp a n p s = .error e → ReachFault (setSeq (writeOps a n p s ++ rest) s) e) ∧
    (∀ r t, writeOp a n p s = .ok (r, t) →
      (r = .ok ∧ Reach (setSeq (writeOps a n p s ++ rest) s) (setSeq rest t)) ∨
      (r = .nosak ∧ Reach (setSeq (writeOps a n p s ++ rest) s) (setSeq [.ret .nosak] t))) := by
  have h0 : Reach (setSeq (writeOps a n p s ++ rest) s)
      (setSeq (transactionOps (cmdframe4 s.devaddr .write a) p false [.sendFrame p true] ++ .written a :: rest)
        (loadAddr a n s)) := by
    have h1 : writeOps a n p s ++ rest = .loadAddr a n ::
        (transactionOps (cmdframe4 s.devaddr .write a) p false [.sendFrame p true] ++ .written a :: rest) := by
      simp [writeOps]
    rw [h1]
    exact reach_tick rfl
  have h1 := reach_transact (cmdframe4 s.devaddr .write a) p false _ _ (sendPayload_runsAs p) (failOps_payload p)
    (.written a :: rest) [.losePage a, .ret .nosak] (loadAddr a n s) (failOps_write a rest)
  have h2 : writeOp a n p s =
      finishWrite a (transact (cmdframe4 s.devaddr .write a) p false (sendPayload p) (loadAddr a n s)) := rfl
  rw [h2]
  cases hx : transact (cmdframe4 s.devaddr .write a) p false (sendPayload p) (loadAddr a n s) with
  | error f =>
    refine ⟨fun e h => ?_, fun r t h => (by cases h)⟩
    injection h with h
    subst h
    exact h0.fault (h1.1 f hx)
  | ok x =>
    obtain ⟨r, t⟩ := x
    refine ⟨fun e h => (by cases h), fun r' t' h => ?_⟩
    injection h with h
    injection h with hr ht
    subst hr ht
    rcases h1.2 r t hx with ⟨rfl, h⟩ | ⟨rfl, h⟩
    · exact Or.inl ⟨rfl, (h0.trans h).trans (reach_tick rfl)⟩
    · exact Or.inr ⟨rfl, (h0.trans h).trans (reach_tick rfl)⟩

/-- One turn of the poll loop (R198). -/
theorem reach_pollTurn (rest : List Op) (s : State) (hlim : limitReached s = false) :
    (∀ e, poll (gap s) = .error e → ReachFault (setSeq (.pollLoop :: rest) s) e) ∧
    (∀ r t, poll (gap s) = .ok (r, t) →
      (r = .ok ∧ Reach (setSeq (.pollLoop :: rest) s)
        (setSeq (if statusBusy (countPoll t) then .pollLoop :: rest else rest) (countPoll t))) ∨
      (r = .nosak ∧ Reach (setSeq (.pollLoop :: rest) s) (setSeq [.ret .nosak] (countPoll t)))) := by
  have h0 : Reach (setSeq (.pollLoop :: rest) s) (setSeq (pollOps s ++ rest) s) := by
    apply reach_tick
    have h1 : limitReached (setSeq (.pollLoop :: rest) s) = false := hlim
    simp only [tick, h1, Bool.false_eq_true, if_false]
    rfl
  have h1 : Reach (setSeq (pollOps s ++ rest) s)
      (setSeq (.lock :: ((.startHeader :: .sendFrame (cmdframe2 s.devaddr .rdsr) false :: [.recvFrame 1]) ++
        .unlock :: .countPoll :: .testWip :: rest)) (loadWbuf (cmdframe2 s.devaddr .rdsr) (gap s))) :=
    Reach.trans (t := setSeq (.wait .gap :: (pollOps s ++ rest).tail) s) (reach_tick rfl)
      ((reach_wait _ _ _).trans (reach_tick rfl))
  have h2 := reach_guarded _ _ (transactionBody_runsAs (cmdframe2 s.devaddr .rdsr) false [.recvFrame 1] (recvFrame 1)
    (recvFrame_runsAs 1) (failOps_recvFrame 1)) (.countPoll :: .testWip :: rest) [.countPoll, .ret .nosak]
    (loadWbuf (cmdframe2 s.devaddr .rdsr) (gap s)) (failOps_poll _)
  have h3 : ∀ (x : List Op) (u : State), Reach (setSeq (.countPoll :: x) u) (setSeq x (countPoll u)) :=
    fun _ _ => reach_tick rfl
  have h4 : ∀ u : State, Reach (setSeq (.testWip :: rest) u) (setSeq (if statusBusy u then .pollLoop :: rest else rest) u) :=
    fun _ => reach_tick rfl
  refine ⟨fun e he => (h0.trans h1).fault (h2.1 e he), fun r t ht => ?_⟩
  rcases h2.2 r t ht with ⟨hr, h⟩ | ⟨hr, h⟩
  · exact Or.inl ⟨hr, (((h0.trans h1).trans h).trans (h3 _ _)).trans (h4 _)⟩
  · exact Or.inr ⟨hr, ((h0.trans h1).trans h).trans (h3 _ _)⟩

/-- Where the sequencer stands after a run of WAIT_WIP or PAGED_WRITE that left off so, `rest` after the loop. -/
def Ending.goesTo (e : Ending) (rest : List Op) : List Op :=
  match e with
  | .ends .ok => rest
  | .ends r => [.ret r]
  | .polling todo => .pollLoop :: (todo ++ rest)

/-- The turns of the poll loop (R198). -/
theorem reach_waitTurns (turns : Nat) (rest : List Op) (s : State) :
    (∀ e, waitTurns turns s = .error e → ReachFault (setSeq (.pollLoop :: rest) s) e) ∧
    (∀ e t, waitTurns turns s = .ok (e, t) → Reach (setSeq (.pollLoop :: rest) s) (setSeq (e.goesTo rest) t)) := by
  induction turns generalizing s with
  | zero =>
    constructor
    · intro e h
      cases h
    · intro e t h
      injection h with h
      injection h with he ht
      subst he ht
      exact Reach.refl _
  | succ turns ih =>
    cases hlim : limitReached s with
    | true =>
      simp only [waitTurns, hlim, if_true]
      constructor
      · intro e h
        cases h
      · intro e t h
        injection h with h
        injection h with he ht
        subst he ht
        apply reach_tick
        have h1 : limitReached (setSeq (.pollLoop :: rest) s) = true := hlim
        simp only [tick, h1, if_true]
        rfl
    | false =>
      have hp := reach_pollTurn rest s hlim
      simp only [waitTurns, hlim, Bool.false_eq_true, if_false]
      cases hx : poll (gap s) with
      | error f =>
        constructor
        · intro e h
          injection h with h
          subst h
          exact hp.1 f hx
        · intro e t h
          cases h
      | ok x =>
        obtain ⟨r, t⟩ := x
        rcases hp.2 r t hx with ⟨rfl, h⟩ | ⟨rfl, h⟩
        · simp only
          cases hb : statusBusy (countPoll t) with
          | true =>
            simp only [hb, if_true] at h ⊢
            exact ⟨fun e he => h.fault ((ih (countPoll t)).1 e he), fun e u hu => h.trans ((ih (countPoll t)).2 e u hu)⟩
          | false =>
            simp only [hb, Bool.false_eq_true, if_false] at h ⊢
            constructor
            · intro e h
              cases h
            · intro e u hu
              injection hu with hu
              injection hu with he hu
              subst he hu
              exact h
        · constructor
          · intro e h
            cases h
          · intro e u hu
            injection hu with hu
            injection hu with he hu
            subst he hu
            exact h

/-- WAIT_WIP (R198). -/
theorem reach_waitOp (rest : List Op) (s : State) :
    (∀ e, waitOp s = .error e → ReachFault (setSeq (.pollStart :: .pollLoop :: rest) s) e) ∧
    (∀ e t, waitOp s = .ok (e, t) → Reach (setSeq (.pollStart :: .pollLoop :: rest) s) (setSeq (e.goesTo rest) t)) := by
  have h0 : Reach (setSeq (.pollStart :: .pollLoop :: rest) s) (setSeq (.pollLoop :: rest) (pollStart s)) := reach_tick rfl
  have h1 := reach_waitTurns (turnsPerRun s) rest (pollStart s)
  exact ⟨fun e he => h0.fault (h1.1 e he), fun e t ht => h0.trans (h1.2 e t ht)⟩

/-- WREN and WRITE of one chunk (R201). -/
theorem reach_chunkOp (a : Addr) (chunk : List Byte) (rest : List Op) (s : State) :
    (∀ e, chunkOp a chunk s = .error e → ReachFault (setSeq (.wren :: .write a chunk.length chunk :: rest) s) e) ∧
    (∀ r t, chunkOp a chunk s = .ok (r, t) →
      (r = .ok ∧ Reach (setSeq (.wren :: .write a chunk.length chunk :: rest) s) (setSeq rest t)) ∨
      (r = .nosak ∧ Reach (setSeq (.wren :: .write a chunk.length chunk :: rest) s) (setSeq [.ret .nosak] t))) := by
  have h0 : Reach (setSeq (.wren :: .write a chunk.length chunk :: rest) s)
      (setSeq (wrenOps s ++ .write a chunk.length chunk :: rest) s) := reach_tick rfl
  have h1 := reach_transact (cmdframe2 s.devaddr .wren) [] true [] noData noData_runsAs (fun _ => rfl)
    (.write a chunk.length chunk :: rest) [.ret .nosak] s
    (failOps_unlock _ (fun _ => by simp) (fun _ _ => by simp))
  simp only [chunkOp]
  cases hw : wrenOp s with
  | error f =>
    refine ⟨fun e h => ?_, fun r t h => (by cases h)⟩
    injection h with h
    subst h
    exact h0.fault (h1.1 f hw)
  | ok x =>
    obtain ⟨r, t⟩ := x
    rcases h1.2 r t hw with ⟨rfl, h⟩ | ⟨rfl, h⟩
    · have h3 : Reach (setSeq (.write a chunk.length chunk :: rest) t)
          (setSeq (writeOps a chunk.length chunk t ++ rest) t) := reach_tick rfl
      have h2 := (h0.trans h).trans h3
      have h4 := reach_writeOp a chunk.length chunk rest t
      refine ⟨fun e he => h2.fault (h4.1 e he), fun r u hu => ?_⟩
      rcases h4.2 r u hu with ⟨hr, h⟩ | ⟨hr, h⟩
      · exact Or.inl ⟨hr, h2.trans h⟩
      · exact Or.inr ⟨hr, h2.trans h⟩
    · refine ⟨fun e h => (by cases h), fun r u hu => ?_⟩
      injection hu with hu
      injection hu with he hu
      subst he hu
      exact Or.inr ⟨rfl, h0.trans h⟩

/-- The page loop (R201). -/
theorem reach_pagedTurns (turns : Nat) (a : Addr) (p : List Byte) (rest : List Op) (s : State) (hn : p.length ≤ turns) :
    (∀ e, pagedTurns turns a p s = .error e → ReachFault (setSeq (.pages a p :: rest) s) e) ∧
    (∀ e t, pagedTurns turns a p s = .ok (e, t) → Reach (setSeq (.pages a p :: rest) s) (setSeq (e.goesTo rest) t)) := by
  have hempty : ∀ a (s : State), Reach (setSeq (.pages a [] :: rest) s) (setSeq rest s) := fun _ _ => reach_tick rfl
  have hdone : ∀ a (s : State), (∀ e, (.ok (.ends .ok, s) : Except Fault (Ending × State)) = .error e →
      ReachFault (setSeq (.pages a [] :: rest) s) e) ∧
      (∀ e t, (.ok (.ends .ok, s) : Except Fault (Ending × State)) = .ok (e, t) →
        Reach (setSeq (.pages a [] :: rest) s) (setSeq (e.goesTo rest) t)) := by
    intro a s
    constructor
    · intro e h
      cases h
    · intro e t h
      injection h with h
      injection h with he ht
      subst he ht
      exact hempty a s
  induction turns generalizing a p s with
  | zero =>
    have h0 : p = [] := List.length_eq_zero_iff.mp (by omega)
    subst h0
    exact hdone a s
  | succ turns ih =>
    by_cases hp : p = []
    · subst hp
      exact hdone a s
    have hpe : p.isEmpty = false := by simpa using hp
    have h0 : Reach (setSeq (.pages a p :: rest) s) (setSeq (pageOps a p ++ rest) (loadAddr a p.length s)) := by
      apply reach_tick
      simp only [tick, hpe, Bool.false_eq_true, if_false]
      rfl
    have h1 := reach_chunkOp a (p.take (chunkLen a p.length)) (.pollStart :: .pollLoop ::
      .pages (addrPlus a (chunkLen a p.length)) (p.drop (chunkLen a p.length)) :: rest) (loadAddr a p.length s)
    simp only [pagedTurns, hpe, Bool.false_eq_true, if_false]
    cases hx : chunkOp a (p.take (chunkLen a p.length)) (loadAddr a p.length s) with
    | error f =>
      constructor
      · intro e h
        injection h with h
        subst h
        exact h0.fault (h1.1 f hx)
      · intro e t h
        cases h
    | ok x =>
      obtain ⟨r, t⟩ := x
      rcases h1.2 r t hx with ⟨rfl, h⟩ | ⟨rfl, h⟩
      swap
      · constructor
        · intro e h
          cases h
        · intro e u hu
          injection hu with hu
          injection hu with he hu
          subst he hu
          exact h0.trans h
      have h2 := h0.trans h
      have h3 := reach_waitOp (.pages (addrPlus a (chunkLen a p.length)) (p.drop (chunkLen a p.length)) :: rest) t
      simp only
      cases hw : waitOp t with
      | error f =>
        constructor
        · intro e h
          injection h with h
          subst h
          exact h2.fault (h3.1 f hw)
        · intro e t h
          cases h
      | ok x =>
        obtain ⟨e, u⟩ := x
        have h4 := h2.trans (h3.2 e u hw)
        have hcl := chunkLen_pos a (List.length_pos_iff.mpr hp)
        have h5 := ih (addrPlus a (chunkLen a p.length)) (p.drop (chunkLen a p.length)) u (by simp; omega)
        match e with
        | .ends .ok => exact ⟨fun e he => h4.fault (h5.1 e he), fun e v hv => h4.trans (h5.2 e v hv)⟩
        | .ends .nosak | .ends .boundary | .ends .timeout | .ends .badlen | .ends .refused =>
          constructor
          · intro e h
            cases h
          · intro e v hv
            injection hv with hv
            injection hv with he hv
            subst he hv
            exact h4
        | .polling todo =>
          constructor
          · intro e h
            cases h
          · intro e v hv
            injection hv with hv
            injection hv with he hv
            subst he hv
            simpa [Ending.goesTo] using h4

end Sys2Proof.Machine
end

