-- ==== Sys2Proof/Laws/Tick.lean ====
section
/-! SUPPORT. What one operation of the sequencer does when it goes on (R33): the line stays on a path back to the idle
line (R175, R262), and what no operation writes is left alone (R39). -/

namespace Sys2Proof.Machine

open Sys2Proof.Safety

/-- What may run at a line whose latch is not known may run where it is. -/
theorem admits_known (op : Op) (d g v) (h : Line.admits op ⟨d, none, g⟩ = true) : Line.admits op ⟨d, some v, g⟩ = true := by
  cases op <;> simp_all [Line.admits, Line.rest]

theorem after_known (op : Op) (d g v) : Line.after op ⟨d, some v, g⟩ = Line.after op ⟨d, none, g⟩ ∨
   ∃ v', Line.after op ⟨d, some v, g⟩ = ⟨(Line.after op ⟨d, none, g⟩).dir, some v', (Line.after op ⟨d, none, g⟩).guard⟩ ∧ (Line.after op ⟨d, none, g⟩).lvl = none := by
  cases op with
  | sendBits k => cases k <;> simp [Line.after]
  | recvBits k => cases k <;> simp [Line.after, Line.afterByte]
  | recvBytes k => cases k <;> simp [Line.after, Line.afterByte]
  | recvFrame k => cases k <;> simp [Line.after, Line.afterByte]
  | sendFrame k f => cases k <;> simp [Line.after, Line.afterByte]
  | _ => simp [Line.after, Line.afterByte, Line.rest]

theorem settles_known (todo : List Op) (d g v) (h : settles todo ⟨d, none, g⟩ = true) : settles todo ⟨d, some v, g⟩ = true := by
  induction todo generalizing d g v with
  | nil => simp [settles, Line.rest] at h
  | cons op rest ih =>
    simp only [settles, Bool.and_eq_true] at h ⊢
    refine ⟨admits_known op d g v h.1, ?_⟩
    rcases after_known op d g v with h1 | ⟨v', h1, h2⟩
    · rw [h1]; exact h.2
    · rw [h1]
      apply ih
      have h3 := h.2
      generalize Line.after op ⟨d, none, g⟩ = L at *
      cases L
      simp only at h2
      subst h2
      exact h3

theorem settles_fail (rest : List Op) (g) : settles (failOps rest) ⟨.output, some true, g⟩ = true := by
  unfold failOps
  split <;> rfl

theorem tick_settles (op : Op) (rest : List Op) (s t : State) (h : tick op rest s = .ok t)
    (hs : settles (op :: rest) (lineOf s) = true) : settles t.seq (lineOf t) = true := by
  simp only [settles, Bool.and_eq_true] at hs
  obtain ⟨ha, hr⟩ := hs
  have known : ∀ v, settles rest ⟨s.dir, none, s.guard⟩ = true → settles rest ⟨s.dir, some v, s.guard⟩ = true :=
    fun v => settles_known rest _ _ v
  cases op
  case lock =>
    simp only [tick, lock] at h
    split at h
    · cases h
    · injection h with h; subst h; exact hr
  case sendBits k =>
    cases k with
    | zero => injection h with h; subst h; exact hr
    | succ k =>
      injection h with h; subst h
      cases k with
      | zero => 
        apply known
        exact hr
      | succ k => exact hr
  case recvBits k =>
    cases k with
    | zero => injection h with h; subst h; exact hr
    | succ k =>
      injection h with h; subst h
      cases k with
      | zero => exact hr
      | succ k => exact hr
  case recvBytes k =>
    cases k with
    | zero => injection h with h; subst h; exact hr
    | succ k =>
      injection h with h; subst h
      cases k with
      | zero => exact hr
      | succ k => exact hr
  case recvFrame k =>
    injection h with h; subst h
    cases k with
    | zero => exact hr
    | succ k => exact hr
  case sendFrame bs f =>
    cases bs with
    | nil => injection h with h; subst h; exact hr
    | cons b bs =>
      injection h with h; subst h
      cases bs with
      | nil => exact hr
      | cons _ _ => exact hr
  case checkSak =>
    injection h with h; subst h
    simp only [setSeq_seq]
    split
    · exact hr
    · simp only [Line.admits, Bool.and_eq_true, decide_eq_true_eq] at ha
      have : lineOf (setSeq (failOps rest) s) = ⟨.output, some true, s.guard⟩ := by
        cases s; simp_all [lineOf, setSeq]
      rw [this]
      apply settles_fail
  case write a n p =>
    injection h with h; subst h
    simp only [Line.admits, decide_eq_true_eq] at ha
    have hl : ∀ x, lineOf (setSeq x s) = Line.rest := fun x => ha
    rw [hl]
    simp only [setSeq_seq]
    cases p <;> exact hr
  case pollLoop =>
    injection h with h; subst h
    simp only [Line.admits, decide_eq_true_eq] at ha
    have hl : ∀ x, lineOf (setSeq x s) = Line.rest := fun x => ha
    rw [hl]
    simp only [setSeq_seq]
    split
    · rfl
    · exact hr
  case testWip =>
    injection h with h; subst h
    simp only [Line.admits, decide_eq_true_eq] at ha
    have hl : ∀ x, lineOf (setSeq x s) = Line.rest := fun x => ha
    rw [hl]
    simp only [setSeq_seq]
    split
    · exact hr
    · exact hr
  case pages a p =>
    injection h with h; subst h
    simp only [Line.admits, decide_eq_true_eq] at ha
    have hl : lineOf s = Line.rest := ha
    split
    · change settles rest (lineOf s) = true
      exact hl ▸ hr
    · change settles (pageOps a p ++ rest) (lineOf s) = true
      rw [hl]
      exact hr
  case wren =>
    injection h with h; subst h
    simp only [Line.admits, decide_eq_true_eq] at ha
    have hl : ∀ x, lineOf (setSeq x s) = Line.rest := fun x => ha
    rw [hl]
    exact hr
  case ret r =>
    injection h with h; subst h
    exact ha
  case retData =>
    injection h with h; subst h
    exact ha
  all_goals
    injection h with h; subst h; exact hr

/-- No operation writes the address register, the constants, the parameters or the host's commands (R21, R25), and
each keeps what holds of the environment but a page that it loses (R58). -/
theorem tick_keeps (op : Op) (rest : List Op) (s t : State) (h : tick op rest s = .ok t) :
    t.devaddr = s.devaddr ∧ t.timing = s.timing ∧ t.params = s.params ∧ t.host = s.host ∧ EnvKeepsBut (lostByOp op) s.env t.env := by
  cases op
  case lock =>
    simp only [tick, lock] at h
    split at h
    · cases h
    · injection h with h
      subst h
      exact ⟨rfl, rfl, rfl, rfl, (emit_keeps _ { s with guard := true }).but⟩
  case setOutput => injection h with h; subst h; exact ⟨rfl, rfl, rfl, rfl, (emit_keeps _ { s with dir := .output }).but⟩
  case setInput => injection h with h; subst h; exact ⟨rfl, rfl, rfl, rfl, (emit_keeps _ { s with dir := .input }).but⟩
  case setLevel v => injection h with h; subst h; exact ⟨rfl, rfl, rfl, rfl, (emit_keeps _ { s with lvl := v }).but⟩
  case sampleA =>
    injection h with h; subst h; exact ⟨rfl, rfl, rfl, rfl, (emit_keeps _ { s with sa := s.env.answer s.dir s.lvl }).but⟩
  case sampleB =>
    injection h with h; subst h; exact ⟨rfl, rfl, rfl, rfl, (emit_keeps _ { s with sb := s.env.answer s.dir s.lvl }).but⟩
  case wait c => injection h with h; subst h; exact ⟨rfl, rfl, rfl, rfl, (emit_keeps _ s).but⟩
  case unlock => injection h with h; subst h; exact ⟨rfl, rfl, rfl, rfl, (emit_keeps _ { s with guard := false }).but⟩
  case sendBits k => cases k <;> (injection h with h; subst h; exact ⟨rfl, rfl, rfl, rfl, EnvKeepsBut.refl _ _⟩)
  case recvBits k => cases k <;> (injection h with h; subst h; exact ⟨rfl, rfl, rfl, rfl, EnvKeepsBut.refl _ _⟩)
  case recvBytes k => cases k <;> (injection h with h; subst h; exact ⟨rfl, rfl, rfl, rfl, EnvKeepsBut.refl _ _⟩)
  case sendFrame bs f => cases bs <;> (injection h with h; subst h; exact ⟨rfl, rfl, rfl, rfl, EnvKeepsBut.refl _ _⟩)
  case losePage a => injection h with h; subst h; exact ⟨rfl, rfl, rfl, rfl, losePage_keepsBut a s⟩
  case pages a p =>
    injection h with h; subst h
    split <;> exact ⟨rfl, rfl, rfl, rfl, EnvKeepsBut.refl _ _⟩
  all_goals
    injection h with h; subst h; exact ⟨rfl, rfl, rfl, rfl, EnvKeepsBut.refl _ _⟩

end Sys2Proof.Machine
end

