-- ==== Sys2Proof/Tests/Slice0.lean ====
section
/-! SUPPORT. Tests of the model: expected results are the spec's own (the encoding tables of 30_encoding.md, the
worked examples of 43_frame_codec.md and 44_commands.md, the programs P1 to P6 of 95_test_vectors.md), one step
each; and, for every statement with hypotheses, a witness that meets them together. -/

namespace Sys2Proof.Tests

open Sys2Proof Sys2Proof.Machine Sys2Proof.Safety

/-! ### Operand checks -/

/-- R184, D12: a READ of no byte. -/
theorem test_wf_read : (Instr.read 0x000C 2).wf = true ∧ (Instr.read 0x000C 0).wf = false := by decide

/-- R186, R187: `WRITE 0x000C, 4` ends at a page boundary; `WRITE 0x000C, 5` crosses it. -/
theorem test_wf_write_page : (Instr.write 0x000C 4 [1, 2, 3, 4]).wf = true ∧
    (Instr.write 0x000C 5 [1, 2, 3, 4, 5]).wf = false := by decide

/-- R186: a payload of another length, and no payload. -/
theorem test_wf_write_length : (Instr.write 0x0000 3 [1, 2]).wf = false ∧ (Instr.write 0x0000 0 []).wf = false := by
  decide

/-- R201, R203: PAGED_WRITE may cross pages but not pass the top. -/
theorem test_wf_paged : (Instr.pagedWrite 0xFFFE 2 [1, 2]).wf = true ∧ (Instr.pagedWrite 0xFFFF 2 [1, 2]).wf = false := by
  decide

/-- R201: a payload of another length, and no payload. -/
theorem test_wf_paged_length : (Instr.pagedWrite 0 2 [1]).wf = false ∧ (Instr.pagedWrite 0 0 []).wf = false := by decide

/-! ### Decoding: frames written out from R80 and R85, at the device address 0xA0 -/

/-- R184: `READ 0x000C, 2` is `A0 03 00 0C`. -/
theorem test_decode_read : decode [0xA0, 0x03, 0x00, 0x0C] 2 [] = .ok (.read 0x000C 2) ∧
    encode 0xA0 (.read 0x000C 2) = some [0xA0, 0x03, 0x00, 0x0C] := ⟨rfl, rfl⟩

/-- R186: `WRITE 0x000C, 4, [1,2,3,4]` is `A0 6C 00 0C`. -/
theorem test_decode_write : decode [0xA0, 0x6C, 0x00, 0x0C] 4 [1, 2, 3, 4] = .ok (.write 0x000C 4 [1, 2, 3, 4]) ∧
    encode 0xA0 (.write 0x000C 4 [1, 2, 3, 4]) = some [0xA0, 0x6C, 0x00, 0x0C] := ⟨rfl, rfl⟩

/-- R85: the five `F2` rows and their opcodes. -/
theorem test_decode_two_bytes : decode [0xA0, 0x96] 0 [] = .ok .wren ∧ decode [0xA0, 0x91] 0 [] = .ok .wrdi ∧
    decode [0xA0, 0x05] 0 [] = .ok .rdsr ∧ decode [0xA0, 0x6D] 0 [] = .ok .eral ∧
    decode [0xA0, 0x67] 0 [] = .ok .setal := ⟨rfl, rfl, rfl, rfl, rfl⟩

/-- R192: the value of WRSR is byte 2 of its frame. -/
theorem test_decode_wrsr : decode [0xA0, 0x6E, 0x5A] 0 [] = .ok (.wrsr 0x5A) ∧
    encode 0xA0 (.wrsr 0x5A) = some [0xA0, 0x6E, 0x5A] := ⟨rfl, rfl⟩

/-- R78: the start header 0x55 is a byte of its own and no opcode. -/
theorem test_decode_header : decode [0x55] 0 [] = .ok .startHeader ∧
    decode [0xA0, 0x55] 0 [] = .error (.reservedOpcode 0x55) := ⟨rfl, rfl⟩

/-- R86, R80: what names no command. -/
theorem test_decode_refusals : decode [] 0 [] = .error .emptyFrame ∧ decode [0xA0] 0 [] = .error (.loneByte 0xA0) ∧
    decode [0xA0, 0x05, 0x00] 0 [] = .error (.wrongLength .rdsr 3) := ⟨rfl, rfl, rfl⟩

/-- R89: the two pseudo-instructions have no frame and are asked for by the `cmd` port (R40). -/
theorem test_decode_pseudo : decodeRequest (.call .waitWip 0 0 []) = .ok .waitWip ∧ encode 0xA0 .waitWip = none ∧
    decodeRequest (.call .pagedWrite 0x000C 2 [1, 2]) = .ok (.pagedWrite 0x000C 2 [1, 2]) ∧
    encode 0xA0 (.pagedWrite 0x000C 2 [1, 2]) = none := ⟨rfl, rfl, rfl, rfl⟩

/-! ### One command each, against the programs of the spec -/

/-- The reference slave of section 3 at the address 0xA0, its write cycle one poll long (P2). -/
def testSlave : Slave := { Slave.reset with answers := true, k0 := 1 }

/-- The master of the programs: `DEVADDR = 0xA0`, a poll limit, the bulk commands allowed. -/
def testState : State :=
  { State.reset with
    devaddr := 0xA0, params := { pollLimit := some 3, maxLen := none, bulkOps := true, dominantLevel := false },
    env := { script := [], draws := 0, slave := testSlave } }

/-- `testState` with another slave. -/
def withTestSlave (sl : Slave) : State := { testState with env := { script := [], draws := 0, slave := sl } }

/-- `testState` where the oracle answers from a script. -/
def withScript (bits : List Bit) : State := { testState with env := { Env.reset with script := bits } }

/-- The next state, or the state itself where there is none. -/
def after (i : Instr) (s : State) : State :=
  match exec i s with
  | .next t => t
  | .fault _ => s
  | .refused _ => s

/-- Whether a command answers a next state. -/
def completes (i : Instr) (s : State) : Bool :=
  match exec i s with
  | .next _ => true
  | .fault _ => false
  | .refused _ => false

theorem next_of_completes {i : Instr} {s : State} (h : completes i s = true) : exec i s = .next (after i s) := by
  unfold completes at h
  unfold after
  split at h
  · rename_i t ht
    rw [ht]
  · cases h
  · cases h

/-- P1: status 0x00, 352 events, 3030 microseconds. -/
theorem test_rdsr : (after .rdsr testState).result = .ok ∧ (after .rdsr testState).rdata = some [0x00] ∧
    (after .rdsr testState).trace.length = 352 ∧ requestedTime (after .rdsr testState).events = 3030 := by decide +kernel

/-- P5: the bytes 0xDE and 0xAD at 0x000C, 614 events, 4830 microseconds. -/
theorem test_read :
    let s := withTestSlave { testSlave with mem := [(0x000C, 0xDE), (0x000D, 0xAD)] }
    (after (.read 0x000C 2) s).rdata = some [0xDE, 0xAD] ∧ (after (.read 0x000C 2) s).trace.length = 614 ∧
      requestedTime (after (.read 0x000C 2) s).events = 4830 := by decide +kernel

/-- What the oracle answers in a byte slot the master drives, its acknowledgement at the end. -/
def sentAnswers (ack : Bit) : List Bit := List.replicate 18 true ++ (if ack then [false, true] else [true, true])

/-- What it answers in a byte slot it fills with `v`. -/
def receivedAnswers (v : Byte) (ack : Bit) : List Bit :=
  (msbFirst v).flatMap (fun b => if b then [false, true] else [true, false]) ++ [true, true] ++
    (if ack then [false, true] else [true, true])

/-- P5b: silence in the last acknowledgement: 614 events, `NOSAK`, no data (R226). -/
theorem test_read_nosak :
    let s := withScript (sentAnswers false ++ sentAnswers true ++ sentAnswers true ++ sentAnswers true ++
      sentAnswers true ++ receivedAnswers 0xDE true ++ receivedAnswers 0xAD false)
    (after (.read 0x000C 2) s).result = .nosak ∧ (after (.read 0x000C 2) s).rdata = none ∧
      (after (.read 0x000C 2) s).trace.length = 614 := by decide +kernel

/-- R186: `WRITE 0x000C, 4, [1,2,3,4]`: 418 + 82*4 events, and the bytes are in the array. -/
theorem test_write : (after (.write 0x000C 4 [1, 2, 3, 4]) testState).result = .ok ∧
    (after (.write 0x000C 4 [1, 2, 3, 4]) testState).env.slave.mem =
      [(0x000C, 1), (0x000D, 2), (0x000E, 3), (0x000F, 4)] ∧
    (after (.write 0x000C 4 [1, 2, 3, 4]) testState).trace.length = 746 := by decide +kernel

/-- P4: a write that straddles a page: `BOUNDARY`, no event. -/
theorem test_write_boundary : (after (.write 0x000C 8 [1, 2, 3, 4, 5, 6, 7, 8]) testState).result = .boundary ∧
    (after (.write 0x000C 8 [1, 2, 3, 4, 5, 6, 7, 8]) testState).trace = [] := by decide +kernel

/-- R188: 254 events, 2430 microseconds. -/
theorem test_wren : (after .wren testState).result = .ok ∧ (after .wren testState).trace.length = 254 ∧
    requestedTime (after .wren testState).events = 2430 := by decide +kernel

/-- R189: the byte slots `S(DEVADDR,0) S(0x91,1)` inside the guard. -/
theorem test_wrdi : (after .wrdi testState).result = .ok ∧
    (after .wrdi testState).events.map eraseSample =
      standbyShape Config.timing ++ guardedShape Config.timing [.sent 0xA0 false, .sent 0x91 true] := by decide +kernel

/-- R192, section 3: the value goes into `STATUS[7:1]`; 336 events. -/
theorem test_wrsr : (after (.wrsr 0x0D) testState).env.slave.status = 0x0C ∧
    (after (.wrsr 0x0D) testState).trace.length = 336 := by decide +kernel

/-- R194: the shape of WREN with opcode 0x6D where `BULK_OPS` is true. -/
theorem test_eral : (after .eral testState).result = .ok ∧
    (after .eral testState).events.map eraseSample =
      standbyShape Config.timing ++ guardedShape Config.timing [.sent 0xA0 false, .sent 0x6D true] := by decide +kernel

/-- R194, V59: refused by default, by its code. -/
theorem test_eral_refused : exec .eral State.reset = .refused (.declined .refused) := rfl

/-- R195: opcode 0x67. -/
theorem test_setal : (after .setal testState).result = .ok ∧
    (after .setal testState).events.map eraseSample =
      standbyShape Config.timing ++ guardedShape Config.timing [.sent 0xA0 false, .sent 0x67 true] := by decide +kernel

/-- R195: refused by default. -/
theorem test_setal_refused : exec .setal State.reset = .refused (.declined .refused) := rfl

/-- R168: 84 events, 610 microseconds, the line an output at level 1; the slave acknowledges nothing (section 3). -/
theorem test_startHeader : (after .startHeader testState).trace.length = 84 ∧
    requestedTime (after .startHeader testState).events = 610 ∧ (after .startHeader testState).sakf = false ∧
    (after .startHeader testState).dir = .output ∧ (after .startHeader testState).lvl = true := by decide +kernel

/-- P6: three polls read `WIP = 1`: `TIMEOUT`, 1047 events, 7275 microseconds. -/
theorem test_waitWip_timeout :
    let s := withTestSlave { testSlave with status := 1 }
    (after .waitWip s).result = .timeout ∧ (after .waitWip s).pollcnt = 3 ∧ (after .waitWip s).trace.length = 1047 ∧
      requestedTime (after .waitWip s).events = 7275 := by decide +kernel

/-- R199: an idle slave is polled once: 349 events, 2425 microseconds. -/
theorem test_waitWip : (after .waitWip testState).result = .ok ∧ (after .waitWip testState).pollcnt = 1 ∧
    (after .waitWip testState).trace.length = 349 ∧ requestedTime (after .waitWip testState).events = 2425 := by
  decide +kernel

/-- P2: two WRITEs, 3396 events, 26,620 microseconds, and the array. -/
theorem test_pagedWrite :
    let t := after (.pagedWrite 0x000C 8 [0x11, 0x22, 0x33, 0x44, 0x55, 0x66, 0x77, 0x88]) testState
    t.result = .ok ∧ t.trace.length = 3396 ∧ requestedTime t.events = 26620 ∧
      Memory.readMany t.env.slave.mem 0x000B 10 = [0xFF, 0x11, 0x22, 0x33, 0x44, 0x55, 0x66, 0x77, 0x88, 0xFF] := by
  decide +kernel

/-- R203, V67: a range past the top is refused whole. -/
theorem test_pagedWrite_top : exec (.pagedWrite 0xFFF8 9 [1, 2, 3, 4, 5, 6, 7, 8, 9]) testState =
    .refused (.declined .badlen) := rfl

/-- V49: a READ of no byte. -/
theorem test_read_none : exec (.read 0x0000 0) testState = .refused (.declined .badlen) := rfl

/-- P3: an absent device: 172 events, 1830 microseconds, the guard released. -/
theorem test_absent :
    let t := after (.read 0x0010 3) (withTestSlave { testSlave with present := false })
    t.result = .nosak ∧ t.rdata = none ∧ t.trace.length = 172 ∧ requestedTime t.events = 1830 ∧ t.guard = false := by
  decide +kernel

/-- R120: `XFER_BIT(1)` at `DIR = OUT` is `L d15 s d15 H d15 s d15`. -/
theorem test_xferBit : ((xferBit true testState).events.map eraseSample) =
    [.drv false, .dly 15, .smp false, .dly 15, .drv true, .dly 15, .smp false, .dly 15] := by decide +kernel

/-- R124: the slave presents 1: `I L d15 SMP(0) d15 H d15 SMP(1) d15 O`, result 1. -/
theorem test_recvBit : (recvBit (withScript [false, true])).events =
    [.inp, .drv false, .dly 15, .smp false, .dly 15, .drv true, .dly 15, .smp true, .dly 15, .out] ∧
    slotValue (recvBit (withScript [false, true])) = true := by decide +kernel

/-- R140: `SEND_BYTE(0x55, true)` is the slots `T0 T1 T0 T1 T0 T1 T0 T1 T1 R`. -/
theorem test_sendByte : (sendByte 0x55 true testState).events.map eraseSample =
    ([false, true, false, true, false, true, false, true, true].flatMap (slotShape Config.timing)) ++
      recvShape Config.timing := by decide +kernel

/-- R144: 1,0,1,0,0,0,0,0 and an acknowledgement give `(0xA0, 1)`. -/
theorem test_recvByte : (recvByte true (withScript (receivedAnswers 0xA0 true))).shreg = 0xA0 ∧
    (recvByte true (withScript (receivedAnswers 0xA0 true))).sakf = true := by decide +kernel

/-- One operation of the sequencer (R33): a bit slot is entered by its first drive (R120). -/
theorem test_tick : (match step { testState with seq := [.xferBit true] } with
    | .next t => t.seq
    | .fault _ => []
    | .refused _ => []) = slotOps true := by decide +kernel

/-! ### Witnesses: hypotheses of the statements, met together -/

/-- The timing premise of WaitRequestsConstantPlusFudge, XferBitEvents, RecvBitEvents, SendByteSlots and
StandbyPulseAndGap. -/
theorem witness_WaitRequestsConstantPlusFudge : State.reset.timing = Config.timing := rfl

theorem witness_DecodeOfEncode : encode 0xA0 (.read 0x000C 2) = some [0xA0, 0x03, 0x00, 0x0C] := rfl

theorem witness_EncodeOfDecode : decode [0xA0, 0x6E, 0x0C] 0 [] = .ok (.wrsr 0x0C) := rfl

theorem witness_ReservedOpcodesRefused : (0x55 : Byte) ∉ ([0x03, 0x6C, 0x96, 0x91, 0x05, 0x6E, 0x6D, 0x67] : List Byte) := by
  decide

theorem witness_OnlyTheLastSlotCarriesMakLast : (1 : Nat) ≠ 0 ∧ ([0x5A] : List Byte) ≠ [] ∧
    statusSlots 0xA0 ∈ [sentSlots (cmdframe4 0xA0 .read 0) false ++ receivedSlots 1,
      sentSlots (cmdframe4 0xA0 .write 0) false ++ sentSlots [0x5A] true, sentSlots (cmdframe2 0xA0 .wren) true,
      sentSlots (cmdframe3 0xA0 .rdsr 0) true, statusSlots 0xA0] := by decide

/-- A state that presents a request at `IDLE`. -/
def asks (r : Request) : State := { testState with host := [r] }

theorem witness_StepRunsTheRequestedCommand :
    (asks (.call .rdsr 0 0 [])).seq = [] ∧ decodeRequest (.call .rdsr 0 0 []) = .ok .rdsr ∧
    decodeRequest (.image [0xA0, 0x55] 0 []) = .error (.reservedOpcode 0x55) ∧ testState.host = [] :=
  ⟨rfl, rfl, rfl, rfl⟩

theorem witness_StepRunsTheFetchedWord : decodeTableWord 16 0xA096 = some .wren := by decide

/-- A state in the middle of WAIT_WIP. -/
def polls : State := { testState with seq := [.pollLoop, .ret .ok], params := { testState.params with pollLimit := none } }

theorem witness_StepRunsOneOperation : polls.seq = .pollLoop :: [.ret .ok] := rfl

theorem witness_StartWhileRunningIsRefused : polls.seq ≠ [] := by decide

theorem witness_OneOperationEmitsAtMostOneEvent :
    ∃ t, tick .lock [] testState = .ok t ∧ t.events = [.lock] := ⟨_, rfl, by decide +kernel⟩

/-- Both directions of PrimitivesWriteAndEmit. -/
theorem witness_PrimitivesWriteAndEmit : testState.dir = .output ∧ (setInput testState).dir = .input := ⟨rfl, rfl⟩

theorem witness_timing : testState.timing = Config.timing := rfl

theorem witness_RecvBitTruthTable : (withScript [false, true]).env.slave.answers = false ∧
    (withScript [false, true]).env.script = false :: true :: [] := ⟨rfl, rfl⟩

theorem witness_SendByteIgnoresDrivenSamples :
    (withScript (List.replicate 18 true ++ [false, true])).env.slave.answers = false ∧
    (List.replicate 18 true).length = 18 ∧
    (withScript (List.replicate 18 true ++ [false, true])).env.script = List.replicate 18 true ++ false :: true :: [] :=
  ⟨rfl, rfl, rfl⟩

theorem witness_GuardIsOneDeep : ({ testState with guard := true } : State).guard = true ∧ testState.guard = false :=
  ⟨rfl, rfl⟩

theorem witness_CommandsFaultWhileGuardHeld :
    ({ testState with guard := true } : State).seq = [] ∧ ({ testState with guard := true } : State).guard = true ∧
    readBadLen testState.params 1 = false ∧ writeBadLen 4 [1, 2, 3, 4] = false ∧ crossesPage 0x000C 4 = false ∧
    testState.params.bulkOps = true ∧ testState.params.pollLimit ≠ some 0 ∧ pagedBadLen 0xFFFF 1 [1] = false := by decide

theorem witness_ReadCompletes : Ready testState ∧ readBadLen testState.params 1 = false := ⟨⟨rfl, rfl⟩, rfl⟩

/-- With a largest length, a READ of just that length. -/
theorem witness_ReadCompletes_limit :
    readBadLen { testState.params with maxLen := some 4 } 4 = false ∧
    readBadLen { testState.params with maxLen := some 4 } 5 = true := by decide

theorem witness_WriteCompletes : Ready testState ∧ 1 ≤ 4 ∧ ([1, 2, 3, 4] : List Byte).length = 4 ∧
    (0x000C : Addr).toNat % 16 + 4 ≤ 16 := ⟨⟨rfl, rfl⟩, by decide, rfl, by decide⟩

theorem witness_WrenAndWrdiComplete : Ready testState ∧ (Instr.wren = .wren ∧ Opcode.wren = .wren) ∧
    (Instr.wrdi = .wrdi ∧ Opcode.wrdi = .wrdi) := ⟨⟨rfl, rfl⟩, ⟨rfl, rfl⟩, ⟨rfl, rfl⟩⟩

theorem witness_RdsrCompletes : Ready State.reset := ⟨rfl, rfl⟩

theorem witness_WrsrCompletes : Ready State.reset := ⟨rfl, rfl⟩

theorem witness_BulkCommandsComplete : Ready testState ∧ testState.params.bulkOps = true := ⟨⟨rfl, rfl⟩, rfl⟩

theorem witness_StartHeaderCompletes : State.reset.seq = [] := rfl

theorem witness_WaitWipCompletes : Idle testState ∧ testState.params.pollLimit = some 3 := ⟨⟨rfl, rfl, rfl, rfl⟩, rfl⟩

/-- At a limit of no poll WAIT_WIP makes none. -/
theorem witness_WaitWipCompletes_zero :
    let s : State := { testState with params := { testState.params with pollLimit := some 0 } }
    Idle s ∧ s.params.pollLimit = some 0 ∧ (after .waitWip s).result = .timeout ∧ (after .waitWip s).trace = [] :=
  ⟨⟨rfl, rfl, rfl, rfl⟩, rfl, by decide +kernel, by decide +kernel⟩

theorem witness_WaitWipWithoutLimit : Ready State.reset ∧ State.reset.params.pollLimit = none := ⟨⟨rfl, rfl⟩, rfl⟩

/-- A PAGED_WRITE between two of its chunks. -/
def pages (p : List Byte) : State := { polls with seq := [.pages 0x0010 p, .ret .ok] }

theorem witness_UnlimitedPollingGoesOn : polls.seq = .pollLoop :: [.ret .ok] ∧ polls.guard = false ∧
    polls.params.pollLimit = none ∧ (pages [1]).seq = .pages 0x0010 [1] :: [.ret .ok] ∧ (pages [1]).guard = false ∧
    ([1] : List Byte) ≠ [] ∧ (pages []).seq = .pages 0x0010 [] :: [.ret .ok] :=
  ⟨rfl, rfl, rfl, rfl, rfl, by decide, rfl⟩

theorem witness_PagedWriteCompletes : Idle testState ∧ testState.params.pollLimit = some 3 ∧ 1 ≤ 2 ∧
    ([1, 2] : List Byte).length = 2 ∧ (0xFFFE : Addr).toNat + 2 ≤ 0x10000 :=
  ⟨⟨rfl, rfl, rfl, rfl⟩, rfl, by decide, rfl, by decide⟩

theorem witness_PagedWriteWithoutLimit : Idle State.reset ∧ State.reset.params.pollLimit = none ∧ 1 ≤ 1 ∧
    ([1] : List Byte).length = 1 ∧ (0xFFFF : Addr).toNat + 1 ≤ 0x10000 :=
  ⟨⟨rfl, rfl, rfl, rfl⟩, rfl, by decide, rfl, by decide⟩

theorem witness_FailedChecksTouchNothing : testState.seq = [] ∧
    ((0 : Nat) = 0 ∨ ∃ m, testState.params.maxLen = some m ∧ m < 0) ∧
    (∃ m, ({ testState.params with maxLen := some 4 } : Params).maxLen = some m ∧ m < 5) ∧
    ([1, 2] : List Byte).length ≠ 3 ∧ 16 < (0x000C : Addr).toNat % 16 + 5 ∧
    0x10000 < (0xFFFF : Addr).toNat + 2 := ⟨rfl, Or.inl rfl, ⟨4, rfl, by decide⟩, by decide, by decide, by decide⟩

theorem witness_BulkCommandsRefusedByDefault : State.reset.seq = [] ∧ State.reset.params.bulkOps = false := ⟨rfl, rfl⟩

theorem witness_ChunksStayInOnePage : ([1, 2] : List Byte) ≠ [] ∧ (0xFFFE : Addr).toNat + ([1, 2] : List Byte).length ≤ 0x10000 ∧
    (0x000C : Addr).toNat + 4 < 0x10000 := by decide

theorem witness_NoDataOnFailure : Instr.write 0x000F 2 [1, 2] ≠ .startHeader ∧
    exec (.write 0x000F 2 [1, 2]) testState = .next (after (.write 0x000F 2 [1, 2]) testState) ∧
    (after (.write 0x000F 2 [1, 2]) testState).done = true ∧ (after (.write 0x000F 2 [1, 2]) testState).result ≠ .ok :=
  ⟨by decide, rfl, rfl, by decide +kernel⟩

theorem witness_RequestedTimes : Ready testState ∧ testState.timing = Config.timing ∧
    exec (.read 0x000C 1) testState = .next (after (.read 0x000C 1) testState) ∧
    (after (.read 0x000C 1) testState).result = .ok ∧
    exec (.write 0x000C 1 [1]) testState = .next (after (.write 0x000C 1 [1]) testState) ∧
    (after (.write 0x000C 1 [1]) testState).result = .ok ∧
    exec .wrdi testState = .next (after .wrdi testState) ∧ (after .wrdi testState).result = .ok :=
  ⟨⟨rfl, rfl⟩, rfl, next_of_completes (by decide +kernel), by decide +kernel, next_of_completes (by decide +kernel),
    by decide +kernel, next_of_completes (by decide +kernel), by decide +kernel⟩

theorem witness_RequestedTimes_status : exec .rdsr testState = .next (after .rdsr testState) ∧
    (after .rdsr testState).result = .ok ∧ exec (.wrsr 0) testState = .next (after (.wrsr 0) testState) ∧
    (after (.wrsr 0) testState).result = .ok :=
  ⟨next_of_completes (by decide +kernel), by decide +kernel, next_of_completes (by decide +kernel), by decide +kernel⟩

theorem witness_RequestedTimes_eral : exec .eral testState = .next (after .eral testState) ∧
    (after .eral testState).result = .ok :=
  ⟨next_of_completes (by decide +kernel), by decide +kernel⟩

theorem witness_RequestedTimes_waitWip : exec .waitWip testState = .next (after .waitWip testState) ∧
    ((after .waitWip testState).done = true → (after .waitWip testState).result ≠ .nosak) :=
  ⟨next_of_completes (by decide +kernel), by decide +kernel⟩

/-- The invariant in the middle of a command, where a step goes on. -/
theorem witness_StepKeepsInvariant : Inv polls ∧ ∃ t, step polls = .next t :=
  ⟨⟨by decide +kernel, by decide +kernel⟩, _, rfl⟩

theorem witness_FixedStateNeverWritten :
    step (asks (.call .rdsr 0 0 [])) = .next (after .rdsr testState) := by
  have h1 : step (asks (.call .rdsr 0 0 [])) = exec .rdsr testState := rfl
  exact h1.trans (next_of_completes (by decide +kernel))

theorem witness_TraceOnlyGrows : ∃ t, step polls = .next t := ⟨_, rfl⟩

theorem witness_CommandsKeepGuardDiscipline : Instr.rdsr ≠ .startHeader ∧ testState.guard = false ∧
    exec .rdsr testState = .next (after .rdsr testState) :=
  ⟨by decide, rfl, next_of_completes (by decide +kernel)⟩

theorem witness_EventRunReachesCommand : testState.seq = [] ∧ (∃ u, load .rdsr testState = .next u) ∧
    load .eral State.reset = .refused (.declined .refused) := ⟨rfl, ⟨_, rfl⟩, rfl⟩

theorem witness_OracleLeavesSlaveButOnePage : State.reset.env.slave.answers = false ∧
    Memory.wf State.reset.env.slave.mem = true ∧ step State.reset = .next State.reset ∧
    lostByStep State.reset State.reset = none := ⟨rfl, rfl, rfl, rfl⟩

/-- The step that ends a failed WRITE at the last address of the array, one operation at a time. -/
theorem witness_OracleLeavesSlaveButOnePage_op :
    let s : State := { State.reset with seq := [.losePage 0xFFFF, .ret .nosak] }
    s.env.slave.answers = false ∧ Memory.wf s.env.slave.mem = true ∧ (∃ t, step s = .next t) ∧
      lostByStep s s = some 0xFFFF ∧ pageStart 0xFFFF = 0xFFF0 := ⟨rfl, rfl, ⟨_, rfl⟩, rfl, rfl⟩

/-- An oracle that acknowledges no byte of the command frame. -/
def refuses : State := withScript (sentAnswers false ++ sentAnswers false)

/-- The same by the command the host asks for. -/
theorem witness_OracleLeavesSlaveButOnePage_command :
    let s : State := { refuses with host := [.call .write 0xFFFF 1 [1]] }
    s.env.slave.answers = false ∧ Memory.wf s.env.slave.mem = true ∧
      step s = .next (after (.write 0xFFFF 1 [1]) refuses) ∧
      lostByStep s (after (.write 0xFFFF 1 [1]) refuses) = some 0xFFFF :=
  ⟨rfl, rfl, (show step _ = exec (.write 0xFFFF 1 [1]) refuses from rfl).trans (next_of_completes (by decide +kernel)),
    by decide +kernel⟩

/-- R58, R225: a WRITE whose first byte is not acknowledged, in the last page of the array. -/
theorem witness_FailedWriteLosesItsPage : refuses.seq = [] ∧ Memory.wf refuses.env.slave.mem = true ∧
    exec (.write 0xFFFF 1 [1]) refuses = .next (after (.write 0xFFFF 1 [1]) refuses) ∧
    (after (.write 0xFFFF 1 [1]) refuses).result = .nosak ∧
    0xFFF0 / Config.page = (0xFFFF : Addr).toNat / Config.page :=
  ⟨rfl, rfl, next_of_completes (by decide +kernel), by decide +kernel, by decide⟩

/-- An oracle that acknowledges a WREN and no byte of the WRITE after it. -/
def refusesWrite : State :=
  withScript (sentAnswers false ++ sentAnswers true ++ sentAnswers true ++ sentAnswers false ++ sentAnswers false)

/-- R58, R201: a PAGED_WRITE across two pages whose first WRITE is not acknowledged, its chunk the last of a page. -/
theorem witness_FailedWriteLosesItsPage_paged : refusesWrite.seq = [] ∧ Memory.wf refusesWrite.env.slave.mem = true ∧
    exec (.pagedWrite 0x000F 2 [1, 2]) refusesWrite = .next (after (.pagedWrite 0x000F 2 [1, 2]) refusesWrite) ∧
    (after (.pagedWrite 0x000F 2 [1, 2]) refusesWrite).done = true ∧
    (after (.pagedWrite 0x000F 2 [1, 2]) refusesWrite).result = .nosak ∧
    (after (.pagedWrite 0x000F 2 [1, 2]) refusesWrite).addr = 0x000F ∧
    0x000F / Config.page = (0x000F : Addr).toNat / Config.page :=
  ⟨rfl, rfl, next_of_completes (by decide +kernel), by decide +kernel, by decide +kernel, by decide +kernel,
    by decide⟩

/-- R201: one whose WREN is not acknowledged, which loses no page. -/
theorem witness_FailedWriteLosesItsPage_wren :
    exec (.pagedWrite 0x000F 2 [1, 2]) refuses = .next (after (.pagedWrite 0x000F 2 [1, 2]) refuses) ∧
    (after (.pagedWrite 0x000F 2 [1, 2]) refuses).done = true ∧
    (after (.pagedWrite 0x000F 2 [1, 2]) refuses).result = .nosak ∧
    (after (.pagedWrite 0x000F 2 [1, 2]) refuses).env.slave.mem = [] :=
  ⟨next_of_completes (by decide +kernel), by decide +kernel, by decide +kernel, by decide +kernel⟩

/-- The operation that ends a failed WRITE. -/
theorem witness_FailedWriteLosesItsPage_op :
    let s : State := { State.reset with seq := [.losePage 0xFFFF, .ret .nosak] }
    s.seq = .losePage 0xFFFF :: [.ret .nosak] ∧ Memory.wf s.env.slave.mem = true ∧ ∃ t, step s = .next t :=
  ⟨rfl, rfl, _, rfl⟩

theorem witness_Idle_SlaveReady : Idle testState ∧ SlaveReady testState := ⟨⟨rfl, rfl, rfl, rfl⟩, ⟨rfl, rfl, rfl⟩⟩

theorem witness_RdsrReturnsStatusRegister : Idle testState ∧ SlaveReady testState := witness_Idle_SlaveReady

theorem witness_WrsrWritesStatusRegister : Idle testState ∧ SlaveReady testState := witness_Idle_SlaveReady

theorem witness_ReadReturnsArrayBytes : Idle testState ∧ SlaveReady testState ∧ readBadLen testState.params 2 = false ∧
    (0xFFFE : Addr).toNat + 2 ≤ 0x10000 := ⟨witness_Idle_SlaveReady.1, witness_Idle_SlaveReady.2, rfl, by decide⟩

theorem witness_WriteStoresPayload : Idle testState ∧ SlaveReady testState ∧
    Memory.wf testState.env.slave.mem = true ∧ 1 ≤ 16 ∧ (List.replicate 16 (0x5A : Byte)).length = 16 ∧
    (0x0010 : Addr).toNat % 16 + 16 ≤ 16 :=
  ⟨witness_Idle_SlaveReady.1, witness_Idle_SlaveReady.2, rfl, by decide, rfl, by decide⟩

/-- A READ, the write back of what it gave, and the READ again. -/
theorem witness_ReadWriteReadRoundTrip :
    let t := after (.read 0x000C 1) testState
    let u := after (.write 0x000C 1 [0xFF]) t
    Idle testState ∧ SlaveReady testState ∧ Memory.wf testState.env.slave.mem = true ∧
      readBadLen testState.params 1 = false ∧ (0x000C : Addr).toNat % 16 + 1 ≤ 16 ∧
      exec (.read 0x000C 1) testState = .next t ∧ t.rdata = some [0xFF] ∧ exec (.write 0x000C 1 [0xFF]) t = .next u ∧
      exec (.read 0x000C 1) u = .next (after (.read 0x000C 1) u) :=
  ⟨witness_Idle_SlaveReady.1, witness_Idle_SlaveReady.2, rfl, rfl, by decide, next_of_completes (by decide +kernel),
    by decide +kernel, next_of_completes (by decide +kernel), next_of_completes (by decide +kernel)⟩

/-- One slave for each clause of WaitWipCountsPolls, at the last count the limit of three allows. -/
theorem witness_WaitWipCountsPolls :
    (Idle testState ∧ SlaveReady testState ∧ testState.params.pollLimit = some 3 ∧
      testState.env.slave.status.getLsbD 0 = false ∧ 1 ≤ 3) ∧
    (let s := withTestSlave { testSlave with status := 1, k := 2 }
     Idle s ∧ SlaveReady s ∧ s.params.pollLimit = some 3 ∧ s.env.slave.status.getLsbD 0 = true ∧ 1 ≤ s.env.slave.k ∧
       s.env.slave.k + 1 ≤ 3) ∧
    (let s := withTestSlave { testSlave with status := 1 }
     Idle s ∧ SlaveReady s ∧ s.params.pollLimit = some 3 ∧ s.env.slave.status.getLsbD 0 = true ∧ s.env.slave.k = 0) :=
  ⟨⟨⟨rfl, rfl, rfl, rfl⟩, ⟨rfl, rfl, rfl⟩, rfl, rfl, by decide⟩,
    ⟨⟨rfl, rfl, rfl, rfl⟩, ⟨rfl, rfl, rfl⟩, rfl, rfl, by decide, by decide⟩,
    ⟨⟨rfl, rfl, rfl, rfl⟩, ⟨rfl, rfl, rfl⟩, rfl, rfl, rfl⟩⟩

theorem witness_PagedWriteStoresPayload : Idle testState ∧ SlaveReady testState ∧
    Memory.wf testState.env.slave.mem = true ∧ testState.env.slave.status.getLsbD 0 = false ∧
    testState.params.pollLimit = some 3 ∧ testState.env.slave.k0 + 1 ≤ 3 ∧ 1 ≤ 2 ∧
    ([1, 2] : List Byte).length = 2 ∧ (0xFFFE : Addr).toNat + 2 ≤ 0x10000 :=
  ⟨witness_Idle_SlaveReady.1, witness_Idle_SlaveReady.2, rfl, rfl, rfl, by decide, by decide, rfl, by decide⟩

/-- `testState` with no slave on the line. -/
def nobody : State := withTestSlave { testSlave with present := false }

theorem witness_AbsentSlaveGivesNoSak : Idle nobody ∧ nobody.env.slave.answers = true ∧ nobody.env.slave.present = false ∧
    Instr.wren ∈ ([.wren, .wrdi, .rdsr] : List Instr) ∧ Instr.setal ∈ ([.eral, .setal] : List Instr) ∧
    nobody.params.bulkOps = true ∧ readBadLen nobody.params 3 = false ∧ writeBadLen 4 [1, 2, 3, 4] = false ∧
    crossesPage 0x000C 4 = false ∧ pagedBadLen 0xFFFF 1 [1] = false ∧ nobody.params.pollLimit ≠ some 0 :=
  ⟨⟨rfl, rfl, rfl, rfl⟩, rfl, rfl, by decide, by decide, rfl, rfl, by decide, by decide, by decide, by decide⟩

/-- R223: WAIT_WIP fails in its first poll, which is counted; the shape is that of P3 without the pulse. -/
theorem test_absent_waitWip : (after .waitWip nobody).result = .nosak ∧ (after .waitWip nobody).pollcnt = 1 ∧
    (after .waitWip nobody).trace.length = 169 := by decide +kernel

theorem witness_OtherCommandsKeepTheArray : Idle testState ∧ (∀ a n p, Instr.rdsr ≠ .write a n p) ∧
    (∀ a n p, Instr.rdsr ≠ .pagedWrite a n p) ∧ Instr.rdsr ≠ .eral ∧ Instr.rdsr ≠ .setal ∧
    exec .rdsr testState = .next (after .rdsr testState) :=
  ⟨⟨rfl, rfl, rfl, rfl⟩, fun _ _ _ => Instr.noConfusion, fun _ _ _ => Instr.noConfusion, Instr.noConfusion,
    Instr.noConfusion, next_of_completes (by decide +kernel)⟩

end Sys2Proof.Tests
end

/-! PROOFS. No step takes an event back (R9, R62): what a step that goes on can be, what one operation of the sequencer
adds to the trace, and what a command adds to it. -/

namespace Sys2Proof.Machine

theorem tickOutcome_next {x : Except Fault State} {t : State} (h : tickOutcome x = .next t) : x = .ok t := by
  match x, h with
  | .ok u, h =>
    injection h with h
    rw [h]

/-- The steps that answer a next state: one operation of the sequencer while a command is under way (R33), a wait where
the host presents nothing (R260), or the whole command that the host presents (R41). -/
theorem step_next {s t : State} (h : step s = .next t) :
    (∃ op rest, s.seq = op :: rest ∧ tick op rest s = .ok t) ∨
    (s.seq = [] ∧ s.host = [] ∧ t = s) ∨
    (∃ r rest i, s.seq = [] ∧ s.host = r :: rest ∧ decodeRequest r = .ok i ∧ exec i { s with host := rest } = .next t) := by
  cases hs : s.seq with
  | cons op rest =>
    simp only [step, hs] at h
    exact Or.inl ⟨op, rest, rfl, tickOutcome_next h⟩
  | nil =>
    right
    cases hh : s.host with
    | nil =>
      simp only [step, hs, fetch, hh] at h
      injection h with h
      exact Or.inl ⟨rfl, rfl, h.symm⟩
    | cons r rest =>
      cases hd : decodeRequest r with
      | error e =>
        simp only [step, hs, fetch, hh, hd] at h
        cases h
      | ok i =>
        simp only [step, hs, fetch, hh, hd] at h
        exact Or.inr ⟨r, rest, i, rfl, rfl, hd, h⟩

/-- `LOCK()` goes on only where it takes the guard (R172). -/
theorem lock_ok {s t : State} (h : lock s = .ok t) : s.guard = false ∧ t = takeGuard s := by
  cases hg : s.guard <;> simp only [lock, hg, if_true, Bool.false_eq_true, if_false] at h <;> cases h
  exact ⟨rfl, rfl⟩

/-- One operation of the sequencer leaves the trace as it is or puts one event before it, the newest first (R33). -/
theorem tick_trace {op : Op} {rest : List Op} {s t : State} (h : tick op rest s = .ok t) :
    t.trace = s.trace ∨ ∃ e, t.trace = e :: s.trace := by
  cases op
  -- the primitives of the line and timing units and the guard, one event each
  case lock =>
    simp only [tick] at h
    cases hl : lock s with
    | error f => rw [hl] at h; cases h
    | ok u =>
      rw [hl] at h
      injection h with h
      subst h
      rw [(lock_ok hl).2]
      exact Or.inr ⟨_, rfl⟩
  case setOutput | setInput | setLevel | sampleA | sampleB | wait | unlock =>
    injection h with h
    subst h
    exact Or.inr ⟨_, rfl⟩
  -- the operations that `tick` tells apart by their operand, which only rewrite `SEQ`
  case sendBits k | recvBits k | recvBytes k =>
    cases k <;> (injection h with h; subst h; exact Or.inl rfl)
  case sendFrame bytes final =>
    cases bytes <;> (injection h with h; subst h; exact Or.inl rfl)
  case pages a p =>
    injection h with h
    subst h
    split <;> exact Or.inl rfl
  -- every other operation writes registers and `SEQ` only
  all_goals
    injection h with h
    subst h
    exact Or.inl rfl

/-- `tick_trace` in time order (R9). -/
theorem tick_events {op : Op} {rest : List Op} {s t : State} (h : tick op rest s = .ok t) :
    t.events = s.events ∨ ∃ e, t.events = s.events ++ [e] := by
  rcases tick_trace h with h | ⟨e, h⟩
  · exact Or.inl (by rw [State.events, h, State.events])
  · exact Or.inr ⟨e, by rw [State.events, h, List.reverse_cons, State.events]⟩

/-- A command that answers a next state has added its events at the end of the trace (R9, R62). -/
theorem exec_events {i : Instr} {s t : State} (h : exec i s = .next t) : ∃ evs, t.events = s.events ++ evs := by
  by_cases hi : i = .startHeader
  · subst hi
    obtain ⟨evs, hevs, -⟩ := execStartHeader_next h
    exact ⟨evs, hevs⟩
  · obtain ⟨evs, hx⟩ := exec_next i hi h
    exact ⟨evs, hx.events⟩

/-- Settles O47, by the three kinds of step: an operation adds at most one event, a wait adds none, and a command adds
those of its body. -/
theorem traceOnlyGrows : Obligations.TraceOnlyGrows := by
  intro s t h
  rcases step_next h with ⟨op, rest, -, h⟩ | ⟨-, -, rfl⟩ | ⟨r, rest, i, -, -, -, h⟩
  · rcases tick_events h with h | ⟨e, h⟩
    · exact ⟨[], by rw [h, List.append_nil]⟩
    · exact ⟨[e], h⟩
  · exact ⟨[], (List.append_nil _).symm⟩
  · obtain ⟨evs, hevs⟩ := exec_events h
    exact ⟨evs, hevs⟩

end Sys2Proof.Machine

/-! PROOFS. The request ports, reset and the step (10_state.md): what a step is at `IDLE` and while a command is under
way, and what no step writes (R21, R25, R39, R58).

An obstacle of the joined compile: elaboration that waits for the kernel holds a thread of 256 MB each, and the tests
before this text nearly use up the limit of `check.sh`. Hence no `structure` is declared in these proofs, and lists name
their constructors in full (`Op.ret`, `Event.dly`): each of the two was seen to wait. -/

namespace Sys2Proof.Machine

open Sys2Proof.Safety

/-- Settles O4, instruction by instruction: the ports of each name its command and carry its operands. -/
theorem requestCarriesInstruction : Obligations.RequestCarriesInstruction := by
  intro i
  cases i <;> rfl

/-- Settles O8: each value is the one the reset state is written with. -/
theorem resetValues : Obligations.ResetValues := ⟨rfl, rfl, rfl, rfl, rfl, rfl, rfl⟩

/-- A start while a command runs has no meaning (R41, R243). -/
theorem issue_busy (k : State → Host.Outcome State Fault Refusal) {s : State} (h : s.seq ≠ []) :
    issue k s = .refused .busy := by
  cases hs : s.seq with
  | nil => exact absurd hs h
  | cons op rest => rw [issue, hs]

/-- A start at `IDLE` runs the command (R41). -/
theorem issue_idle (k : State → Host.Outcome State Fault Refusal) {s : State} (h : s.seq = []) : issue k s = k s := by
  rw [issue, h]

/-- Settles O13: every instruction goes through `issue`, which refuses a start at another place than `IDLE`. -/
theorem startWhileRunningIsRefused : Obligations.StartWhileRunningIsRefused := by
  intro i s h
  cases i <;> simp only [exec, execRead, execWrite, execWren, execWrdi, execRdsr, execWrsr, execEral, execSetal,
    execStartHeader, execWaitWip, execPagedWrite, issue_busy _ h]

/-- At `IDLE` a request that names a command is taken from the host's list and executed (R41). -/
theorem step_request {s : State} {r : Request} {rest : List Request} {i : Instr} (hs : s.seq = [])
    (hh : s.host = r :: rest) (hd : decodeRequest r = .ok i) : step s = exec i { s with host := rest } := by
  simp only [step, hs, fetch, hh, hd]

/-- At `IDLE` a request that names no command is refused with the decoder's reason (R86, R243). -/
theorem step_undecodable {s : State} {r : Request} {rest : List Request} {e : DecodeError} (hs : s.seq = [])
    (hh : s.host = r :: rest) (hd : decodeRequest r = .error e) : step s = .refused (.undecodable e) := by
  simp only [step, hs, fetch, hh, hd]

/-- At `IDLE` with nothing to do the master waits (R260). -/
theorem step_wait {s : State} (hs : s.seq = []) (hh : s.host = []) : step s = .next s := by
  simp only [step, hs, fetch, hh]

/-- Settles O10, by the three things the host's ports can hold at `IDLE`. -/
theorem stepRunsTheRequestedCommand : Obligations.StepRunsTheRequestedCommand := fun _ hs =>
  ⟨fun _ _ _ hh hd => step_request hs hh hd, fun _ _ _ hh hd => step_undecodable hs hh hd, fun hh => step_wait hs hh⟩

/-- A table word is the frame of the request that stands for it (log 11). -/
theorem decode_of_decodeTableWord {nbits w : Nat} {i : Instr} (h : decodeTableWord nbits w = some i) :
    decodeRequest (.image (tableBytes (nbits / 8) w) tableLen tablePayload) = .ok i := by
  simp only [decodeTableWord] at h
  simp only [decodeRequest]
  split at h
  · rename_i j hj
    injection h with h
    rw [hj, h]
  · cases h

/-- Settles O11: the word stands first among the host's requests, and `SEQ` is at `IDLE`. -/
theorem stepRunsTheFetchedWord : Obligations.StepRunsTheFetchedWord := fun s nbits w _ h =>
  step_request (s := s.withFetchWord nbits w) rfl rfl (decode_of_decodeTableWord h)

/-- Settles O12: the operation at the head of `SEQ` decides the step. -/
theorem stepRunsOneOperation : Obligations.StepRunsOneOperation := by
  intro s op rest h
  simp only [step, h]

/-- Settles O14, from the one case analysis of the operations, `tick_trace`. -/
theorem oneOperationEmitsAtMostOneEvent : Obligations.OneOperationEmitsAtMostOneEvent := fun _ _ _ _ h => tick_events h

/-- `Wait` at the constants of R25 (R109). -/
theorem wait_events_default {s : State} (h : s.timing = Config.timing) (c : Delay) :
    (wait c s).events = s.events ++ [Event.dly (requestedDelay Config.timing c)] := h ▸ (wait_ran c s).events

/-- Settles O16: `Wait` adds the delay of its constant, which is the constant and the fudge factor (R109). -/
theorem waitRequestsConstantPlusFudge : Obligations.WaitRequestsConstantPlusFudge := fun _ h =>
  ⟨wait_events_default h .quarter, wait_events_default h .hdr, wait_events_default h .stbyLow,
    wait_events_default h .stbyHigh, wait_events_default h .gap⟩

/-- What every instruction that answers a next state leaves alone (R21, R25, R39, R58). -/
theorem exec_keeps {i : Instr} {s t : State} (h : exec i s = .next t) :
    CommandFrame s t ∧ EnvKeepsBut (lostBy i t) s.env t.env := by
  by_cases hi : i = .startHeader
  · subst hi
    obtain ⟨evs, -, hf, he, -⟩ := execStartHeader_next h
    exact ⟨hf, he.but⟩
  · obtain ⟨evs, hx⟩ := exec_next i hi h
    exact ⟨hx.frame, hx.env⟩

theorem lostByStep_op {s : State} {op : Op} {rest : List Op} (t : State) (hs : s.seq = op :: rest) :
    lostByStep s t = lostByOp op := by
  simp only [lostByStep, hs]

theorem lostByStep_request {s : State} {r : Request} {rest : List Request} {i : Instr} (t : State) (hs : s.seq = [])
    (hh : s.host = r :: rest) (hd : decodeRequest r = .ok i) : lostByStep s t = lostBy i t := by
  simp only [lostByStep, hs, fetch, hh, hd]

/-- What every step that goes on leaves alone: the parameters, the host's commands but the one it takes, and what is
known of a silent slave but the page of a failed WRITE (R21, R25, R39, R58). -/
theorem step_keeps {s t : State} (h : step s = .next t) :
    t.devaddr = s.devaddr ∧ t.timing = s.timing ∧ t.params = s.params ∧ (t.host = s.host ∨ t.host = s.host.tail) ∧
      EnvKeepsBut (lostByStep s t) s.env t.env := by
  rcases step_next h with ⟨op, rest, hs, h⟩ | ⟨-, -, rfl⟩ | ⟨r, rest, i, hs, hh, hd, h⟩
  · obtain ⟨h1, h2, h3, h4, h5⟩ := tick_keeps op rest s t h
    exact ⟨h1, h2, h3, Or.inl h4, lostByStep_op t hs ▸ h5⟩
  · exact ⟨rfl, rfl, rfl, Or.inl rfl, EnvKeepsBut.refl _ _⟩
  · obtain ⟨hf, he⟩ := exec_keeps h
    exact ⟨hf.devaddr, hf.timing, hf.params, Or.inr (by rw [hh]; exact hf.host), lostByStep_request t hs hh hd ▸ he⟩

/-- Settles O46: the registers among what every step leaves alone. -/
theorem fixedStateNeverWritten : Obligations.FixedStateNeverWritten := by
  intro s t h
  obtain ⟨h1, h2, h3, h4, -⟩ := step_keeps h
  exact ⟨h1, h2, h3, h4⟩

/-- Settles O50: the environment among what every step leaves alone. -/
theorem oracleLeavesSlaveButOnePage : Obligations.OracleLeavesSlaveButOnePage := by
  intro s t ha hw h
  obtain ⟨-, -, -, -, -, he⟩ := step_keeps h
  obtain ⟨h1, h2, h3⟩ := he ha
  exact ⟨h1, h2, fun a hl x hx => h3 a hl hw x hx⟩

end Sys2Proof.Machine

/-! PROOFS. RECV_BYTE and RECV_FRAME as whole operations: their events counted, the byte read back from its slots, and
their frame (R144, R163, R39). -/

namespace Sys2Proof.Machine

open Sys2Proof.Safety

/-- Line events write nothing but the line, the bit registers, the buffers and the environment (R39). -/
theorem Ran.frame_eq {s t : State} {evs : List Event} (h : Ran s t evs) :
    t = { s with dir := t.dir, lvl := t.lvl, guard := t.guard, shreg := t.shreg, sa := t.sa, sb := t.sb,
                 sakf := t.sakf, wbuf := t.wbuf, rbuf := t.rbuf, env := t.env, trace := t.trace } := by
  obtain ⟨-, hdev, htim, hpar, hadr, hlen, hseq, hres, hpol, hhost, hdone, hdata, hep, -⟩ := h
  cases s
  cases t
  simp only at hdev htim hpar hadr hlen hseq hres hpol hhost hdone hdata hep
  subst hdev htim hpar hadr hlen hseq hres hpol hhost hdone hdata hep
  rfl

/-- A byte assembled from eight bits shows them again, most significant first (R54, R144). -/
theorem msbFirst_byteOfBits : ∀ a b c d e f g i : Bit,
    msbFirst (byteOfBits [a, b, c, d, e, f, g, i]) = [a, b, c, d, e, f, g, i] := by decide

/-- A received byte slot is 98 events (R146). -/
theorem byteShape_received_length (t : Timing) (m : Bit) : (byteShape t (.received m)).length = 98 := rfl

/-- A bit slot requests four quarters (R120). -/
theorem requestedTime_slotShape (t : Timing) (w : Bit) :
    requestedTime (slotShape t w) = 4 * requestedDelay t .quarter := by
  simp only [slotShape, requestedTime]
  omega

/-- A receive slot requests the time of its bit slot (R124). -/
theorem requestedTime_recvShape (t : Timing) : requestedTime (recvShape t) = 4 * requestedDelay t .quarter :=
  (requestedTime_append (slotShape t true) [Event.out]).trans (requestedTime_slotShape t true)

/-- A received byte slot requests the time of its ten bit slots (R148). -/
theorem requestedTime_byteShape_received (t : Timing) (m : Bit) :
    requestedTime (byteShape t (.received m)) = 40 * requestedDelay t .quarter := by
  simp only [byteShape, List.replicate, List.flatten_cons, List.flatten_nil, requestedTime_append,
    requestedTime_recvShape, requestedTime_slotShape, requestedTime]
  omega

theorem ByteRan.length_received {m : Bit} {s t : State} {evs : List Event} {vals : List Bit}
    (h : ByteRan (.received m) s t evs vals) : evs.length = 98 := by
  rw [← List.length_map (f := eraseSample), h.shape, byteShape_received_length]

theorem ByteRan.time_received {m : Bit} {s t : State} {evs : List Event} {vals : List Bit}
    (h : ByteRan (.received m) s t evs vals) (ht : s.timing = Config.timing) : requestedTime evs = 600 := by
  rw [← requestedTime_erase, h.shape, ht, requestedTime_byteShape_received]
  rfl

/-- Settles O21: the ten slot values of `recvByte_ran`, the first eight of which are the byte in `SHREG`. -/
theorem recvByteSlots : Obligations.RecvByteSlots := by
  intro last s
  obtain ⟨evs, vals, hb, hsh⟩ := recvByte_ran last s
  obtain ⟨b7, b6, b5, b4, b3, b2, b1, b0, m, k, rfl⟩ := ten_values _ hb.values_length
  have hk : (recvByte last s).sakf = k := by simpa using hb.sakf.symm
  have hbits : msbFirst (recvByte last s).shreg = [b7, b6, b5, b4, b3, b2, b1, b0] := by
    rw [hsh]
    exact msbFirst_byteOfBits _ _ _ _ _ _ _ _
  have hframe := hb.frame_eq
  rw [hb.dir, hb.lvl, hb.guard, hb.wbuf, hb.rbuf, hk] at hframe
  exact ⟨evs, b7, b6, b5, b4, b3, b2, b1, b0, m, k, hb.events, hb.shape, hb.length_received, hb.values, hbits, hk,
    hb.time_received, hframe⟩

/-- What the loop of RECV_FRAME does to the line and to `WBUF`: the line is that of its last byte slot (R125, R163). -/
theorem recvBytes_line (n : Nat) (s : State) :
    (recvBytes n s).2.wbuf = s.wbuf ∧ (recvBytes n s).2.lvl = (if n = 0 then s.lvl else true) ∧
      (recvBytes n s).2.dir = (if n = 0 then s.dir else .output) := by
  induction n generalizing s with
  | zero => exact ⟨rfl, rfl, rfl⟩
  | succ n ih =>
    obtain ⟨xs, vals, hb, -⟩ := recvByte_ran (decide (n = 0)) s
    rw [if_neg (Nat.succ_ne_zero n), if_neg (Nat.succ_ne_zero n)]
    simp only [recvBytes]
    split
    · obtain ⟨hw, hl, hd⟩ := ih (storeByte (recvByte (decide (n = 0)) s))
      rw [storeByte_wbuf, hb.wbuf] at hw
      rw [storeByte_lvl, hb.lvl, ite_self] at hl
      rw [storeByte_dir, hb.dir, ite_self] at hd
      exact ⟨hw, hl, hd⟩
    · exact ⟨hb.wbuf, hb.lvl, hb.dir⟩

/-- Some of the byte slots of RECV_FRAME are 98 events each (R146). -/
theorem receivedSlots_length_shape (t : Timing) (n k : Nat) :
    (((receivedSlots n).take k).flatMap (byteShape t)).length = 98 * ((receivedSlots n).take k).length := by
  induction n generalizing k with
  | zero => simp [receivedSlots]
  | succ n ih =>
    cases k with
    | zero => rfl
    | succ k =>
      rw [receivedSlots, List.take_succ_cons, List.flatMap_cons, List.length_append, byteShape_received_length, ih,
        List.length_cons]
      omega

/-- RECV_FRAME costs 98 events for each acknowledgement it takes (R146, R163). -/
theorem FrameOutcome.length_received {t : Timing} {n : Nat} {evs : List Event} {r : Result}
    (h : FrameOutcome t (receivedSlots n) evs r) :
    98 * (acknowledgements (slotValues (sampleBits evs))).length = evs.length := by
  rcases h with ⟨-, he, -, hk⟩ | ⟨-, k, hlt, he, -, hk⟩
  · have h1 := receivedSlots_length_shape t n n
    rw [List.take_of_length_le (receivedSlots_length n).le, ← he, List.length_map] at h1
    rw [hk, List.length_replicate, h1]
  · have h1 := receivedSlots_length_shape t n (k + 1)
    rw [← he, List.length_map, List.length_take_of_le (by omega)] at h1
    rw [hk, List.length_append, List.length_replicate, h1]
    rfl

/-- Settles O24, from the outcome of the byte slots (`recvFrame_ran`) and the line after them (`recvBytes_line`). -/
theorem recvFrameStopsAtFirstNoSak : Obligations.RecvFrameStopsAtFirstNoSak := by
  intro n s
  obtain ⟨evs, hr, hbuf⟩ := recvFrame_ran n s
  obtain ⟨hw, hl, hd⟩ := recvBytes_line n (clearRbuf s)
  have hframe := hr.frame_eq
  rw [show (recvFrame n s).2.wbuf = s.wbuf from hw, show (recvFrame n s).2.lvl = _ from hl,
    show (recvFrame n s).2.dir = _ from hd, hr.guard] at hframe
  refine ⟨evs, hr.events, ?_, hr.outcome.length_received, hframe, rfl⟩
  rcases hr.outcome with ⟨hok, he, hn, hk⟩ | ⟨hno, k, hlt, he, -, hk⟩
  · rw [receivedSlots_length] at hn hk
    have hb := hbuf hok
    exact Or.inl ⟨hok, he, hk, hb, by rw [hb, slotBytes_length _ _ hn]⟩
  · rw [receivedSlots_length] at hlt
    exact Or.inr ⟨hno, k, hlt, he, hk⟩

end Sys2Proof.Machine

/-! PROOFS. A command run one operation at a time (R33, R175, R225): what the sequencer reaches from a list of
operations is what the command's last step makes of its body. -/

namespace Sys2Proof.Machine

open Sys2Proof.Safety

/-- Steps from `u` lead to what the outcome `x` of a command is: its next state, or its fault. -/
def Reaches (u : State) (x : Host.Outcome State Fault Refusal) : Prop := ∃ k, Sys2Proof.core.run k u = x

/-- A state at `IDLE` is itself with nothing to do. -/
theorem setSeq_idle {s : State} (h : s.seq = []) : setSeq [] s = s := by
  cases s
  simp only at h
  subst h
  rfl

/-- The last operation of a command without data (R225). -/
theorem reach_ret (r : Result) (rest : List Op) (s : State) : Reach (setSeq (Op.ret r :: rest) s) (ret r s) :=
  reach_tick rfl

/-- The last operation of a command with data (R226). -/
theorem reach_retData (rest : List Op) (s : State) : Reach (setSeq (Op.retData :: rest) s) (retData s) := reach_tick rfl

/-- A body `x` whose operations lead on to `.ret .ok`, and to `.ret .nosak` where it is not acknowledged, is the
command that `conclude` makes of it. -/
theorem reaches_conclude {u : State} {x : Except Fault (Result × State)} (herr : ∀ e, x = .error e → ReachFault u e)
    (hok : ∀ r t, x = .ok (r, t) →
      (r = .ok ∧ Reach u (setSeq [Op.ret .ok] t)) ∨ (r = .nosak ∧ Reach u (setSeq [Op.ret .nosak] t))) :
    Reaches u (conclude x) := by
  match x with
  | .error e => exact herr e rfl
  | .ok (r, t) =>
    rcases hok r t rfl with ⟨rfl, h⟩ | ⟨rfl, h⟩
    · exact h.trans (reach_ret _ _ _)
    · exact h.trans (reach_ret _ _ _)

/-- The same where the command hands over data (R226). -/
theorem reaches_concludeData {u : State} {x : Except Fault (Result × State)}
    (herr : ∀ e, x = .error e → ReachFault u e)
    (hok : ∀ r t, x = .ok (r, t) →
      (r = .ok ∧ Reach u (setSeq [Op.retData] t)) ∨ (r = .nosak ∧ Reach u (setSeq [Op.ret .nosak] t))) :
    Reaches u (concludeData x) := by
  match x with
  | .error e => exact herr e rfl
  | .ok (r, t) =>
    rcases hok r t rfl with ⟨rfl, h⟩ | ⟨rfl, h⟩
    · exact h.trans (reach_retData _ _)
    · exact h.trans (reach_ret _ _ _)

/-- Where the turns of a command have their result, the sequencer ends it with that result (R225). -/
theorem reach_ends (r : Result) (s : State) :
    Reach (setSeq ((Ending.ends r).goesTo [Op.ret .ok]) s) (ret r s) := by
  cases r <;> exact reach_ret _ [] s

/-- The same where the command may go on polling (R200; log 19). -/
theorem reaches_concludeEnding {u : State} {x : Except Fault (Ending × State)}
    (herr : ∀ e, x = .error e → ReachFault u e)
    (hok : ∀ e t, x = .ok (e, t) → Reach u (setSeq (e.goesTo [Op.ret .ok]) t)) : Reaches u (concludeEnding x) := by
  match x with
  | .error e => exact herr e rfl
  | .ok (.polling todo, t) => exact hok _ t rfl
  | .ok (.ends r, t) => exact (hok _ t rfl).trans (reach_ends r t)

/-- A command that is one transaction without a data frame (R180, R188 to R195). -/
theorem reaches_bareTransaction (frame : List Byte) (s : State) :
    Reaches (setSeq (transactionOps frame [] true [] ++ [Op.ret .ok]) s)
      (conclude (transact frame [] true noData s)) := by
  have hfail : failOps [Op.unlock, Op.ret .ok] = [Op.unlock, Op.ret .nosak] := rfl
  obtain ⟨herr, hok⟩ := reach_transact frame [] true [] noData noData_runsAs (fun _ => rfl) [Op.ret .ok] _ s hfail
  exact reaches_conclude herr hok

/-- A command that is one transaction with a received data frame (R180, R184, R190). -/
theorem reaches_readingTransaction (frame : List Byte) (n : Nat) (s : State) :
    Reaches (setSeq (transactionOps frame [] false [Op.recvFrame n] ++ [Op.retData]) s)
      (concludeData (transact frame [] false (recvFrame n) s)) := by
  have hfail : failOps [Op.unlock, Op.retData] = [Op.unlock, Op.ret .nosak] := rfl
  obtain ⟨herr, hok⟩ :=
    reach_transact frame [] false _ _ (recvFrame_runsAs n) (failOps_recvFrame n) [Op.retData] _ s hfail
  exact reaches_concludeData herr hok

theorem Reach.reaches {s t : State} {x : Host.Outcome State Fault Refusal} (h : Reach s t) (k : Reaches t x) :
    Reaches s x := by
  obtain ⟨n, hn⟩ := h
  obtain ⟨m, hm⟩ := k
  exact ⟨n + m, (run_add m hn).trans hm⟩

/-- READ (R184): the operands, then its transaction. -/
theorem reaches_read (a : Addr) (n : Nat) (s : State) :
    Reaches (setSeq (Op.loadAddr a n ::
      transactionOps (cmdframe4 s.devaddr .read a) [] false [Op.recvFrame n] ++ [Op.retData]) (begin s))
      (concludeData (readOp a n (begin s))) :=
  Reach.reaches (reach_tick rfl) (reaches_readingTransaction (cmdframe4 s.devaddr .read a) n (loadAddr a n (begin s)))

/-- WRITE (R186). -/
theorem reaches_write (a : Addr) (n : Nat) (p : List Byte) (s : State) :
    Reaches (setSeq (writeOps a n p s ++ [Op.ret .ok]) (begin s)) (conclude (writeOp a n p (begin s))) :=
  have h := reach_writeOp a n p [Op.ret .ok] (begin s)
  reaches_conclude h.1 h.2

/-- WAIT_WIP (R198). -/
theorem reaches_waitWip (s : State) :
    Reaches (setSeq [Op.pollStart, Op.pollLoop, Op.ret .ok] s) (concludeEnding (waitOp s)) :=
  have h := reach_waitOp [Op.ret .ok] s
  reaches_concludeEnding h.1 h.2

/-- PAGED_WRITE (R201). -/
theorem reaches_pagedWrite (a : Addr) (p : List Byte) (s : State) :
    Reaches (setSeq [Op.pages a p, Op.ret .ok] s) (concludeEnding (pagedTurns p.length a p s)) :=
  have h := reach_pagedTurns p.length a p [Op.ret .ok] s le_rfl
  reaches_concludeEnding h.1 h.2

/-- START_HEADER as an instruction (R168; log 13). -/
theorem reaches_startHeader {s : State} (hs : s.seq = []) :
    Reaches (setSeq [Op.startHeader] s) (.next (startHeader s)) := by
  obtain ⟨evs, hr, -⟩ := startHeader_ran s
  have h := reach_startHeader [] s
  rw [setSeq_idle (hr.seq.trans hs)] at h
  exact h

/-- The start of `i` agrees with the command `x`: what it loads reaches `x`, what it refuses `x` refuses too, and it
does not fault. -/
def StartAgrees (l x : Host.Outcome State Fault Refusal) : Prop :=
  (∀ u, l = .next u → Reaches u x) ∧ (∀ e, l = .refused e → x = .refused e) ∧ (∀ f, l ≠ .fault f)

theorem startAgrees_next {u : State} {x : Host.Outcome State Fault Refusal} (h : Reaches u x) :
    StartAgrees (.next u) x :=
  ⟨fun _ hu => by injection hu with hu; exact hu ▸ h, fun _ he => (by cases he), fun _ hf => (by cases hf)⟩

theorem startAgrees_decline (c : Result) : StartAgrees (decline c) (decline c) :=
  ⟨fun _ hu => (by cases hu), fun _ he => he, fun _ hf => (by cases hf)⟩

/-- The start of every instruction, at `IDLE`. -/
theorem startAgrees_exec (i : Instr) {s : State} (hs : s.seq = []) : StartAgrees (load i s) (exec i s) := by
  cases i <;> simp only [load, exec, execRead, execWrite, execWren, execWrdi, execRdsr, execWrsr, execEral, execSetal,
    execStartHeader, execWaitWip, execPagedWrite, issue_idle _ hs]
  case read a n =>
    split
    · exact startAgrees_decline _
    · exact startAgrees_next (reaches_read a n s)
  case write a n p =>
    split
    · exact startAgrees_decline _
    · split
      · exact startAgrees_next ⟨0, rfl⟩
      · exact startAgrees_next (reaches_write a n p s)
  case wren => exact startAgrees_next (reaches_bareTransaction (cmdframe2 s.devaddr .wren) (begin s))
  case wrdi => exact startAgrees_next (reaches_bareTransaction (cmdframe2 s.devaddr .wrdi) (begin s))
  case rdsr => exact startAgrees_next (reaches_readingTransaction (cmdframe2 s.devaddr .rdsr) 1 (begin s))
  case wrsr v => exact startAgrees_next (reaches_bareTransaction (cmdframe3 s.devaddr .wrsr v) (begin s))
  case eral =>
    split
    · exact startAgrees_next (reaches_bareTransaction (cmdframe2 s.devaddr .eral) (begin s))
    · exact startAgrees_decline _
  case setal =>
    split
    · exact startAgrees_next (reaches_bareTransaction (cmdframe2 s.devaddr .setal) (begin s))
    · exact startAgrees_decline _
  case startHeader => exact startAgrees_next (reaches_startHeader hs)
  case waitWip => exact startAgrees_next (reaches_waitWip (begin s))
  case pagedWrite a n p =>
    split
    · exact startAgrees_decline _
    · exact startAgrees_next (reaches_pagedWrite a p (begin s))

/-- Settles O49, instruction by instruction: the operations of each reach what its body and its last step give. -/
theorem eventRunReachesCommand : Obligations.EventRunReachesCommand := fun i _ hs => startAgrees_exec i hs

end Sys2Proof.Machine

/-! PROOFS. The reference slave and the commands that store nothing (95_test_vectors.md section 3 rule 5): WRSR writes
the status register, and no command frame but that of a WRITE leads the slave to a payload. -/

namespace Sys2Proof.Machine

open Sys2Proof.Safety

/-- Bits 7:1 of one byte and bit 0 of another (R26; section 3 rule 5, opcode 0x6E). -/
theorem getLsbD_statusWritten (v w : Byte) (i : Nat) :
    ((v &&& 0xFE) ||| (w &&& 0x01)).getLsbD i = if i = 0 then w.getLsbD 0 else v.getLsbD i := by
  by_cases hi : i < 8
  · interval_cases i <;> simp
  · have hn : i ≠ 0 := by omega
    rw [if_neg hn, BitVec.getLsbD_of_ge _ i (by omega), BitVec.getLsbD_of_ge _ i (by omega)]

/-- The slave after a WRSR of `v` (section 3 rule 5). -/
def Slave.statusSet (sl : Slave) (v : Byte) : Slave := { sl with status := (v &&& 0xFE) ||| (sl.status &&& 0x01) }

/-- WRSR (R192, rule 5). -/
theorem wrsrOp_slave (v : Byte) (s : State) (sl : Slave) (h : Talks s sl) :
    ∃ t, wrsrOp v s = .ok (.ok, t) ∧ t.env.slave = (sl.statusSet v).put .silent true := by
  obtain ⟨u, hu, fu, hrun⟩ := transact_slave (cmdframe3 s.devaddr .wrsr v) [] true noData s h.guard h.dir h.live
  rw [h.put] at hu
  obtain ⟨t, h1, h2, f1⟩ := sendFrame2_slave .wrsr true u sl true hu h.answers h.present
    (h.saddr.trans fu.devaddr.symm) fu.dir [v]
  rw [fu.devaddr] at h1
  rw [Slave.taken_opcode] at h2
  obtain ⟨h3, k3⟩ := sendByte_listening v true t sl _ _ h2 h.answers h.present f1.dir ⟨by simp, by simp, by simp⟩
  rw [Slave.taken_statusValue] at h3
  have h4 : sendFrame [v] true t = (.ok, sendByte v true t) := sendFrame_acked (final := true) (rest := []) k3
  have h5 : afterHeader (cmdframe3 s.devaddr .wrsr v) true noData u = (.ok, sendByte v true t) := by
    rw [afterHeader, cmdframe3, h1, h4]
    rfl
  obtain ⟨h6, h7⟩ := hrun _ _ h5 (by rw [h3]; rfl)
  exact ⟨_, h6, h7.trans h3⟩

/-- Settles O53: the transaction of WRSR ends with `OK` at a slave whose status register was set (`wrsrOp_slave`), and
leaves the line at rest (`transact_ran`). -/
theorem wrsrWritesStatusRegister : Obligations.WrsrWritesStatusRegister := by
  intro s v hi hs
  obtain ⟨hseq, hdir, -, hg⟩ := hi
  obtain ⟨t, hop, ht⟩ := wrsrOp_slave v (begin s) s.env.slave (Talks.refl (s := begin s) hg hdir hs)
  obtain ⟨r, t', evs, hx, -, -, -, hgt, hdt, hlt⟩ :=
    transact_ran (cmdframe3 s.devaddr .wrsr v) [] true noData [] False (begin s) noData_frame hg
  obtain ⟨rfl, rfl⟩ : Result.ok = r ∧ t = t' := by simpa using hop.symm.trans hx
  have he : exec (.wrsr v) s = .next (ret .ok t) := by
    simp only [exec, execWrsr, issue_idle _ hseq, hop]
    rfl
  have hsl : (ret .ok t).env.slave = (s.env.slave.statusSet v).put .silent true := ht
  refine ⟨ret .ok t, he, ret_ended .ok hgt hdt hlt, fun i => ?_, by rw [hsl]; rfl⟩
  rw [hsl]
  exact getLsbD_statusWritten v s.env.slave.status i

/-- The phases from which no byte slot leads to a payload: only a standby pulse or a header leads out of them. -/
def Phase.storesNothing (ph : Phase) : Bool :=
  match ph with
  | .silent => true
  | .header => false
  | .address => false
  | .opcode => false
  | .addrHigh w => !w
  | .addrLow w _ => !w
  | .sendData _ => true
  | .sendStatus => true
  | .recvData _ _ => false
  | .statusValue => true

/-- The slave between two byte slots of a transaction that stores nothing. -/
def Slave.StoresNothing (sl : Slave) : Prop := sl = sl.put sl.phase sl.mak ∧ sl.phase.storesNothing = true

theorem Slave.put_storesNothing (sl : Slave) (m : Bit) {ph : Phase} (h : ph.storesNothing = true) :
    (sl.put ph m).StoresNothing := ⟨rfl, h⟩

theorem Slave.StoresNothing.pulse {sl : Slave} (h : sl.StoresNothing) : sl.pulse = .none := congrArg Slave.pulse h.1

theorem Slave.StoresNothing.atByte {sl : Slave} (h : sl.StoresNothing) (ha : sl.answers = true) : sl.AtByte :=
  h.1 ▸ sl.put_atByte sl.phase sl.mak ha

/-- The status register is read, the array is not touched. -/
theorem Slave.statusRead_mem (sl : Slave) : sl.statusRead.mem = sl.mem := (statusRead_same sl).2.2.2.1

/-- A byte slot of a transaction that stores nothing (rule 5). -/
theorem Slave.StoresNothing.taken {sl : Slave} (h : sl.StoresNothing) (v : Byte) (m : Bit) :
    (sl.taken v m).StoresNothing ∧ (sl.taken v m).mem = sl.mem := by
  have hp := h.2
  suffices hb : ({ sl with shift := v, mak := m } : Slave).byteDone.phase.storesNothing = true ∧
      ({ sl with shift := v, mak := m } : Slave).byteDone.mem = sl.mem from ⟨⟨rfl, hb.1⟩, hb.2⟩
  cases hph : sl.phase with
  | silent => simp [Slave.byteDone, Phase.storesNothing]
  | header => simp [hph, Phase.storesNothing] at hp
  | address => simp [hph, Phase.storesNothing] at hp
  | opcode => simp [hph, Phase.storesNothing] at hp
  | addrHigh w =>
    rw [hph] at hp
    exact ⟨hp, rfl⟩
  | addrLow w hi =>
    have hw : w = false := by simpa [hph, Phase.storesNothing] using hp
    simp [Slave.byteDone, hw, Phase.storesNothing]
  | sendData a =>
    simp only [Slave.byteDone]
    split
    · exact ⟨rfl, rfl⟩
    · split <;> exact ⟨rfl, rfl⟩
  | sendStatus =>
    simp only [Slave.byteDone]
    exact ⟨rfl, Slave.statusRead_mem _⟩
  | recvData a buf => simp [hph, Phase.storesNothing] at hp
  | statusValue => simp [Slave.byteDone, Phase.storesNothing]

/-- From `s` to `t` the array is as it was, and the slave is where nothing is stored. -/
def ArrayKept (s t : State) : Prop := t.env.slave.StoresNothing ∧ t.env.slave.mem = s.env.slave.mem

theorem ArrayKept.stores {s t : State} (h : ArrayKept s t) : t.env.slave.StoresNothing := h.1

theorem ArrayKept.mem {s t : State} (h : ArrayKept s t) : t.env.slave.mem = s.env.slave.mem := h.2

theorem ArrayKept.trans {s t u : State} (h : ArrayKept s t) (k : ArrayKept t u) : ArrayKept s u :=
  ⟨k.stores, k.mem.trans h.mem⟩

/-- A slave that does not answer is left alone by line events (log 31). -/
theorem Ran.arrayKept {s t : State} {evs : List Event} (h : Ran s t evs) (ha : s.env.slave.answers = false)
    (hs : s.env.slave.StoresNothing) : ArrayKept s t := by
  have hsl := h.mem.2 ha
  exact ⟨hsl ▸ hs, congrArg Slave.mem hsl⟩

theorem sendByte_arrayKept (v : Byte) (last : Bit) {s : State} (hd : s.dir = .output)
    (hs : s.env.slave.StoresNothing) : ArrayKept s (sendByte v last s) := by
  cases ha : s.env.slave.answers with
  | false =>
    obtain ⟨evs, vals, hb⟩ := sendByte_ran v last s
    exact hb.arrayKept ha hs
  | true =>
    obtain ⟨h1, h2⟩ := hs.taken v (mak last)
    rw [← (sendByte_slave v last s (hs.atByte ha) hd).1] at h1 h2
    exact ⟨h1, h2⟩

theorem recvByte_arrayKept (last : Bit) {s : State} (hs : s.env.slave.StoresNothing) :
    ArrayKept s (recvByte last s) := by
  cases ha : s.env.slave.answers with
  | false =>
    obtain ⟨evs, vals, hb, -⟩ := recvByte_ran last s
    exact hb.arrayKept ha hs
  | true =>
    obtain ⟨h1, h2⟩ := hs.taken 0 (mak last)
    rw [← (recvByte_slave last s (hs.atByte ha)).1] at h1 h2
    exact ⟨h1, h2⟩

/-- A frame to a slave that stores nothing (R160). -/
theorem sendFrame_arrayKept (bytes : List Byte) (final : Bit) {s : State} (hd : s.dir = .output)
    (hs : s.env.slave.StoresNothing) : ArrayKept s (sendFrame bytes final s).2 := by
  induction bytes generalizing s with
  | nil => exact ⟨hs, rfl⟩
  | cons b rest ih =>
    have hb := sendByte_arrayKept b (final && rest.isEmpty) hd hs
    have hd1 := (sendByte_keeps b (final && rest.isEmpty) s).dir
    simp only [sendFrame]
    split
    · exact hb.trans (ih hd1 hb.stores)
    · exact hb

/-- The loop of RECV_FRAME from a slave that stores nothing (R163). -/
theorem recvBytes_arrayKept (n : Nat) {s : State} (hs : s.env.slave.StoresNothing) :
    ArrayKept s (recvBytes n s).2 := by
  induction n generalizing s with
  | zero => exact ⟨hs, rfl⟩
  | succ n ih =>
    have hb := recvByte_arrayKept (decide (n = 0)) hs
    simp only [recvBytes]
    split
    · have hk : ArrayKept s (storeByte (recvByte (decide (n = 0)) s)) :=
        ⟨by rw [storeByte_env]; exact hb.stores, by rw [storeByte_env]; exact hb.mem⟩
      exact hk.trans (ih hk.stores)
    · exact hb

/-- The opcode byte of any command but WRITE (rule 5); an opcode without a behaviour leaves the slave silent. -/
theorem Slave.opcode_arrayKept (sl : Slave) (m m' : Bit) {o : Opcode} (ho : o ≠ .write) :
    ((sl.put .opcode m).taken o.code m').StoresNothing ∧ ((sl.put .opcode m).taken o.code m').mem = sl.mem := by
  rw [Slave.taken_opcode]
  cases o
  case write => exact absurd rfl ho
  all_goals exact ⟨⟨rfl, rfl⟩, rfl⟩

/-- A command frame but that of a WRITE, after the header (rules 4 and 5): a slave that is not addressed is
silent. -/
theorem commandFrame_arrayKept (d : Byte) {o : Opcode} (ho : o ≠ .write) (rest : List Byte) (final : Bit) {s : State}
    {sl : Slave} {m : Bit} (h : s.env.slave = sl.put .address m) (ha : sl.answers = true) (hd : s.dir = .output) :
    ArrayKept s (sendFrame (d :: o.code :: rest) final s).2 := by
  have hmem : s.env.slave.mem = sl.mem := by rw [h]; rfl
  have hacks : ({ sl.put .address m with shift := d } : Slave).acks = decide (d = sl.saddr) := rfl
  obtain ⟨h1, k1⟩ := sendByte_put d (final && (o.code :: rest).isEmpty) s sl .address m h ha hd
  rw [Slave.taken_address] at h1
  rw [hacks] at k1
  cases hc : (sl.present && decide (d = sl.saddr)) with
  | false =>
    rw [hc] at h1 k1
    rw [sendFrame_refused k1]
    exact ⟨by rw [h1]; exact sl.put_storesNothing _ rfl, by rw [h1, hmem]; rfl⟩
  | true =>
    rw [hc] at h1 k1
    rw [sendFrame_acked k1]
    have hd1 := (sendByte_keeps d (final && (o.code :: rest).isEmpty) s).dir
    obtain ⟨h2, -⟩ := sendByte_put o.code (final && rest.isEmpty) _ sl .opcode _ h1 ha hd1
    obtain ⟨h3, h4⟩ := sl.opcode_arrayKept (mak (final && (o.code :: rest).isEmpty)) (mak (final && rest.isEmpty)) ho
    rw [← h2] at h3 h4
    have hk : ArrayKept s (sendByte o.code (final && rest.isEmpty)
      (sendByte d (final && (o.code :: rest).isEmpty) s)) := ⟨h3, h4.trans hmem.symm⟩
    rw [sendFrame]
    split
    · exact hk.trans (sendFrame_arrayKept _ _ (sendByte_keeps _ _ _).dir hk.stores)
    · exact hk

/-- A data frame that reads from the slave or is not there stores nothing. -/
def DataKeepsArray (data : State → Result × State) : Prop :=
  ∀ u, u.env.slave.StoresNothing → ArrayKept u (data u).2

theorem noData_keepsArray : DataKeepsArray noData := fun _ h => ⟨h, rfl⟩

theorem recvFrame_keepsArray (n : Nat) : DataKeepsArray (recvFrame n) := fun u h =>
  have hk := recvBytes_arrayKept n (s := clearRbuf u) h
  ⟨hk.stores, hk.mem⟩

/-- The frames of a transaction that is no WRITE, after the header. -/
theorem afterHeader_arrayKept (d : Byte) {o : Opcode} (ho : o ≠ .write) (rest : List Byte) (final : Bit)
    {data : State → Result × State} (hdata : DataKeepsArray data) {s : State} {sl : Slave} {m : Bit}
    (h : s.env.slave = sl.put .address m) (ha : sl.answers = true) (hd : s.dir = .output) :
    ArrayKept s (afterHeader (d :: o.code :: rest) final data s).2 := by
  have hk := commandFrame_arrayKept d ho rest final h ha hd
  simp only [afterHeader]
  split
  · rename_i t ht
    rw [ht] at hk
    exact hk.trans (hdata t hk.stores)
  · rename_i r t _ ht
    rw [ht] at hk
    exact hk

/-- An event that is no sample does not change the array, whoever answers. -/
theorem emit_mem {e : Event} (he : ∀ v, e ≠ .smp v) (s : State) : (emit e s).env.slave.mem = s.env.slave.mem := by
  simp only [emit_env, Env.observe]
  split
  · cases e with
    | smp v => exact absurd rfl (he v)
    | drv v =>
      cases v with
      | false => rfl
      | true =>
        simp only [Slave.observe]
        split <;> rfl
    | _ => rfl
  · cases e <;> rfl

theorem wait_mem (c : Delay) (s : State) : (wait c s).env.slave.mem = s.env.slave.mem :=
  emit_mem (fun _ => Event.noConfusion) s

theorem setLevel_mem (v : Bit) (s : State) : (setLevel v s).env.slave.mem = s.env.slave.mem :=
  emit_mem (fun _ => Event.noConfusion) { s with lvl := v }

theorem standbyPulse_mem (s : State) : (standbyPulse s).env.slave.mem = s.env.slave.mem := by
  rw [standbyPulse, wait_mem, setLevel_mem, wait_mem, setLevel_mem]

/-- A guarded transaction body that is no WRITE (R174). -/
theorem guarded_mem (d : Byte) {o : Opcode} (ho : o ≠ .write) (rest : List Byte) (final : Bit)
    {data : State → Result × State} {slots : List ByteSlot} {reads : Prop} (hframe : DataFrame slots reads data)
    (hdata : DataKeepsArray data) {s t : State} {r : Result} (hg : s.guard = false) (hd : s.dir = .output)
    (h : guarded (transactionBody (d :: o.code :: rest) final data) s = .ok (r, t)) :
    t.env.slave.mem = s.env.slave.mem := by
  cases ha : s.env.slave.answers with
  | false =>
    obtain ⟨r', t', evs, h', hr, -⟩ := guarded_ran (d :: o.code :: rest) final data slots reads s s [] (Ran.refl s) rfl
      hframe hg
    obtain ⟨-, ht⟩ := Prod.mk.inj (Except.ok.inj (h.symm.trans h'))
    rw [ht, hr.mem.2 ha]
  | true =>
    obtain ⟨u, hu, fu, hrun⟩ := guarded_slave (d :: o.code :: rest) final data s hg hd ha
    have hk := afterHeader_arrayKept d ho rest final hdata hu ha fu.dir
    rcases he : afterHeader (d :: o.code :: rest) final data u with ⟨r', t'⟩
    rw [he] at hk
    obtain ⟨h', hsl⟩ := hrun r' t' he hk.stores.pulse
    obtain ⟨-, ht⟩ := Prod.mk.inj (Except.ok.inj (h.symm.trans h'))
    rw [ht, hsl, hk.mem, hu]
    rfl

/-- A transaction that is no WRITE (R180). -/
theorem transact_mem (d : Byte) {o : Opcode} (ho : o ≠ .write) (rest payload : List Byte) (final : Bit)
    {data : State → Result × State} {slots : List ByteSlot} {reads : Prop} (hframe : DataFrame slots reads data)
    (hdata : DataKeepsArray data) {s t : State} {r : Result} (hg : s.guard = false) (hd : s.dir = .output)
    (h : transact (d :: o.code :: rest) payload final data s = .ok (r, t)) :
    t.env.slave.mem = s.env.slave.mem :=
  (guarded_mem d ho rest final hframe hdata
    (s := standbyPulse (loadWbuf (d :: o.code :: rest ++ payload) s)) hg hd h).trans (standbyPulse_mem _)

/-- A poll and the gap before it (R197). -/
theorem poll_mem {s t : State} {r : Result} (hg : s.guard = false) (hd : s.dir = .output)
    (h : poll (gap s) = .ok (r, t)) : t.env.slave.mem = s.env.slave.mem :=
  (guarded_mem s.devaddr (o := .rdsr) Opcode.noConfusion [] false (recvFrame_frame 1) (recvFrame_keepsArray 1)
    (s := loadWbuf (cmdframe2 s.devaddr .rdsr) (gap s)) hg hd h).trans (wait_mem .gap s)

/-- The turns of WAIT_WIP (R198). -/
theorem waitTurns_mem (turns : Nat) {s t : State} {e : Ending} (hg : s.guard = false) (hd : s.dir = .output)
    (h : waitTurns turns s = .ok (e, t)) : t.env.slave.mem = s.env.slave.mem := by
  induction turns generalizing s with
  | zero =>
    injection h with h
    injection h with _ ht
    rw [ht]
  | succ turns ih =>
    obtain ⟨r, u, evs, hp, -, -, -, hug, hud, -⟩ := poll_ran s hg
    have hm := poll_mem hg hd hp
    simp only [waitTurns] at h
    split at h
    · injection h with h
      injection h with _ ht
      rw [ht]
    · rw [hp] at h
      cases r with
      | ok =>
        simp only at h
        split at h
        · exact (ih (s := countPoll u) hug hud h).trans hm
        · injection h with h
          injection h with _ ht
          rw [← ht]
          exact hm
      | _ =>
        injection h with h
        injection h with _ ht
        rw [← ht]
        exact hm

/-- START_HEADER alone (R168): the header restarts the slave (log 29). -/
theorem startHeader_mem {s : State} (hd : s.dir = .output) : (startHeader s).env.slave.mem = s.env.slave.mem := by
  cases ha : s.env.slave.answers with
  | false =>
    obtain ⟨evs, hr, -⟩ := startHeader_ran s
    rw [hr.mem.2 ha]
  | true => rw [startHeader_slave s ha hd]

/-- A command that ends with `conclude` leaves the environment of its body. -/
theorem conclude_env {x : Except Fault (Result × State)} {t : State} (h : conclude x = .next t) :
    ∃ r u, x = .ok (r, u) ∧ t.env = u.env := by
  obtain ⟨r, u, hx, rfl⟩ := conclude_next h
  exact ⟨r, u, hx, rfl⟩

theorem concludeData_env {x : Except Fault (Result × State)} {t : State} (h : concludeData x = .next t) :
    ∃ r u, x = .ok (r, u) ∧ t.env = u.env := by
  obtain ⟨r, u, hx, rfl⟩ := concludeData_next h
  exact ⟨r, u, hx, by split <;> rfl⟩

theorem concludeEnding_env {x : Except Fault (Ending × State)} {t : State} (h : concludeEnding x = .next t) :
    ∃ e u, x = .ok (e, u) ∧ t.env = u.env := by
  rcases concludeEnding_next h with ⟨r, u, hx, rfl⟩ | ⟨todo, u, hx, rfl⟩
  · exact ⟨_, u, hx, rfl⟩
  · exact ⟨_, u, hx, rfl⟩

/-- A command that is one transaction without a data frame, and no WRITE. -/
theorem conclude_mem (d : Byte) {o : Opcode} (ho : o ≠ .write) (rest : List Byte) {s t : State} (hg : s.guard = false)
    (hd : s.dir = .output) (h : conclude (transact (d :: o.code :: rest) [] true noData s) = .next t) :
    t.env.slave.mem = s.env.slave.mem := by
  obtain ⟨r, u, hx, he⟩ := conclude_env h
  rw [he]
  exact transact_mem d ho rest [] true noData_frame noData_keepsArray hg hd hx

/-- A command that is one transaction with a received data frame. -/
theorem concludeData_mem (d : Byte) {o : Opcode} (ho : o ≠ .write) (rest : List Byte) (n : Nat) {s t : State}
    (hg : s.guard = false) (hd : s.dir = .output)
    (h : concludeData (transact (d :: o.code :: rest) [] false (recvFrame n) s) = .next t) :
    t.env.slave.mem = s.env.slave.mem := by
  obtain ⟨r, u, hx, he⟩ := concludeData_env h
  rw [he]
  exact transact_mem d ho rest [] false (recvFrame_frame n) (recvFrame_keepsArray n) hg hd hx

/-- Settles O60, instruction by instruction: each is a transaction whose opcode is not that of WRITE, the turns of
WAIT_WIP, or the header alone. -/
theorem otherCommandsKeepTheArray : Obligations.OtherCommandsKeepTheArray := by
  intro i s t hi hw hp he hs h
  obtain ⟨hseq, hd, -, hg⟩ := hi
  cases i <;> simp only [exec, execRead, execWrite, execWren, execWrdi, execRdsr, execWrsr, execEral, execSetal,
    execStartHeader, execWaitWip, execPagedWrite, issue_idle _ hseq] at h
  case read a n =>
    split at h
    · cases h
    · exact concludeData_mem s.devaddr (o := .read) Opcode.noConfusion [addrHigh a, addrLow a] n
        (s := loadAddr a n (begin s)) hg hd h
  case write a n p => exact absurd rfl (hw a n p)
  case wren => exact conclude_mem s.devaddr (o := .wren) Opcode.noConfusion [] (s := begin s) hg hd h
  case wrdi => exact conclude_mem s.devaddr (o := .wrdi) Opcode.noConfusion [] (s := begin s) hg hd h
  case rdsr => exact concludeData_mem s.devaddr (o := .rdsr) Opcode.noConfusion [] 1 (s := begin s) hg hd h
  case wrsr v => exact conclude_mem s.devaddr (o := .wrsr) Opcode.noConfusion [v] (s := begin s) hg hd h
  case eral => exact absurd rfl he
  case setal => exact absurd rfl hs
  case startHeader =>
    injection h with h
    rw [← h]
    exact startHeader_mem hd
  case waitWip =>
    obtain ⟨e, u, hx, henv⟩ := concludeEnding_env h
    rw [henv]
    exact waitTurns_mem _ (s := pollStart (begin s)) hg hd hx
  case pagedWrite a n p => exact absurd rfl (hp a n p)

end Sys2Proof.Machine

/-! PROOFS. The commands that move bytes of the array (20_memory.md): WRITE, PAGED_WRITE and what they leave of the page
of a failed WRITE (R58), and READ and WRITE with the reference slave of 95_test_vectors.md section 3. -/

namespace Sys2Proof.Machine

open Sys2Proof.Safety

/-- WRITE past its checks, at `IDLE` (R186). -/
theorem exec_write {s : State} {a : Addr} {n : Nat} {p : List Byte} (hs : s.seq = []) (hb : writeBadLen n p = false)
    (hc : crossesPage a n = false) : exec (.write a n p) s = conclude (writeOp a n p (begin s)) := by
  simp only [exec, execWrite, issue_idle _ hs, hb, hc, Bool.false_eq_true, if_false]

/-- READ past its check, at `IDLE` (R184). -/
theorem exec_read {s : State} {a : Addr} {n : Nat} (hs : s.seq = []) (hb : readBadLen s.params n = false) :
    exec (.read a n) s = concludeData (readOp a n (begin s)) := by
  simp only [exec, execRead, issue_idle _ hs, hb, Bool.false_eq_true, if_false]

/-- PAGED_WRITE past its check, at `IDLE` (R201). -/
theorem exec_pagedWrite {s : State} {a : Addr} {n : Nat} {p : List Byte} (hs : s.seq = [])
    (hb : pagedBadLen a n p = false) :
    exec (.pagedWrite a n p) s = concludeEnding (pagedTurns p.length a p (begin s)) := by
  simp only [exec, execPagedWrite, issue_idle _ hs, hb, Bool.false_eq_true, if_false]

theorem writeBadLen_eq_false {n : Nat} {p : List Byte} (hn : 1 ≤ n) (hp : p.length = n) : writeBadLen n p = false := by
  have h0 : n ≠ 0 := by omega
  simp [writeBadLen, h0, hp]

theorem crossesPage_eq_false {a : Addr} {n : Nat} (h : a.toNat % 16 + n ≤ 16) : crossesPage a n = false :=
  decide_eq_false (Nat.not_lt.mpr h)

theorem pagedBadLen_eq_false {a : Addr} {n : Nat} {p : List Byte} (hn : 1 ≤ n) (hp : p.length = n)
    (ht : a.toNat + n ≤ 0x10000) : pagedBadLen a n p = false := by
  have h0 : n ≠ 0 := by omega
  simp [pagedBadLen, h0, hp, Config.addrTop, ht]

theorem pagedBadLen_payload {a : Addr} {n : Nat} {p : List Byte} (h : pagedBadLen a n p = false) : p ≠ [] := by
  rintro rfl
  cases n <;> simp [pagedBadLen] at h

/-- What is lost of a page writes no operand. -/
theorem PageLost.operands {r : Result} {u t : State} (h : PageLost r u t) :
    t.addr = u.addr ∧ t.len = u.len ∧ t.pollcnt = u.pollcnt := by
  rw [h.rest]
  exact ⟨rfl, rfl, rfl⟩

/-- What holds where a command that writes has ended with result `r` in `t`: it ran from `u`, which has the events and
the environment of `s`, to `v`, and lost a page at most (R58). -/
theorem writing_ends {s u v w : State} {evs : List Event} {r : Result} (a : Addr) (n : Nat)
    (hr : Ran u v evs) (hl : PageLost r v w) (hline : v.guard = false ∧ v.dir = .output ∧ v.lvl = true)
    (hu : u.events = s.events) (hf : CommandFrame s u) (he : u.env = s.env) :
    (ret r w).events = s.events ++ evs ∧ Ended (ret r w) r none ∧ CommandFrame s (ret r w) ∧
      WriteFrame a n r s (ret r w) := by
  obtain ⟨hg, hd, hlv⟩ := hline
  obtain ⟨hev, hwd, hwl, hwg, -⟩ := hl.lineOf
  have hk : SlaveKept s v := by
    have h := hr.slaveKept
    rwa [SlaveKept, he] at h
  exact ⟨by rw [show (ret r w).events = w.events from rfl, hev, hr.events, hu],
    ret_ended r (hwg.trans hg) (hwd.trans hd) (hwl.trans hlv),
    commandFrame_ret r (commandFrame_trans (commandFrame_trans hf hr.frame) hl.frame), hl.writeFrame hk⟩

/-- The start of a command and the operands it loads leave what outlives a command alone (R27, R31). -/
theorem commandFrame_operands (a : Addr) (n c : Nat) (s : State) : CommandFrame s (withOperands a n c (begin s)) :=
  ⟨rfl, rfl, rfl, rfl, fun _ => rfl⟩

/-- Settles O29: the transaction of `writeOp_ran`, after which the page of the WRITE is lost at most. -/
theorem writeCompletes : Obligations.WriteCompletes := by
  rintro s a n p ⟨hseq, hg⟩ hn hp hpage
  obtain ⟨r, u, evs, hx, hr, hw, hline⟩ := writeOp_ran a n p (begin s) hg
  have hl : PageLost r u (endWrite a r u) := endWrite_pageLost r hr.addr
  obtain ⟨hev, hend, hf, hwf⟩ := writing_ends (s := s) a n hr hl hline rfl (commandFrame_operands _ _ _ s) rfl
  obtain ⟨ha, hlen, hcnt⟩ := hl.operands
  refine ⟨ret r (endWrite a r u), evs, r, ?_, hev, hw, hend, hf, hwf, ha.trans hr.addr, hlen.trans hr.len,
    hcnt.trans hr.pollcnt⟩
  rw [exec_write hseq (writeBadLen_eq_false hn hp) (crossesPage_eq_false hpage), hx]
  rfl

/-- Settles O38: the page loop of `pagedTurns_limited`, after which the page of its last chunk is lost at most. -/
theorem pagedWriteCompletes : Obligations.PagedWriteCompletes := by
  rintro s a n p k ⟨hseq, -, -, hg⟩ hk hn hp htop
  have hp0 : p ≠ [] := List.length_pos_iff.mp (by omega)
  obtain ⟨r, v, evs, before, lost, hx, hr, hrun, hat, hline⟩ :=
    pagedTurns_limited p.length a p (begin s) k hp0 hk le_rfl hg
  have hl : PageLost r v (lostAt lost v) := PagedRun.pageLost hrun hat
  obtain ⟨hev, hend, hf, hwf⟩ := writing_ends (s := s) a n hr hl hline rfl (commandFrame_operands _ _ _ s) rfl
  rw [show (begin s).params.pollLimit = some k from hk] at hrun
  refine ⟨ret r (lostAt lost v), evs, r, before, lost, ?_, hev, hrun, hp ▸ PagedRun.before_lt hrun, hl.operands.1.trans hat, hend,
    hf, hwf⟩
  rw [exec_pagedWrite hseq (pagedBadLen_eq_false hn hp htop), hx]
  rfl

/-- Settles O39: the page loop of `pagedTurns_unlimited`, which has its result or polls on. -/
theorem pagedWriteWithoutLimit : Obligations.PagedWriteWithoutLimit := by
  rintro s a n p ⟨hseq, -, -, hg⟩ hk hn hp htop
  have hp0 : p ≠ [] := List.length_pos_iff.mp (by omega)
  obtain ⟨e, v, w, evs, before, hx, hr, hat, hout, hline⟩ :=
    pagedTurns_unlimited p.length a p (begin s) hp0 hk le_rfl hg
  have hexec := exec_pagedWrite hseq (pagedBadLen_eq_false hn hp htop)
  rw [hx] at hexec
  rcases hout with ⟨r, lost, rfl, rfl, hrun⟩ | ⟨done, hpolls, rfl, rfl⟩
  · have hl : PageLost r v (lostAt lost v) := PagedRun.pageLost hrun hat
    obtain ⟨hev, hend, hf, hwf⟩ := writing_ends (s := s) a n hr hl hline rfl (commandFrame_operands _ _ _ s) rfl
    exact ⟨ret r (lostAt lost v), evs, before, hexec, hev, hf, hl.operands.1.trans hat,
      Or.inl ⟨r, lost, hrun, hp ▸ PagedRun.before_lt hrun, hend, hwf⟩⟩
  · obtain ⟨hgv, hdv, hlv⟩ := hline
    have hkept : SlaveKept s w := hr.slaveKept
    have hf : CommandFrame s w := commandFrame_trans (commandFrame_operands _ _ _ s) hr.frame
    have hrest : lineOf w = Line.rest := by rw [lineOf, hdv, hlv, hgv, Line.rest]
    obtain ⟨hlt, hle⟩ := PagedPolls.bounds hpolls
    exact ⟨_, evs, before, hexec, hr.events, commandFrame_trans hf ⟨rfl, rfl, rfl, rfl, fun _ => rfl⟩, hat,
      Or.inr ⟨done, hpolls, hlt, hp ▸ hle, rfl, hrest, hr.done, fun ha _ x _ => by
        rw [show _ = s.env.slave from hkept ha]⟩⟩

end Sys2Proof.Machine

/-! PROOFS. The loops of a PAGED_WRITE one operation at a time (R198, R200, R201), and the page of a failed WRITE (R58). -/

namespace Sys2Proof.Machine

open Sys2Proof.Safety

/-- A state is itself with what is to do in it. -/
theorem setSeq_self {s : State} {todo : List Op} (h : s.seq = todo) : setSeq todo s = s := by
  subst h
  rfl

/-- What is reached and is another state is reached by one step at least. -/
theorem Reach.one_step {s t : State} (h : Reach s t) (hne : t ≠ s) : ∃ k, Sys2Proof.core.run (k + 1) s = .next t := by
  obtain ⟨k, hk⟩ := h
  cases k with
  | zero =>
    injection hk with hk
    exact absurd hk.symm hne
  | succ k => exact ⟨k, hk⟩

/-- One turn of the poll loop without a limit, one operation at a time (R198, R200). -/
theorem pollLoop_turn {s : State} {rest : List Op} (hs : s.seq = Op.pollLoop :: rest) (hg : s.guard = false)
    (hk : s.params.pollLimit = none) :
    ∃ t evs r, Reach s t ∧ t.events = s.events ++ evs ∧ PollTurn s.timing s.devaddr evs r ∧
      t.pollcnt = s.pollcnt + 1 ∧ t.guard = false ∧ t.params = s.params ∧
      (if r = .ok then t.seq = (if turnBusy evs then Op.pollLoop :: rest else rest) else Ended t r none) := by
  have hlim : limitReached s = false := by simp only [limitReached, hk]
  obtain ⟨r, t, evs, hx, hr, hturn, hbusy, htg, htd, htl⟩ := poll_ran s hg
  have hcnt : t.pollcnt + 1 = s.pollcnt + 1 := congrArg (· + 1) hr.pollcnt
  have hreach := (reach_pollTurn rest s hlim).2 r t hx
  rw [setSeq_self hs] at hreach
  rcases hreach with ⟨rfl, h⟩ | ⟨rfl, h⟩
  · rw [show statusBusy (countPoll t) = turnBusy evs from hbusy rfl] at h
    exact ⟨_, evs, .ok, h, hr.events, hturn, hcnt, htg, hr.params, rfl⟩
  · exact ⟨_, evs, .nosak, h.trans (reach_ret _ _ _), hr.events, hturn, hcnt, htg, hr.params,
      ret_ended (t := countPoll t) .nosak htg htd htl⟩

/-- The operations of the next chunk, from the head of the page loop (R201). -/
theorem reach_pageOps {s : State} {rest : List Op} {a : Addr} {p : List Byte} (hs : s.seq = Op.pages a p :: rest)
    (hp : p ≠ []) : Reach s (setSeq (pageOps a p ++ rest) (loadAddr a p.length s)) := by
  have hpe : p.isEmpty = false := by simpa using hp
  have h : Reach (setSeq (Op.pages a p :: rest) s) (setSeq (pageOps a p ++ rest) (loadAddr a p.length s)) := by
    apply reach_tick
    simp only [tick, hpe, Bool.false_eq_true, if_false]
    rfl
  rwa [setSeq_self hs] at h

/-- What is left to do after the poll loop of a chunk (R201). -/
def afterChunk (a : Addr) (p : List Byte) (rest : List Op) : List Op :=
  Op.pages (addrPlus a (chunkLen a p.length)) (p.drop (chunkLen a p.length)) :: rest

/-- What the events `evs` of WREN and WRITE of the first chunk of `p` amount to, the result being `r` and `lost` the WRITE
that failed, where it did (R201, R58). -/
def ChunkRun (t : Timing) (d : Byte) (a : Addr) (p : List Byte) (evs : List Event) (r : Result) (lost : Option Addr) :
    Prop :=
  (r = .nosak ∧ lost = none ∧ WrenRun t d evs .nosak) ∨
  ∃ e1 e2, evs = e1 ++ e2 ∧ WrenRun t d e1 .ok ∧ WriteRun t d a (p.take (chunkLen a p.length)) e2 r ∧ lost = pageOf r a

/-- The WREN of a chunk loses no page, its WRITE the page of the chunk at most. -/
theorem ChunkRun.pageLost {t : Timing} {d : Byte} {a : Addr} {p : List Byte} {evs : List Event} {r : Result}
    {lost : Option Addr} {u : State} (h : ChunkRun t d a p evs r lost) (hu : u.addr = a) :
    PageLost r u (lostAt lost u) := by
  rcases h with ⟨-, rfl, -⟩ | ⟨e1, e2, -, -, -, rfl⟩
  · exact Or.inl rfl
  · exact lostAt_pageOf r a u ▸ endWrite_pageLost r hu

/-- An acknowledged chunk loses no page. -/
theorem ChunkRun.acknowledged {t : Timing} {d : Byte} {a : Addr} {p : List Byte} {evs : List Event} {lost : Option Addr}
    (h : ChunkRun t d a p evs .ok lost) : lost = none ∧ ∃ e1 e2, evs = e1 ++ e2 ∧ WrenRun t d e1 .ok ∧
      WriteRun t d a (p.take (chunkLen a p.length)) e2 .ok := by
  rcases h with ⟨h, -⟩ | ⟨e1, e2, he, hw1, hw2, hl⟩
  · cases h
  · exact ⟨hl, e1, e2, he, hw1, hw2⟩

/-- From the head of the page loop steps of one operation each lead to the head of the poll loop after the next chunk, or
to the end of the command after the first of its WREN and WRITE that failed (R201, R225). -/
theorem pages_turn {s : State} {rest : List Op} {a : Addr} {p : List Byte} (hs : s.seq = Op.pages a p :: rest)
    (hg : s.guard = false) (hp : p ≠ []) :
    ∃ u evs r lost, Ran (withOperands u.addr u.len u.pollcnt s) u evs ∧ u.addr = a ∧
      ChunkRun s.timing s.devaddr a p evs r lost ∧ (u.guard = false ∧ u.dir = .output ∧ u.lvl = true) ∧
      ((r = .ok ∧ Reach s (setSeq (Op.pollLoop :: afterChunk a p rest) (pollStart u))) ∨
       (r = .nosak ∧ Reach s (ret .nosak (lostAt lost u)))) := by
  obtain ⟨r, u, evs, lost, hx, hr, hat, hout, hline⟩ := chunkOp_ran a p hp (loadAddr a p.length s) hg
  have hrun : ChunkRun s.timing s.devaddr a p evs r lost := hout
  refine ⟨u, evs, r, lost, hr, hat rfl, hrun, hline, ?_⟩
  have hops := reach_pageOps hs hp
  rcases (reach_chunkOp a (p.take (chunkLen a p.length)) (Op.pollStart :: Op.pollLoop :: afterChunk a p rest)
    (loadAddr a p.length s)).2 r _ hx with ⟨rfl, h⟩ | ⟨rfl, h⟩
  · obtain ⟨rfl, -⟩ := hrun.acknowledged
    exact Or.inl ⟨rfl, (hops.trans h).trans (reach_tick rfl)⟩
  · exact Or.inr ⟨rfl, (hops.trans h).trans (reach_ret _ _ _)⟩

/-- Settles O37: a turn of each of the two loops leads from its head to another state (`pollLoop_turn`, `pages_turn`), and
an empty payload leaves the page loop. -/
theorem unlimitedPollingGoesOn : Obligations.UnlimitedPollingGoesOn := by
  refine ⟨fun s rest hs hg hk => ?_, fun s rest a p hs hg hp => ?_, fun s rest a hs => ?_⟩
  · obtain ⟨t, evs, r, hreach, hev, hturn, hcnt, h⟩ := pollLoop_turn hs hg hk
    have hne : t ≠ s := fun he => by
      rw [he] at hcnt
      omega
    obtain ⟨k, hrun⟩ := hreach.one_step hne
    exact ⟨k, t, evs, r, hrun, hev, hturn, hcnt, h⟩
  · obtain ⟨u, evs, r, lost, hr, hua, hchunk, hline, hreach⟩ := pages_turn hs hg hp
    have hf : CommandFrame s (withOperands u.addr u.len u.pollcnt s) := ⟨rfl, rfl, rfl, rfl, fun _ => rfl⟩
    have hl : PageLost r u (lostAt lost u) := hchunk.pageLost hua
    rcases hreach with ⟨rfl, hreach⟩ | ⟨rfl, hreach⟩
    · obtain ⟨k, hrun⟩ := hreach.one_step (fun he => by simpa [hs] using congrArg State.seq he)
      obtain ⟨rfl, e1, e2, he, hw1, hw2⟩ := hchunk.acknowledged
      obtain ⟨hgu, hdu, hlu⟩ := hline
      have hwf : WriteFrame a (chunkLen a p.length) .ok s u := PageLost.writeFrame (Or.inl rfl) hr.slaveKept
      have hrest : lineOf u = Line.rest := by rw [lineOf, hdu, hlu, hgu, Line.rest]
      exact ⟨k, _, evs, .ok, hrun, hr.events, commandFrame_trans (commandFrame_trans hf hr.frame)
        ⟨rfl, rfl, rfl, rfl, fun _ => rfl⟩, hwf, hua, Or.inl ⟨rfl, e1, e2, he, hw1, hw2, hrest, rfl, hr.done, rfl⟩⟩
    · obtain ⟨k, hrun⟩ := hreach.one_step (fun he => by simpa [hs, ret] using congrArg State.seq he)
      obtain ⟨hev, hend, hcf, hwf⟩ := writing_ends (s := s) a (chunkLen a p.length) hr hl hline rfl hf rfl
      refine ⟨k, _, evs, .nosak, hrun, hev, hcf, hwf, hl.operands.1.trans hua, Or.inr ⟨rfl, hend, ?_⟩⟩
      rcases hchunk with ⟨-, -, hw⟩ | ⟨e1, e2, he, hw1, hw2, rfl⟩
      · exact Or.inl hw
      · refine Or.inr ⟨e1, e2, he, hw1, hw2, fun w => ?_⟩
        rw [← show u.epoch = s.epoch from hr.epoch]
        exact lostAt_unspecified (hr.mem.1 w)
  · simp only [step, hs, tick]
    rfl

/-- PAGED_WRITE at `GUARD = 1` faults at its first WREN (R172). -/
theorem pagedTurns_guardHeld {turns : Nat} {a : Addr} {p : List Byte} {s : State} (hn : 1 ≤ turns) (hp : p ≠ [])
    (hg : s.guard = true) : pagedTurns turns a p s = .error .guardHeld := by
  obtain ⟨m, rfl⟩ : ∃ m, turns = m + 1 := ⟨turns - 1, by omega⟩
  have hw : wrenOp (loadAddr a p.length s) = .error .guardHeld := transact_guardHeld _ _ _ _ _ hg
  simp [pagedTurns, hp, chunkOp, hw]

/-- A PAGED_WRITE that has its result, with a limit or without one: its events, the address of the chunk at which it
ended, and the page it lost (R201, R58). -/
theorem pagedTurns_ends {a : Addr} {p : List Byte} {s w : State} {r : Result} (hp : p ≠ []) (hg : s.guard = false)
    (h : pagedTurns p.length a p s = .ok (.ends r, w)) :
    ∃ v evs before lost, w = lostAt lost v ∧ Ran (withOperands v.addr v.len v.pollcnt s) v evs ∧
      PagedRun s.timing s.devaddr s.params.pollLimit a p evs r before lost ∧ v.addr = addrPlus a before := by
  cases hk : s.params.pollLimit with
  | none =>
    obtain ⟨e, v, w', evs, before, hx, hr, hat, hout, -⟩ := pagedTurns_unlimited p.length a p s hp hk le_rfl hg
    obtain ⟨rfl, rfl⟩ : Ending.ends r = e ∧ w = w' := by simpa using h.symm.trans hx
    rcases hout with ⟨r', lost, he, hw, hrun⟩ | ⟨done, -, he, -⟩
    · injection he with he
      subst he
      exact ⟨v, evs, before, lost, hw, hr, hrun, hat⟩
    · cases he
  | some k =>
    obtain ⟨r', v, evs, before, lost, hx, hr, hrun, hat, -⟩ := pagedTurns_limited p.length a p s k hp hk le_rfl hg
    obtain ⟨rfl, rfl⟩ : r = r' ∧ w = lostAt lost v := by simpa using h.symm.trans hx
    exact ⟨v, evs, before, lost, rfl, hr, hk ▸ hrun, hat⟩

/-- A PAGED_WRITE that polls on is not done (R40, R200). -/
theorem pagedTurns_polling {a : Addr} {p : List Byte} {s w : State} {todo : List Op} (hp : p ≠ [])
    (hg : s.guard = false) (h : pagedTurns p.length a p s = .ok (.polling todo, w)) : w.done = s.done := by
  cases hk : s.params.pollLimit with
  | none =>
    obtain ⟨e, v, w', evs, before, hx, hr, -, hout, -⟩ := pagedTurns_unlimited p.length a p s hp hk le_rfl hg
    obtain ⟨rfl, rfl⟩ : Ending.polling todo = e ∧ w = w' := by simpa using h.symm.trans hx
    rcases hout with ⟨r, lost, he, -⟩ | ⟨done, -, -, rfl⟩
    · cases he
    · exact hr.done
  | some k =>
    obtain ⟨r, v, evs, before, lost, hx, -⟩ := pagedTurns_limited p.length a p s k hp hk le_rfl hg
    simp [h] at hx

/-- A WRITE that ended with `NOSAK` has passed its checks and lost its page (R58). -/
theorem failedWrite_page {s t : State} {a : Addr} {n : Nat} {p : List Byte} (hs : s.seq = [])
    (hw : Memory.wf s.env.slave.mem = true) (h : exec (.write a n p) s = .next t) (hr : t.result = .nosak) :
    PageUnspecified (s.epoch + 1) a t := by
  simp only [exec, execWrite, issue_idle _ hs] at h
  split at h
  · cases h
  split at h
  · injection h with h
    subst h
    cases hr
  cases hg : s.guard with
  | true =>
    rw [writeOp, transact_guardHeld _ _ _ _ (loadAddr a n (begin s)) hg] at h
    cases h
  | false =>
    obtain ⟨r, u, evs, hx, hran, -⟩ := writeOp_ran a n p (begin s) hg
    rw [hx] at h
    injection h with h
    subst h
    obtain rfl : r = .nosak := hr
    rw [← show u.epoch = s.epoch + 1 from hran.epoch]
    exact lostAt_unspecified (hran.mem.1 hw)

/-- A PAGED_WRITE that answers a next state has passed its check and found the guard free (R172, R201). -/
theorem pagedWrite_accepted {s t : State} {a : Addr} {n : Nat} {p : List Byte} (hs : s.seq = [])
    (h : exec (.pagedWrite a n p) s = .next t) : pagedBadLen a n p = false ∧ s.guard = false := by
  cases hb : pagedBadLen a n p with
  | true =>
    simp only [exec, execPagedWrite, issue_idle _ hs, hb, if_true] at h
    cases h
  | false =>
    cases hg : s.guard with
    | true =>
      have hp := pagedBadLen_payload hb
      rw [exec_pagedWrite hs hb, pagedTurns_guardHeld (s := begin s) (List.length_pos_iff.mpr hp) hp hg] at h
      cases h
    | false => exact ⟨rfl, rfl⟩

/-- A PAGED_WRITE that ended with `NOSAK`: its events, the chunk at which it ended, and the page it lost, if it ended in a
WRITE (R58, R201). -/
theorem failedPagedWrite_page {s t : State} {a : Addr} {n : Nat} {p : List Byte} (hs : s.seq = [])
    (hw : Memory.wf s.env.slave.mem = true) (h : exec (.pagedWrite a n p) s = .next t) (hd : t.done = true)
    (hr : t.result = .nosak) :
    ∃ evs before lost, t.events = s.events ++ evs ∧
      PagedRun s.timing s.devaddr s.params.pollLimit a p evs .nosak before lost ∧ t.addr = addrPlus a before ∧
      (∀ b, lost = some b → b = t.addr ∧ PageUnspecified (s.epoch + 1) b t) ∧ (lost = none → SlaveKept s t) := by
  obtain ⟨hb, hg⟩ := pagedWrite_accepted hs h
  have hp := pagedBadLen_payload hb
  rw [exec_pagedWrite hs hb] at h
  rcases concludeEnding_next h with ⟨r, u, hx, rfl⟩ | ⟨todo, u, hx, rfl⟩
  · obtain rfl : r = .nosak := hr
    obtain ⟨v, evs, before, lost, rfl, hran, hrun, hat⟩ := pagedTurns_ends (s := begin s) hp hg hx
    have hl : PageLost .nosak v (lostAt lost v) := PagedRun.pageLost hrun hat
    have hta : (lostAt lost v).addr = addrPlus a before := hl.operands.1.trans hat
    refine ⟨evs, before, lost, hl.lineOf.1.trans hran.events, hrun, hta, fun b hlost => ?_, fun hlost => ?_⟩
    · refine ⟨(PagedRun.lost_eq hrun b hlost).2.trans hta.symm, ?_⟩
      rw [← show v.epoch = s.epoch + 1 from hran.epoch, hlost]
      exact lostAt_unspecified (hran.mem.1 hw)
    · subst hlost
      exact hran.slaveKept
  · cases (pagedTurns_polling (s := begin s) hp hg hx).symm.trans hd

/-- Settles O51: the WRITE, the chunk of the PAGED_WRITE and the operation each end with `losePage`. -/
theorem failedWriteLosesItsPage : Obligations.FailedWriteLosesItsPage := by
  refine ⟨fun s t a n p hs w h hr => failedWrite_page hs w h hr,
    fun s t a n p hs w h hd hr => failedPagedWrite_page hs w h hd hr, fun s t a rest hs w h => ?_⟩
  simp only [step, hs, tick, tickOutcome] at h
  injection h with h
  subst h
  exact lostAt_unspecified (b := a) w

end Sys2Proof.Machine

/-! PROOFS. READ and WRITE with the reference slave (95_test_vectors.md section 3 rule 5), and the round-trip law (R64). -/

namespace Sys2Proof.Machine

open Sys2Proof.Safety

/-- A slave that talks to the master is ready for its next command. -/
theorem Talks.ready {s : State} {sl : Slave} (h : Talks s sl) : SlaveReady s := by
  have hput := h.put .silent false
  exact ⟨h.live, (congrArg Slave.present hput).trans h.present, (congrArg Slave.saddr hput).trans h.saddr⟩

theorem Talks.mem {s : State} {sl : Slave} (h : Talks s sl) : s.env.slave.mem = sl.mem := by
  have hmem := congrArg Slave.mem (h.put .silent false)
  exact hmem

theorem Memory.readMany_length (m : List Host.Cell) (a n : Nat) : (Memory.readMany m a n).length = n := by
  induction n generalizing a with
  | zero => rfl
  | succ n ih => rw [Memory.readMany, List.length_cons, ih]

theorem readBadLen_pos {p : Params} {n : Nat} (h : readBadLen p n = false) : 1 ≤ n := by
  cases n with
  | zero => simp [readBadLen] at h
  | succ n => omega

/-- READ from the reference slave: the bytes of the array, which is left alone, and the slave ready again (R184). -/
theorem exec_read_slave {s : State} {a : Addr} {n : Nat} (hi : Idle s) (hs : SlaveReady s)
    (hn : readBadLen s.params n = false) (hfit : a.toNat + n ≤ Config.addrTop) :
    ∃ t, exec (.read a n) s = .next t ∧ Ended t .ok (some (Memory.readMany s.env.slave.mem a.toNat n)) ∧
      t.env.slave.mem = s.env.slave.mem ∧ SlaveReady t := by
  obtain ⟨hseq, hdir, -, hg⟩ := hi
  obtain ⟨t, hop, ht, hbuf, -⟩ := readOp_slave (begin s) s.env.slave a n (Talks.refl (s := begin s) hg hdir hs)
    (readBadLen_pos hn) hfit
  obtain ⟨r, t', evs, hx, -, -, -, hgt, hdt, hlt⟩ := transact_ran (cmdframe4 s.devaddr .read a) [] false (recvFrame n) _
    True (loadAddr a n (begin s)) (recvFrame_frame n) hg
  obtain ⟨rfl, rfl⟩ : Result.ok = r ∧ t = t' := by simpa using hop.symm.trans hx
  refine ⟨retData t, ?_, hbuf ▸ retData_ended hgt hdt hlt, ht.mem, ht.ready⟩
  rw [exec_read hseq hn, hop]
  rfl

/-- WRITE to the reference slave: the payload is stored, and the slave is ready again (R186). -/
theorem exec_write_slave {s : State} {a : Addr} {p : List Byte} (hi : Idle s) (hs : SlaveReady s) (hp : p ≠ [])
    (hpage : a.toNat % 16 + p.length ≤ 16) :
    ∃ t, exec (.write a p.length p) s = .next t ∧ Ended t .ok none ∧
      t.env.slave.mem = Memory.writeMany s.env.slave.mem a.toNat p ∧ SlaveReady t := by
  obtain ⟨hseq, hdir, -, hg⟩ := hi
  have hc : crossesPage a p.length = false := crossesPage_eq_false hpage
  obtain ⟨t, hop, ht, -⟩ := writeOp_slave (begin s) s.env.slave a p (Talks.refl (s := begin s) hg hdir hs) hp hc
  obtain ⟨r, u, evs, hx, -, -, hgu, hdu, hlu⟩ := writeOp_ran a p.length p (begin s) hg
  obtain ⟨rfl, rfl⟩ : Result.ok = r ∧ t = endWrite a r u := by simpa using hop.symm.trans hx
  refine ⟨ret .ok t, ?_, ret_ended .ok hgu hdu hlu, ht.mem, ht.ready⟩
  rw [exec_write hseq (writeBadLen_eq_false (List.length_pos_iff.mpr hp) rfl) hc, hop]
  rfl

/-- A range inside one page is inside the array (R51, R52). -/
theorem fits_of_inPage {a : Addr} {n : Nat} (h : a.toNat % 16 + n ≤ 16) : a.toNat + n ≤ Config.addrTop := by
  have := a.isLt
  simp only [Config.addrTop]
  omega

/-- Settles O54, from `exec_read_slave`. -/
theorem readReturnsArrayBytes : Obligations.ReadReturnsArrayBytes := by
  intro s a n hi hs hn hfit
  obtain ⟨t, he, hend, hmem, -⟩ := exec_read_slave hi hs hn hfit
  exact ⟨t, he, hend, hmem⟩

/-- Settles O55: the array after the WRITE is the one before with the payload written over it. -/
theorem writeStoresPayload : Obligations.WriteStoresPayload := by
  rintro s a n p hi hs hw hn rfl hpage
  have hfit := fits_of_inPage hpage
  obtain ⟨t, he, hend, hmem, -⟩ := exec_write_slave hi hs (List.length_pos_iff.mp hn) hpage
  refine ⟨t, he, hend, ?_, fun x hx => ?_⟩
  · rw [hmem, Memory.readMany_writeMany _ _ _ hw hfit]
  · rw [hmem, Memory.writeMany_read_outside _ _ _ _ hw hfit hx]

/-- Settles O56: the READ gives as many bytes as it asks for, the WRITE stores them, and the second READ reads what was
stored. -/
theorem readWriteReadRoundTrip : Obligations.ReadWriteReadRoundTrip := by
  intro s t u v a n d hi hs hw hn hpage hr hd hwr hrr
  have hfit := fits_of_inPage hpage
  obtain ⟨t', he, hend, hmem, hst⟩ := exec_read_slave hi hs hn hfit
  obtain rfl : t = t' := by simpa using hr.symm.trans he
  obtain rfl : Memory.readMany s.env.slave.mem a.toNat n = d := by simpa using hend.rdata.symm.trans hd
  generalize hdata : Memory.readMany s.env.slave.mem a.toNat n = d at *
  obtain rfl : d.length = n := hdata ▸ Memory.readMany_length _ _ _
  obtain ⟨u', he', hend', hmem', hsu⟩ := exec_write_slave hend.idle hst (List.length_pos_iff.mp (readBadLen_pos hn)) hpage
  obtain rfl : u = u' := by simpa using hwr.symm.trans he'
  have hpar : u.params = s.params := (exec_keeps hwr).1.params.trans (exec_keeps hr).1.params
  obtain ⟨v', hv, hendv, -⟩ := exec_read_slave hend'.idle hsu (hpar ▸ hn) hfit
  obtain rfl : v = v' := by simpa using hrr.symm.trans hv
  rw [hendv.rdata, hmem', hmem, Memory.readMany_writeMany _ _ _ hw hfit]

end Sys2Proof.Machine

/-! PROOFS. The encodings (R78 to R89): decoder and encoder are each other's inverse, what the decoder refuses, the bytes of
the frames, the MAK bits of the byte slots (R83), and what a receive slot reads (R126). -/

namespace Sys2Proof

/-- A frame that opens with an opcode value is read by that opcode's format, at every device address (R80, log 12). -/
@[simp] theorem decode_code (d : Byte) (o : Opcode) (rest : List Byte) (n : Nat) (p : List Byte) :
    decode (d :: o.code :: rest) n p = decodeOperands o rest n p := by
  rw [decode, decodeOpcode_code]

@[simp] theorem decode_startHeader (n : Nat) (p : List Byte) : decode [Config.startHeader] n p = .ok .startHeader :=
  rfl

/-- Settles O2, instruction by instruction: the frame's opcode chooses the format (`decode_code`), whose operands are read
back, the address from its two halves (`addrOf_high_low`). -/
theorem decodeOfEncode : Obligations.DecodeOfEncode := by
  intro d i bytes h
  cases i
  case waitWip | pagedWrite => cases h
  case startHeader =>
    cases h
    exact decode_startHeader _ _
  case read a n =>
    cases h
    exact (decode_code ..).trans (congrArg (fun b => Except.ok (Instr.read b n)) (addrOf_high_low a))
  case write a n p =>
    cases h
    exact (decode_code ..).trans (congrArg (fun b => Except.ok (Instr.write b n p)) (addrOf_high_low a))
  case wrsr | wren | wrdi | rdsr | eral | setal =>
    cases h
    exact decode_code ..

/-- The frames the decoder accepts: the header byte alone, or an opcode value with the operands of its format. -/
theorem decode_ok {bytes : List Byte} {n : Nat} {p : List Byte} {i : Instr} (h : decode bytes n p = .ok i) :
    (bytes = [Config.startHeader] ∧ i = .startHeader) ∨
    ∃ d o rest, bytes = d :: o.code :: rest ∧ decodeOperands o rest n p = .ok i := by
  match bytes, h with
  | [b], h =>
    by_cases hb : b = Config.startHeader
    · subst hb
      rw [decode_startHeader] at h
      cases h
      exact Or.inl ⟨rfl, rfl⟩
    · rw [decode, if_neg hb] at h
      cases h
  | d :: op :: rest, h =>
    cases ho : decodeOpcode op with
    | none =>
      rw [decode, ho] at h
      cases h
    | some o =>
      obtain rfl := code_of_decodeOpcode op o ho
      rw [decode_code] at h
      exact Or.inr ⟨d, o, rest, rfl, h⟩

/-- The operands beside the frame are those of the instruction, where it has such operands (R81, R82). -/
def Instr.Carries (i : Instr) (n : Nat) (p : List Byte) : Prop :=
  (∀ a m, i = .read a m → m = n) ∧ (∀ a m q, i = .write a m q → m = n ∧ q = p)

theorem carries_read (a : Addr) (n : Nat) (p : List Byte) : (Instr.read a n).Carries n p :=
  ⟨fun _ _ h => (Instr.read.inj h).2.symm, fun _ _ _ h => Instr.noConfusion h⟩

theorem carries_write (a : Addr) (n : Nat) (p : List Byte) : (Instr.write a n p).Carries n p :=
  ⟨fun _ _ h => Instr.noConfusion h, fun _ _ _ h => (Instr.write.inj h).2.imp Eq.symm Eq.symm⟩

/-- An instruction other than READ and WRITE has no operands beside its frame. -/
theorem carries_of_ne {i : Instr} {n : Nat} {p : List Byte} (hr : ∀ a m, i ≠ .read a m)
    (hw : ∀ a m q, i ≠ .write a m q) : i.Carries n p :=
  ⟨fun a m h => absurd h (hr a m), fun a m q h => absurd h (hw a m q)⟩

theorem cmdframe4_addrOf (d : Byte) (o : Opcode) (hi lo : Byte) :
    cmdframe4 d o (addrOf hi lo) = [d, o.code, hi, lo] := by
  rw [cmdframe4, addrHigh_addrOf, addrLow_addrOf]

/-- The operand bytes an opcode's format accepts are those its instruction is encoded with (R80), by their number. -/
theorem decodeOperands_ok {o : Opcode} {rest : List Byte} {n : Nat} {p : List Byte} {i : Instr} (d : Byte)
    (h : decodeOperands o rest n p = .ok i) : encode d i = some (d :: o.code :: rest) ∧ i.Carries n p := by
  match rest, h with
  | [], h => cases o <;> cases h <;> exact ⟨rfl, carries_of_ne nofun nofun⟩
  | [v], h =>
    cases o <;> cases h
    case wrsr => exact ⟨rfl, carries_of_ne nofun nofun⟩
  | [hi, lo], h =>
    cases o <;> cases h
    case read => exact ⟨congrArg some (cmdframe4_addrOf d .read hi lo), carries_read _ _ _⟩
    case write => exact ⟨congrArg some (cmdframe4_addrOf d .write hi lo), carries_write _ _ _⟩
  | _ :: _ :: _ :: _, h => cases o <;> cases h

/-- Settles O3, by the two kinds of frame that are accepted (`decode_ok`). -/
theorem encodeOfDecode : Obligations.EncodeOfDecode := by
  intro bytes n p i h
  rcases decode_ok h with ⟨rfl, rfl⟩ | ⟨d, o, rest, rfl, hop⟩
  · exact ⟨⟨0, rfl⟩, carries_of_ne nofun nofun⟩
  · obtain ⟨henc, hcar⟩ := decodeOperands_ok d hop
    exact ⟨⟨d, henc⟩, hcar⟩

/-- Settles O1: the decoder is run on each of the ten words. -/
theorem tableWordsDecode : Obligations.TableWordsDecode :=
  ⟨rfl, rfl, rfl, rfl, rfl, rfl, rfl, rfl, rfl, rfl⟩

/-- The opcodes of R85, in the order of its table. -/
def opcodes : List Opcode :=
  [Opcode.read, Opcode.write, Opcode.wren, Opcode.wrdi, Opcode.rdsr, Opcode.wrsr, Opcode.eral, Opcode.setal]

theorem mem_opcodes (o : Opcode) : o ∈ opcodes := by cases o <;> decide

/-- The eight values of R85 are those of the eight opcodes. -/
theorem mem_opcodeValues_iff (b : Byte) :
    b ∈ ([0x03, 0x6C, 0x96, 0x91, 0x05, 0x6E, 0x6D, 0x67] : List Byte) ↔ ∃ o : Opcode, o.code = b := by
  change b ∈ opcodes.map Opcode.code ↔ _
  simp only [List.mem_map, mem_opcodes, true_and]

/-- A byte that is the value of no opcode names none (R86). -/
theorem decodeOpcode_eq_none {b : Byte} (h : ¬ ∃ o : Opcode, o.code = b) : decodeOpcode b = none := by
  cases ho : decodeOpcode b with
  | none => rfl
  | some o => exact absurd ⟨o, code_of_decodeOpcode b o ho⟩ h

/-- Settles O5: such a byte is the value of no opcode (`mem_opcodeValues_iff`), so it names none. -/
theorem reservedOpcodesRefused : Obligations.ReservedOpcodesRefused := by
  refine ⟨fun d op rest n p h => ?_, mem_opcodeValues_iff⟩
  rw [mem_opcodeValues_iff] at h
  rw [decode, decodeOpcode_eq_none h]

theorem addrHigh_toNat (a : Addr) : (addrHigh a).toNat = a.toNat / 256 := by
  have := a.isLt
  rw [addrHigh, BitVec.extractLsb'_toNat, Nat.shiftRight_eq_div_pow]
  omega

theorem addrLow_toNat (a : Addr) : (addrLow a).toNat = a.toNat % 256 := by
  rw [addrLow, BitVec.extractLsb'_toNat, Nat.shiftRight_zero]

/-- Settles O6: the two address bytes are quotient and remainder by 256. -/
theorem commandFrameBytes : Obligations.CommandFrameBytes := by
  refine fun d o a v => ⟨rfl, rfl, addrHigh a, addrLow a, rfl, ?_⟩
  rw [addrHigh_toNat, addrLow_toNat]
  exact Nat.div_add_mod' _ _

end Sys2Proof

namespace Sys2Proof.Safety

open Sys2Proof.Machine

/-- The MAK slot of a byte slot holds `m` (R75). -/
def CarriesMak (m : Bit) (b : ByteSlot) : Prop := ∃ w, b = .sent w m ∨ b = .received m

/-- The last byte slot carries `MAK_LAST` and every slot before it `MAK_MORE` (R83). -/
def EndsWithMakLast (slots : List ByteSlot) : Prop :=
  ∃ init last, slots = init ++ [last] ∧ CarriesMak Config.makLast last ∧ ∀ b ∈ init, CarriesMak Config.makMore b

theorem endsWithMakLast_singleton {b : ByteSlot} (h : CarriesMak Config.makLast b) : EndsWithMakLast [b] :=
  ⟨[], b, rfl, h, List.forall_mem_nil _⟩

theorem EndsWithMakLast.append {before slots : List ByteSlot} (h : EndsWithMakLast slots)
    (hb : ∀ b ∈ before, CarriesMak Config.makMore b) : EndsWithMakLast (before ++ slots) := by
  obtain ⟨init, last, rfl, hlast, hinit⟩ := h
  exact ⟨before ++ init, last, (List.append_assoc _ _ _).symm, hlast, List.forall_mem_append.mpr ⟨hb, hinit⟩⟩

theorem EndsWithMakLast.cons {b : ByteSlot} {slots : List ByteSlot} (h : EndsWithMakLast slots)
    (hb : CarriesMak Config.makMore b) : EndsWithMakLast (b :: slots) :=
  h.append (List.forall_mem_singleton.mpr hb)

/-- A frame that is not the final one has `MAK_MORE` in every slot (R83, R160). -/
theorem sentSlots_more (bytes : List Byte) : ∀ b ∈ sentSlots bytes false, CarriesMak Config.makMore b := by
  induction bytes with
  | nil => exact List.forall_mem_nil _
  | cons v rest ih => exact List.forall_mem_cons.mpr ⟨⟨v, Or.inl rfl⟩, ih⟩

theorem sentSlots_final {bytes : List Byte} (h : bytes ≠ []) : EndsWithMakLast (sentSlots bytes true) := by
  induction bytes with
  | nil => exact absurd rfl h
  | cons v rest ih =>
    cases rest with
    | nil => exact endsWithMakLast_singleton ⟨v, Or.inl rfl⟩
    | cons w rest => exact (ih (List.cons_ne_nil w rest)).cons ⟨v, Or.inl rfl⟩

theorem receivedSlots_final {n : Nat} (h : n ≠ 0) : EndsWithMakLast (receivedSlots n) := by
  induction n with
  | zero => exact absurd rfl h
  | succ n ih =>
    cases n with
    | zero => exact endsWithMakLast_singleton ⟨0, Or.inr rfl⟩
    | succ n => exact (ih n.succ_ne_zero).cons ⟨0, Or.inr rfl⟩

/-- Settles O7: each list of slots ends with a final frame or with received bytes, and what stands before is a frame that is
not final. -/
theorem onlyTheLastSlotCarriesMakLast : Obligations.OnlyTheLastSlotCarriesMakLast := by
  intro d a v n p o hn hp
  have hread := (receivedSlots_final hn).append (sentSlots_more (cmdframe4 d Opcode.read a))
  have hwrite := (sentSlots_final hp).append (sentSlots_more (cmdframe4 d Opcode.write a))
  have hstatus := (receivedSlots_final Nat.one_ne_zero).append (sentSlots_more (cmdframe2 d Opcode.rdsr))
  have htwo : EndsWithMakLast (sentSlots (cmdframe2 d o) true) := sentSlots_final (List.cons_ne_nil _ _)
  have hthree : EndsWithMakLast (sentSlots (cmdframe3 d o v) true) := sentSlots_final (List.cons_ne_nil _ _)
  exact List.forall_mem_cons.mpr ⟨hread, List.forall_mem_cons.mpr ⟨hwrite, List.forall_mem_cons.mpr ⟨htwo,
    List.forall_mem_cons.mpr ⟨hthree, List.forall_mem_singleton.mpr hstatus⟩⟩⟩⟩

end Sys2Proof.Safety

namespace Sys2Proof.Machine

/-- The oracle answers the next samples with `bits`, the next one first (R104, log 2). -/
def Scripted (bits : List Bit) (s : State) : Prop := s.env.slave.answers = false ∧ s.env.script = bits

theorem Env.answer_script {e : Env} {a : Bit} {bits : List Bit} (h : e.slave.answers = false) (hs : e.script = a :: bits)
    (dir : Dir) (lvl : Bit) : e.answer dir lvl = a := by
  simp only [Env.answer, h, hs, Bool.false_eq_true, if_false]

/-- No event but a sample uses up an answer. -/
theorem Scripted.emit {bits : List Bit} {s : State} (h : Scripted bits s) {e : Event} (he : ∀ v, e ≠ .smp v) :
    Scripted bits (emit e s) := by
  have henv : (Machine.emit e s).env = s.env := by
    cases e
    case smp v => exact absurd rfl (he v)
    all_goals simp only [Machine.emit, Env.observe, h.1, Bool.false_eq_true, if_false]
  rw [Scripted, henv]
  exact h

theorem Scripted.setLevel {bits : List Bit} {s : State} (h : Scripted bits s) (v : Bit) : Scripted bits (setLevel v s) :=
  Scripted.emit (s := { s with lvl := v }) h nofun

theorem Scripted.setInput {bits : List Bit} {s : State} (h : Scripted bits s) : Scripted bits (setInput s) :=
  Scripted.emit (s := { s with dir := .input }) h nofun

theorem Scripted.setOutput {bits : List Bit} {s : State} (h : Scripted bits s) : Scripted bits (setOutput s) :=
  Scripted.emit (s := { s with dir := .output }) h nofun

theorem Scripted.wait {bits : List Bit} {s : State} (h : Scripted bits s) (c : Delay) : Scripted bits (wait c s) :=
  h.emit nofun

/-- A sample uses up one answer. -/
theorem Scripted.emit_smp {a : Bit} {bits : List Bit} {s : State} (h : Scripted (a :: bits) s) (v : Bit) :
    Scripted bits (Machine.emit (.smp v) s) := by
  obtain ⟨hans, hscript⟩ := h
  simp [Scripted, Machine.emit, Env.observe, hans, hscript]

theorem Scripted.sampleA {a : Bit} {bits : List Bit} {s : State} (h : Scripted (a :: bits) s) :
    Scripted bits (sampleA s) ∧ (sampleA s).sa = a :=
  ⟨Scripted.emit_smp (s := { s with sa := s.env.answer s.dir s.lvl }) h _, Env.answer_script h.1 h.2 _ _⟩

theorem Scripted.sampleB {b : Bit} {bits : List Bit} {s : State} (h : Scripted (b :: bits) s) :
    Scripted bits (sampleB s) ∧ (sampleB s).sb = b :=
  ⟨Scripted.emit_smp (s := { s with sb := s.env.answer s.dir s.lvl }) h _, Env.answer_script h.1 h.2 _ _⟩

/-- A bit slot uses up two answers, the values of `SA` and `SB` (R120). -/
theorem Scripted.xferBit {a b : Bit} {bits : List Bit} {s : State} (h : Scripted (a :: b :: bits) s) (w : Bit) :
    Scripted bits (xferBit w s) ∧ (xferBit w s).sa = a ∧ (xferBit w s).sb = b := by
  obtain ⟨h1, ha⟩ := ((h.setLevel (!w)).wait .quarter).sampleA
  obtain ⟨h2, hb⟩ := (((h1.wait .quarter).setLevel w).wait .quarter).sampleB
  exact ⟨h2.wait .quarter, ha, hb⟩

/-- A receive slot uses up two answers, the values of `SA` and `SB` (R124). -/
theorem Scripted.recvBit {a b : Bit} {bits : List Bit} {s : State} (h : Scripted (a :: b :: bits) s) :
    Scripted bits (recvBit s) ∧ (recvBit s).sa = a ∧ (recvBit s).sb = b := by
  obtain ⟨h1, ha, hb⟩ := h.setInput.xferBit true
  exact ⟨h1.setOutput, ha, hb⟩

/-- Settles O19: the two samples are the two answers, and a slot reads 1 for low, then high (R71). -/
theorem recvBitTruthTable : Obligations.RecvBitTruthTable := by
  intro s a b later hans hscript
  obtain ⟨⟨-, hlater⟩, ha, hb⟩ := Scripted.recvBit ⟨hans, hscript⟩
  refine ⟨ha, hb, hlater, ?_⟩
  rw [slotValue_eq, ha, hb]
  cases a <;> cases b <;> rfl

end Sys2Proof.Machine

/-! PROOFS. The answers that SEND_BYTE uses up (R140, R141, R143), the line and timing primitives (R100 to R107), and the
standby pulse and the gap (R166, R170). -/

namespace Sys2Proof.Machine

/-- The loop of SEND_BYTE uses up two answers a turn (R140). -/
theorem Scripted.sendBits {k : Nat} {driven later : List Bit} {s : State} (hlen : driven.length = 2 * k)
    (h : Scripted (driven ++ later) s) : Scripted later (sendBits k s) := by
  induction k generalizing driven s with
  | zero =>
    obtain rfl := List.length_eq_zero_iff.mp hlen
    exact h
  | succ k ih =>
    match driven, hlen with
    | a :: b :: rest, hlen =>
      have hrest : rest.length = 2 * k := by
        simp only [List.length_cons] at hlen
        omega
      obtain ⟨hslot, -, -⟩ := Scripted.xferBit (bits := rest ++ later) h (s.shreg.getLsbD 7)
      exact ih (s := shiftOut (Machine.xferBit (s.shreg.getLsbD 7) s)) hrest hslot

/-- The handshake uses up two answers in the MAK slot and two in the SAK slot, and only those of the SAK slot give the
acknowledgement (R75 to R77, R143). -/
theorem Scripted.handshake {c d a b : Bit} {later : List Bit} {s : State} (h : Scripted (c :: d :: a :: b :: later) s)
    (last : Bit) : Scripted later (handshake last s) ∧ (handshake last s).sakf = (b && !a) := by
  obtain ⟨hmak, -, -⟩ := h.xferBit (mak last)
  obtain ⟨hsak, ha, hb⟩ := hmak.recvBit
  refine ⟨hsak, ?_⟩
  calc (Machine.handshake last s).sakf
      = slotValue (Machine.recvBit (Machine.xferBit (mak last) s)) := rfl
    _ = (b && !a) := by rw [slotValue_eq, ha, hb]

/-- SEND_BYTE uses up the 18 answers of the slots it drives, 16 in its loop and two in the MAK slot, before the two that
give its result (R140, R141). -/
theorem Scripted.sendByte {driven later : List Bit} {a b : Bit} {s : State} (hlen : driven.length = 18)
    (h : Scripted (driven ++ a :: b :: later) s) (v : Byte) (last : Bit) :
    Scripted later (sendByte v last s) ∧ (sendByte v last s).sakf = (b && !a) := by
  have hsplit : driven ++ a :: b :: later = driven.take 16 ++ (driven.drop 16 ++ a :: b :: later) := by
    rw [← List.append_assoc, List.take_append_drop]
  obtain ⟨c, d, hmak⟩ := List.length_eq_two.mp (show (driven.drop 16).length = 2 by rw [List.length_drop, hlen])
  rw [hsplit, hmak] at h
  have hbits : Scripted (c :: d :: a :: b :: later) (Machine.sendBits 8 (loadShreg v s)) :=
    Scripted.sendBits (s := loadShreg v s) (by rw [List.length_take, hlen]; rfl) h
  exact hbits.handshake last

/-- Settles O22: of the 20 answers used up, the last two are those of the SAK slot (`Scripted.sendByte`). -/
theorem sendByteIgnoresDrivenSamples : Obligations.SendByteIgnoresDrivenSamples := by
  intro v last s driven a b later hans hlen hscript
  obtain ⟨⟨-, hlater⟩, hsak⟩ := Scripted.sendByte hlen ⟨hans, hscript⟩ v last
  exact ⟨hsak, hlater⟩

theorem delay_events (n : Nat) (s : State) : (delay n s).events = s.events ++ [Event.dly n] := List.reverse_cons

/-- While only the master drives, the wire is at the latch (R103, R106). -/
theorem State.wire_output {s : State} (h : s.dir = .output) : s.wire none = some s.lvl := by
  cases s
  cases h
  rfl

/-- Where nobody drives, the wire has no level (log 23). -/
theorem State.wire_input {s : State} (h : s.dir = .input) : s.wire none = none := by
  cases s
  cases h
  rfl

/-- Settles O15: the event of each primitive from the lemma that says what it ran, and the wire from the direction. -/
theorem primitivesWriteAndEmit : Obligations.PrimitivesWriteAndEmit := by
  intro s v n
  refine ⟨?_, ?_, ?_, ?_, ?_, ?_, State.wire_output, State.wire_input, ?_⟩
  · exact ⟨setOutput_dir s, setOutput_lvl s, (setOutput_ran s).events⟩
  · exact ⟨setInput_dir s, setInput_lvl s, (setInput_ran s).events⟩
  · exact ⟨setLevel_lvl s v, setLevel_dir s v, (setLevel_ran v s).events⟩
  · exact ⟨sampleA_dir s, sampleA_lvl s, sampleA_sa s, (sampleA_ran s).events⟩
  · exact ⟨sampleB_dir s, sampleB_lvl s, sampleB_sb s, (sampleB_ran s).events⟩
  · exact ⟨delay_dir s n, delay_lvl s n, delay_events n s⟩
  · rw [State.wire_output (setOutput_dir _), setOutput_lvl, setLevel_lvl]

/-- STANDBY_PULSE writes `LVL` and nothing else of the master (R166, R39). -/
theorem standbyPulse_frame (s : State) :
    standbyPulse s = { s with lvl := true, env := (standbyPulse s).env, trace := (standbyPulse s).trace } := rfl

/-- GAP writes nothing of the master (R170, R39). -/
theorem gap_frame (s : State) : gap s = { s with env := (gap s).env, trace := (gap s).trace } := rfl

/-- Settles O25: the events each ran (`standbyPulse_ran`, `gap_ran`), its frame, and the delays at R25's constants. -/
theorem standbyPulseAndGap : Obligations.StandbyPulseAndGap := by
  intro s
  refine ⟨(standbyPulse_ran s).1.events, standbyPulse_frame s, ?_, (gap_ran s).events, gap_frame s⟩
  intro htiming
  rw [htiming]
  exact ⟨rfl, rfl, rfl⟩

end Sys2Proof.Machine

/-! PROOFS. The two operations of the bit transceiver (R120, R124). -/

namespace Sys2Proof.Machine

/-- XFER_BIT writes `LVL`, `SA` and `SB`, and nothing else of the master (R120, R39). -/
theorem xferBit_frame (w : Bit) (s : State) :
    xferBit w s = { s with lvl := w, sa := (xferBit w s).sa, sb := (xferBit w s).sb, env := (xferBit w s).env,
                           trace := (xferBit w s).trace } := rfl

/-- RECV_BIT is XFER_BIT(1) between the two direction changes, so it leaves `DIR` output and adds no other register to
those of XFER_BIT (R124, R125, R39). -/
theorem recvBit_frame (s : State) :
    recvBit s = { s with dir := .output, lvl := true, sa := (recvBit s).sa, sb := (recvBit s).sb,
                         env := (recvBit s).env, trace := (recvBit s).trace } := rfl

/-- A quarter wait at the constants of R25, the fudge factor added (R109). -/
theorem quarterWait_default {t : Timing} (h : t = Config.timing) : t.quarter + t.fudge = 15 := by
  rw [h]
  rfl

/-- Settles O17: the events it ran (`xferBit_ran`), its result and its frame. -/
theorem xferBitEvents : Obligations.XferBitEvents := fun w s =>
  ⟨(xferBit_ran w s).1.events, slotValue_eq _, xferBit_frame w s, quarterWait_default⟩

/-- Settles O18: the events it ran (`recvBit_ran`), its frame and its result. -/
theorem recvBitEvents : Obligations.RecvBitEvents := fun s =>
  ⟨(recvBit_ran s).1.events, recvBit_frame s, slotValue_eq _, quarterWait_default⟩

end Sys2Proof.Machine

/-! PROOFS. SEND_BYTE as a whole operation: its events counted, what is left in `SHREG`, its last two samples, and its frame
(R140, R148, R39). -/

namespace Sys2Proof.Machine

open Sys2Proof.Safety

/-- A sent byte slot is 82 events (R140). -/
theorem byteShape_sent_length (t : Timing) (v : Byte) (m : Bit) : (byteShape t (.sent v m)).length = 82 := rfl

/-- A sent byte slot requests the time of its ten bit slots (R148). -/
theorem requestedTime_byteShape_sent (t : Timing) (v : Byte) (m : Bit) :
    requestedTime (byteShape t (.sent v m)) = 40 * requestedDelay t .quarter := by
  simp only [byteShape, msbFirst, List.flatMap_cons, List.flatMap_nil, requestedTime_append, requestedTime_recvShape,
    requestedTime_slotShape, requestedTime]
  omega

theorem ByteRan.length_sent {v : Byte} {m : Bit} {s t : State} {evs : List Event} {vals : List Bit}
    (h : ByteRan (.sent v m) s t evs vals) : evs.length = 82 := by
  rw [← List.length_map (f := eraseSample), h.shape, byteShape_sent_length]

theorem ByteRan.time_sent {v : Byte} {m : Bit} {s t : State} {evs : List Event} {vals : List Bit}
    (h : ByteRan (.sent v m) s t evs vals) (ht : s.timing = Config.timing) : requestedTime evs = 600 := by
  rw [← requestedTime_erase, h.shape, ht, requestedTime_byteShape_sent]
  rfl

theorem shiftLeftIn_false (b : Byte) : shiftLeftIn b false = b <<< (1 : Nat) := BitVec.or_zero

/-- Each turn of the loop of SEND_BYTE shifts `SHREG` once (R140, R149). -/
theorem sendBits_shreg (k : Nat) (s : State) : (sendBits k s).shreg = s.shreg <<< k := by
  induction k generalizing s with
  | zero => exact (BitVec.shiftLeft_zero s.shreg).symm
  | succ k ih =>
    have hslot : (xferBit (s.shreg.getLsbD 7) s).shreg = s.shreg := (xferBit_ran _ s).1.shreg
    calc (sendBits (k + 1) s).shreg
        = (shiftOut (xferBit (s.shreg.getLsbD 7) s)).shreg <<< k := ih _
      _ = s.shreg <<< (1 : Nat) <<< k := by rw [shiftOut_shreg, hslot, shiftLeftIn_false]
      _ = s.shreg <<< (k + 1) := by rw [← BitVec.shiftLeft_add, Nat.add_comm]

/-- The handshake leaves `SHREG` alone (R75, R39). -/
theorem handshake_shreg (last : Bit) (s : State) : (handshake last s).shreg = s.shreg := by
  rw [handshake, latchSak_shreg, (recvBit_ran _).1.shreg, (xferBit_ran _ s).1.shreg]

/-- Nothing of the byte is left in `SHREG` after its eight shifts (R140). -/
theorem sendByte_shreg (v : Byte) (last : Bit) (s : State) : (sendByte v last s).shreg = 0 :=
  calc (sendByte v last s).shreg
      = (sendBits 8 (loadShreg v s)).shreg := handshake_shreg last _
    _ = v <<< 8 := by rw [sendBits_shreg, loadShreg_shreg]
    _ = 0 := BitVec.shiftLeft_eq_zero le_rfl

/-- The last two samples in the trace after the handshake are those of its SAK slot, left in `SA` and `SB` (R77, R29). -/
theorem handshake_samples (last : Bit) (s : State) :
    sampleBits (handshake last s).events =
      sampleBits (xferBit (mak last) s).events ++ [(handshake last s).sa, (handshake last s).sb] := by
  rw [show (handshake last s).events = _ from (recvBit_ran (xferBit (mak last) s)).1.events, sampleBits_append]
  rfl

/-- Of the twenty samples of SEND_BYTE, the two after its driven slots are in `SA` and `SB` (R140, R141). -/
theorem sendByte_lastSamples {v : Byte} {last : Bit} {s : State} {evs : List Event} {vals : List Bit}
    (h : ByteRan (.sent v (mak last)) s (sendByte v last s) evs vals) :
    (sampleBits evs).drop 18 = [(sendByte v last s).sa, (sendByte v last s).sb] := by
  have hsak := handshake_samples last (sendBits 8 (loadShreg v s))
  rw [show (handshake last _).events = _ from h.events, sampleBits_append, ← List.take_append_drop 18 (sampleBits evs),
    ← List.append_assoc] at hsak
  exact List.append_inj_right' hsak (by rw [List.length_drop, h.samples]; rfl)

/-- Settles O20: the ten slots of `sendByte_ran`, with `SHREG` shifted out and the last two samples in `SA` and `SB`. -/
theorem sendByteSlots : Obligations.SendByteSlots := by
  intro v last s
  obtain ⟨evs, vals, hb⟩ := sendByte_ran v last s
  have hsak : (slotValues (sampleBits evs))[9]? = some (sendByte v last s).sakf := hb.values ▸ hb.sakf
  have hframe := hb.frame_eq
  rw [hb.dir, hb.lvl, hb.guard, hb.wbuf, hb.rbuf, sendByte_shreg] at hframe
  exact ⟨evs, hb.events, hb.shape, hb.length_sent, hsak, sendByte_lastSamples hb, hb.time_sent, hframe⟩

end Sys2Proof.Machine

/-! PROOFS. The invariant of the master and the guard (R172 to R175, R262, R273), and SEND_FRAME and START_HEADER as whole
operations (R160, R168, R39). -/

namespace Sys2Proof.Machine

open Sys2Proof.Safety

/-- At `IDLE` what is left of the command leads back to the idle line only where the line is idle (R262). -/
theorem idle_of_settles {s : State} (hs : s.seq = []) (h : settles s.seq (lineOf s) = true) : Idle s := by
  rw [hs] at h
  have hrest : lineOf s = Line.rest := of_decide_eq_true h
  simp only [lineOf, Line.rest, Line.mk.injEq, Option.some.injEq] at hrest
  exact ⟨hs, hrest⟩

/-- A command issued at the idle line leaves a position from which that line is reached again (R175, R262). -/
theorem exec_settles {i : Instr} {s t : State} (hi : Idle s) (h : exec i s = .next t) :
    settles t.seq (lineOf t) = true := by
  by_cases hh : i = .startHeader
  · subst hh
    obtain ⟨evs, -, -, -, hsettles⟩ := execStartHeader_next h
    exact hsettles hi
  · obtain ⟨evs, hx⟩ := exec_next i hh h
    exact hx.settles hi

/-- Settles O45, by the three kinds of step: an operation keeps the path back to the idle line (`tick_settles`), a wait
changes nothing, and a command starts at that line (`exec_settles`); every step keeps the array canonical. -/
theorem stepKeepsInvariant : Obligations.StepKeepsInvariant := by
  rintro s t ⟨hsettles, hwf⟩ h
  obtain ⟨-, -, -, -, hkeeps, -⟩ := step_keeps h
  refine ⟨?_, hkeeps hwf⟩
  rcases step_next h with ⟨op, rest, hs, h⟩ | ⟨-, -, rfl⟩ | ⟨r, rest, i, hs, -, -, h⟩
  · exact tick_settles op rest s t h (hs ▸ hsettles)
  · exact hsettles
  · exact exec_settles (s := { s with host := rest }) (idle_of_settles hs hsettles) h

/-- Settles O48: the discipline is among what every command but the header keeps (`exec_next`). -/
theorem commandsKeepGuardDiscipline : Obligations.CommandsKeepGuardDiscipline := by
  intro i s t hi hg h
  obtain ⟨evs, hx⟩ := exec_next i hi h
  exact ⟨evs, hx.events, hx.discipline hg⟩

/-- `LOCK()` at a free guard takes it (R172). -/
theorem lock_free {s : State} (h : s.guard = false) : lock s = .ok (takeGuard s) := by simp [lock, h]

/-- Settles O26, by the two values of the guard. -/
theorem guardIsOneDeep : Obligations.GuardIsOneDeep := by
  intro s
  refine ⟨fun hg => by simp [lock, hg], fun hg => ?_, unlock_guard s, (unlock_ran s).events⟩
  exact ⟨takeGuard s, lock_free hg, takeGuard_guard s, (takeGuard_ran s).events⟩

/-- What SEND_FRAME does to the buffers and the line: the line is that of its last byte slot (R125, R160). -/
theorem sendFrame_line (bytes : List Byte) (final : Bit) (s : State) :
    (sendFrame bytes final s).2.wbuf = s.wbuf ∧ (sendFrame bytes final s).2.rbuf = s.rbuf ∧
      (sendFrame bytes final s).2.lvl = (if bytes = [] then s.lvl else true) ∧
      (sendFrame bytes final s).2.dir = (if bytes = [] then s.dir else .output) := by
  induction bytes generalizing s with
  | nil => exact ⟨rfl, rfl, rfl, rfl⟩
  | cons b rest ih =>
    obtain ⟨evs, vals, hb⟩ := sendByte_ran b (final && rest.isEmpty) s
    rw [if_neg (List.cons_ne_nil b rest), if_neg (List.cons_ne_nil b rest)]
    simp only [sendFrame]
    split
    · obtain ⟨hw, hr, hl, hd⟩ := ih (sendByte b (final && rest.isEmpty) s)
      rw [hb.lvl, ite_self] at hl
      rw [hb.dir, ite_self] at hd
      exact ⟨hw.trans hb.wbuf, hr.trans hb.rbuf, hl, hd⟩
    · exact ⟨hb.wbuf, hb.rbuf, hb.lvl, hb.dir⟩

/-- Byte slots of `n` events each cost `n` events for each acknowledgement that was looked at (R160, R163). -/
theorem FrameOutcome.length_eq {t : Timing} {slots : List ByteSlot} {evs : List Event} {r : Result} {n : Nat}
    (h : FrameOutcome t slots evs r) (hn : ∀ b ∈ slots, (byteShape t b).length = n) :
    n * (acknowledgements (slotValues (sampleBits evs))).length = evs.length := by
  have hrun : ∀ bs : List ByteSlot, bs ⊆ slots → evs.map eraseSample = bs.flatMap (byteShape t) →
      n * bs.length = evs.length := by
    intro bs hsub he
    rw [← List.length_map (f := eraseSample), he, List.length_flatMap,
      List.map_congr_left (fun b hb => hn b (hsub hb)), List.map_const', List.sum_replicate, smul_eq_mul, Nat.mul_comm]
  rcases h with ⟨-, he, -, hk⟩ | ⟨-, k, hlt, he, -, hk⟩
  · rw [hk, List.length_replicate]
    exact hrun slots (List.Subset.refl slots) he
  · have h1 := hrun _ (List.take_subset (k + 1) slots) he
    rw [List.length_take_of_le hlt] at h1
    rw [hk, List.length_append, List.length_replicate]
    exact h1

/-- Each byte slot of a sent frame is 82 events (R140). -/
theorem sentSlots_shape_length (t : Timing) (bytes : List Byte) (final : Bit) :
    ∀ b ∈ sentSlots bytes final, (byteShape t b).length = 82 := by
  induction bytes with
  | nil => nofun
  | cons v rest ih => exact List.forall_mem_cons.mpr ⟨byteShape_sent_length t v _, ih⟩

/-- Settles O23, from the outcome of the byte slots (`sendFrame_ran`) and the line after them (`sendFrame_line`). -/
theorem sendFrameStopsAtFirstNoSak : Obligations.SendFrameStopsAtFirstNoSak := by
  intro bytes final s
  obtain ⟨evs, hr⟩ := sendFrame_ran bytes final s
  obtain ⟨hw, hb, hl, hd⟩ := sendFrame_line bytes final s
  have hframe := hr.frame_eq
  rw [hw, hb, hl, hd, hr.guard] at hframe
  refine ⟨evs, hr.events, ?_, hr.outcome.length_eq (sentSlots_shape_length _ bytes final), hframe, rfl⟩
  rcases hr.outcome with ⟨hok, he, -, hk⟩ | ⟨hno, k, hlt, he, -, hk⟩
  · rw [sentSlots_length] at hk
    exact Or.inl ⟨hok, he, hk⟩
  · rw [sentSlots_length] at hlt
    exact Or.inr ⟨hno, k, hlt, he, hk⟩

/-- Settles O34: at `IDLE` the instruction is the operation alone, whose events and frame `startHeader_ran` gives. -/
theorem startHeaderCompletes : Obligations.StartHeaderCompletes := by
  intro s hs
  obtain ⟨evs, hb, hshape, -, hd, hl⟩ := startHeader_ran s
  have hframe := hb.frame_eq
  rw [hd, hl, hb.guard, hb.wbuf, hb.rbuf] at hframe
  refine ⟨startHeader s, evs, ?_, hb.events, hshape, hframe, hb.slaveKept⟩
  simp only [exec, execStartHeader, issue_idle _ hs]

end Sys2Proof.Machine

/-! PROOFS. The transaction with which a command opens: where it finds the guard held the command stops with the fault
(R172, R243), and where the slave is absent the command ends with `NOSAK` at the device address (R162, R221, R224). -/

namespace Sys2Proof.Machine

open Sys2Proof.Safety

/-- The transaction `x` opens instruction `i`: its fault is the instruction's, and where it is not acknowledged the
instruction ends with `NOSAK` after it; the array apart, which a WRITE may lose a page of (R58). -/
def OpensWith (i : Instr) (s : State) (x : Except Fault (Result × State)) : Prop :=
  (∀ f, x = .error f → exec i s = .fault f) ∧
  (∀ t, x = .ok (.nosak, t) → ∃ e, exec i s = .next (ret .nosak { t with env := e }))

theorem opensWith_conclude {i : Instr} {s : State} {x : Except Fault (Result × State)} (h : exec i s = conclude x) :
    OpensWith i s x :=
  ⟨fun f hx => by rw [h, hx]; rfl, fun t hx => ⟨t.env, by rw [h, hx]; rfl⟩⟩

theorem opensWith_concludeData {i : Instr} {s : State} {x : Except Fault (Result × State)}
    (h : exec i s = concludeData x) : OpensWith i s x :=
  ⟨fun f hx => by rw [h, hx]; rfl, fun t hx => ⟨t.env, by rw [h, hx]; rfl⟩⟩

theorem opensWith_finishWrite {i : Instr} {s : State} {a : Addr} {x : Except Fault (Result × State)}
    (h : exec i s = conclude (finishWrite a x)) : OpensWith i s x :=
  ⟨fun f hx => by rw [h, hx]; rfl, fun t hx => ⟨(losePage a t).env, by rw [h, hx]; rfl⟩⟩

/-- PAGED_WRITE opens with the WREN of its first chunk (R201). -/
theorem opensWith_pagedTurns {i : Instr} {s u : State} {turns : Nat} {a : Addr} {p : List Byte} (hn : 1 ≤ turns)
    (hp : p ≠ []) (h : exec i s = concludeEnding (pagedTurns turns a p u)) :
    OpensWith i s (wrenOp (loadAddr a p.length u)) := by
  obtain ⟨n, rfl⟩ := Nat.exists_eq_add_of_le' hn
  have hpe : p.isEmpty = false := by simpa using hp
  refine ⟨fun f hx => ?_, fun t hx => ⟨t.env, ?_⟩⟩
  · rw [h]
    simp only [pagedTurns, hpe, chunkOp, hx]
    rfl
  · rw [h]
    simp only [pagedTurns, hpe, chunkOp, hx]
    rfl

/-- Instruction `i` opens with a transaction, the first byte of whose frame is the device address and not the last (R80,
R180). -/
def OpensTransaction (i : Instr) (s : State) : Prop :=
  ∃ (c : Byte) (rest payload : List Byte) (final : Bit) (data : State → Result × State) (a : Addr) (n : Nat),
    OpensWith i s (transact (s.devaddr :: c :: rest) payload final data (loadAddr a n (begin s)))

/-- A command whose transaction starts with no operand loaded (R27). -/
theorem opensTransaction_begin {i : Instr} {s : State} (c : Byte) (rest payload : List Byte) (final : Bit)
    (data : State → Result × State)
    (h : OpensWith i s (transact (s.devaddr :: c :: rest) payload final data (begin s))) : OpensTransaction i s :=
  ⟨c, rest, payload, final, data, (begin s).addr, (begin s).len, h⟩

section
variable {s : State} (hs : s.seq = [])
include hs

theorem wren_opens : OpensTransaction .wren s :=
  opensTransaction_begin Opcode.wren.code [] [] true noData
    (opensWith_conclude (by simp only [exec, execWren, issue_idle _ hs]; rfl))

theorem wrdi_opens : OpensTransaction .wrdi s :=
  opensTransaction_begin Opcode.wrdi.code [] [] true noData
    (opensWith_conclude (by simp only [exec, execWrdi, issue_idle _ hs]; rfl))

theorem rdsr_opens : OpensTransaction .rdsr s :=
  opensTransaction_begin Opcode.rdsr.code [] [] false (recvFrame 1)
    (opensWith_concludeData (by simp only [exec, execRdsr, issue_idle _ hs]; rfl))

theorem wrsr_opens (v : Byte) : OpensTransaction (.wrsr v) s :=
  opensTransaction_begin Opcode.wrsr.code [v] [] true noData
    (opensWith_conclude (by simp only [exec, execWrsr, issue_idle _ hs]; rfl))

theorem eral_opens (hb : s.params.bulkOps = true) : OpensTransaction .eral s :=
  opensTransaction_begin Opcode.eral.code [] [] true noData
    (opensWith_conclude (by simp only [exec, execEral, issue_idle _ hs, hb]; rfl))

theorem setal_opens (hb : s.params.bulkOps = true) : OpensTransaction .setal s :=
  opensTransaction_begin Opcode.setal.code [] [] true noData
    (opensWith_conclude (by simp only [exec, execSetal, issue_idle _ hs, hb]; rfl))

theorem read_opens {a : Addr} {n : Nat} (hb : readBadLen s.params n = false) : OpensTransaction (.read a n) s :=
  ⟨Opcode.read.code, [addrHigh a, addrLow a], [], false, recvFrame n, a, n, opensWith_concludeData (exec_read hs hb)⟩

theorem write_opens {a : Addr} {n : Nat} {p : List Byte} (hb : writeBadLen n p = false) (hc : crossesPage a n = false) :
    OpensTransaction (.write a n p) s :=
  ⟨Opcode.write.code, [addrHigh a, addrLow a], p, false, sendPayload p, a, n,
    opensWith_finishWrite (exec_write hs hb hc)⟩

theorem pagedWrite_opens {a : Addr} {n : Nat} {p : List Byte} (hb : pagedBadLen a n p = false) :
    OpensTransaction (.pagedWrite a n p) s := by
  have hp := pagedBadLen_payload hb
  have hopens := opensWith_pagedTurns (List.length_pos_iff.mpr hp) hp (exec_pagedWrite hs hb)
  rw [wrenOp, loadAddr_devaddr, begin_devaddr] at hopens
  exact ⟨Opcode.wren.code, [], [], true, noData, a, p.length, hopens⟩

end

/-- A command that opens with a transaction stops with the fault while the guard is held (R172). -/
theorem OpensTransaction.guardHeld {i : Instr} {s : State} (h : OpensTransaction i s) (hg : s.guard = true) :
    exec i s = .fault .guardHeld := by
  obtain ⟨c, rest, payload, final, data, a, n, hfault, -⟩ := h
  exact hfault _ (transact_guardHeld _ _ _ _ _ hg)

/-- WAIT_WIP makes at least one turn unless its limit is no poll (R198, R199). -/
theorem waitOp_firstTurn {s : State} (hk : s.params.pollLimit ≠ some 0) :
    limitReached (pollStart s) = false ∧ ∃ n, waitOp s = waitTurns (n + 1) (pollStart s) := by
  cases hl : s.params.pollLimit with
  | none => exact ⟨by simp [limitReached, hl], 0, by rw [waitOp, turnsPerRun, hl]⟩
  | some k =>
    have h0 : k ≠ 0 := fun h => hk (by rw [hl, h])
    exact ⟨by simp [limitReached, hl, h0.symm], k, by rw [waitOp, turnsPerRun, hl]⟩

/-- WAIT_WIP at `IDLE` (R198). -/
theorem exec_waitWip {s : State} (hs : s.seq = []) : exec .waitWip s = concludeEnding (waitOp (begin s)) := by
  simp only [exec, execWaitWip, issue_idle _ hs]

/-- Settles O27: every command but WAIT_WIP opens with a transaction, which faults, and WAIT_WIP with a poll, which does. -/
theorem commandsFaultWhileGuardHeld : Obligations.CommandsFaultWhileGuardHeld := by
  intro s hs hg
  refine ⟨(wren_opens hs).guardHeld hg, (wrdi_opens hs).guardHeld hg, (rdsr_opens hs).guardHeld hg,
    fun v => (wrsr_opens hs v).guardHeld hg, fun a n hb => (read_opens hs hb).guardHeld hg,
    fun a n p hb hc => (write_opens hs hb hc).guardHeld hg,
    fun hb => ⟨(eral_opens hs hb).guardHeld hg, (setal_opens hs hb).guardHeld hg⟩, fun hk => ?_,
    fun a n p hb => (pagedWrite_opens hs hb).guardHeld hg⟩
  obtain ⟨hl, n, hw⟩ := waitOp_firstTurn (s := begin s) hk
  rw [exec_waitWip hs, hw, waitTurns_guardHeld n (pollStart (begin s)) hl hg]
  rfl

/-- The reference slave answers the samples and is absent (95_test_vectors.md section 3). -/
def Absent (s : State) : Prop := s.env.slave.answers = true ∧ s.env.slave.present = false

/-- An event that is no sample leaves the slave absent. -/
theorem Absent.emit {s : State} (h : Absent s) {e : Event} (he : ∀ v, e ≠ .smp v) : Absent (emit e s) := by
  obtain ⟨ha, hp⟩ := h
  simp only [Absent, emit_env, Env.observe, ha, if_true]
  cases e with
  | smp v => exact absurd rfl (he v)
  | drv v =>
    cases v with
    | false => exact ⟨ha, hp⟩
    | true =>
      simp only [Slave.observe]
      split <;> exact ⟨ha, hp⟩
  | _ => exact ⟨ha, hp⟩

theorem Absent.wait {s : State} (h : Absent s) (c : Delay) : Absent (wait c s) := h.emit nofun

theorem Absent.setLevel {s : State} (h : Absent s) (v : Bit) : Absent (setLevel v s) :=
  Absent.emit (s := { s with lvl := v }) h nofun

theorem Absent.takeGuard {s : State} (h : Absent s) : Absent (takeGuard s) :=
  Absent.emit (s := { s with guard := true }) h nofun

theorem Absent.standbyPulse {s : State} (h : Absent s) : Absent (standbyPulse s) :=
  (((h.setLevel false).wait .stbyLow).setLevel true).wait .stbyHigh

/-- The inside of the guard with an absent slave: after the header the first byte slot is not acknowledged, and none comes
after it (R160, R162). -/
theorem transactionBody_absent {d : Byte} {rest : List Byte} {final : Bit} (data : State → Result × State) {s : State}
    (hmore : (final && rest.isEmpty) = false) (h : Absent s) (hd : s.dir = .output) :
    transactionBody (d :: rest) final data s = (.nosak, sendByte d false (startHeader s)) := by
  obtain ⟨ha, hp⟩ := h
  have hslave : (startHeader s).env.slave = s.env.slave.put .address true := startHeader_slave s ha hd
  obtain ⟨evs, -, -, -, hdir, -⟩ := startHeader_ran s
  have hsak : (sendByte d (final && rest.isEmpty) (startHeader s)).sakf = false := by
    rw [(sendByte_put d _ _ _ _ _ hslave ha hdir).2, hp, Bool.false_and]
  rw [transactionBody, sendFrame_refused hsak, hmore]

/-- A guarded body with an absent slave, after events `lead` without a sample: to that slave the frame is no more than its
first byte, so the events are those of a frame of that byte alone. -/
theorem guarded_absent {s0 s : State} {lead : List Event} {d : Byte} {rest : List Byte} {final : Bit}
    (data : State → Result × State) (hlead : Ran s0 s lead) (hnone : sampleBits lead = [])
    (hmore : (final && rest.isEmpty) = false) (h : Absent s) (hd : s.dir = .output) (hg : s.guard = false) :
    ∃ t evs, guarded (transactionBody (d :: rest) final data) s = .ok (.nosak, t) ∧ Ran s0 t evs ∧
      evs.map eraseSample = lead.map eraseSample ++ guardedShape s0.timing [ByteSlot.sent d Config.makMore] ∧
      t.guard = false ∧ t.dir = .output ∧ t.lvl = true := by
  have hbody := transactionBody_absent (d := d) data hmore h.takeGuard hd
  have hone := transactionBody_absent (d := d) (rest := []) (final := false) noData rfl h.takeGuard hd
  obtain ⟨r, t, evs, hx, hr, ht, -, hline⟩ := guarded_ran [d] false noData [] False s0 s lead hlead hnone noData_frame hg
  have hsame : guarded (transactionBody (d :: rest) final data) s = guarded (transactionBody [d] false noData) s := by
    simp only [guarded, lock_free hg, hbody, hone]
  have hno : r = .nosak := by
    simp only [guarded, lock_free hg, hone, Except.ok.injEq, Prod.mk.injEq] at hx
    exact hx.1.symm
  subst hno
  refine ⟨t, evs, hsame.trans hx, hr, ?_, hline⟩
  rcases ht with ⟨hok, -⟩ | ⟨-, k, hlt, hshape, -⟩
  · exact Result.noConfusion hok
  · obtain rfl : k = 0 := Nat.lt_one_iff.mp hlt
    exact hshape

/-- Loading `WBUF` is no event (R32). -/
theorem loadWbuf_ran (bytes : List Byte) (s : State) : Ran s (loadWbuf bytes s) [] :=
  ⟨rfl, rfl, rfl, rfl, rfl, rfl, rfl, rfl, rfl, rfl, rfl, rfl, rfl, EnvKeeps.refl _⟩

/-- A transaction with an absent slave: the standby pulse, the header and the device address (R162, R180, R221). -/
theorem transact_absent (d c : Byte) (rest payload : List Byte) (final : Bit) (data : State → Result × State) {s : State}
    (h : Absent s) (hd : s.dir = .output) (hg : s.guard = false) :
    ∃ t evs, transact (d :: c :: rest) payload final data s = .ok (.nosak, t) ∧ Ran s t evs ∧
      evs.map eraseSample = standbyShape s.timing ++ guardedShape s.timing [ByteSlot.sent d Config.makMore] ∧
      t.guard = false ∧ t.dir = .output ∧ t.lvl = true :=
  guarded_absent data
    ((loadWbuf_ran (d :: c :: rest ++ payload) s).trans (standbyPulse_ran _).1.toRan) rfl (Bool.and_false final)
    (Absent.standbyPulse (s := loadWbuf (d :: c :: rest ++ payload) s) h) hd hg

/-- A poll of an absent slave, and the gap before it (R197). -/
theorem poll_absent {s : State} (h : Absent s) (hd : s.dir = .output) (hg : s.guard = false) :
    ∃ t evs, poll (gap s) = .ok (.nosak, t) ∧ Ran s t evs ∧
      evs.map eraseSample =
        Event.dly (requestedDelay s.timing .gap) :: guardedShape s.timing [ByteSlot.sent s.devaddr Config.makMore] ∧
      t.guard = false ∧ t.dir = .output ∧ t.lvl = true :=
  guarded_absent (s := loadWbuf (cmdframe2 s.devaddr .rdsr) (gap s)) (recvFrame 1)
    ((gap_ran s).toRan.trans (loadWbuf_ran _ _)) rfl rfl (h.wait .gap) hd hg

/-- A command that opens with a transaction ends there where the slave is absent (R162, R221, R224). -/
theorem OpensTransaction.absent {i : Instr} {s : State} (h : OpensTransaction i s) (hi : Idle s) (ha : Absent s) :
    ∃ t evs, exec i s = .next t ∧ Ended t .nosak none ∧ t.events = s.events ++ evs ∧
      evs.map eraseSample = standbyShape s.timing ++ guardedShape s.timing [ByteSlot.sent s.devaddr Config.makMore] := by
  obtain ⟨c, rest, payload, final, data, a, n, -, hnosak⟩ := h
  obtain ⟨-, hd, -, hg⟩ := hi
  obtain ⟨t, evs, hx, hr, hshape, hgt, hdt, hlt⟩ :=
    transact_absent s.devaddr c rest payload final data (s := loadAddr a n (begin s)) ha hd hg
  obtain ⟨e, hexec⟩ := hnosak t hx
  exact ⟨_, evs, hexec, ret_ended .nosak hgt hdt hlt, hr.events, hshape⟩

/-- WAIT_WIP ends in its first poll where the slave is absent (R197, R223). -/
theorem waitOp_absent {s : State} (hk : s.params.pollLimit ≠ some 0) (h : Absent s) (hd : s.dir = .output)
    (hg : s.guard = false) :
    ∃ t evs, waitOp s = .ok (.ends .nosak, t) ∧ t.pollcnt = 1 ∧ t.events = s.events ++ evs ∧
      evs.map eraseSample =
        Event.dly (requestedDelay s.timing .gap) :: guardedShape s.timing [ByteSlot.sent s.devaddr Config.makMore] ∧
      t.guard = false ∧ t.dir = .output ∧ t.lvl = true := by
  obtain ⟨hl, n, hw⟩ := waitOp_firstTurn hk
  obtain ⟨t, evs, hp, hr, hshape, hline⟩ := poll_absent (s := pollStart s) h hd hg
  refine ⟨countPoll t, evs, ?_, congrArg (· + 1) hr.pollcnt, hr.events, hshape, hline⟩
  rw [hw]
  simp only [waitTurns, hl, hp, Bool.false_eq_true, if_false]

/-- Settles O59: each command but WAIT_WIP opens with a transaction, which fails at the device address
(`OpensTransaction.absent`), and WAIT_WIP with a poll, which does (`waitOp_absent`). -/
theorem absentSlaveGivesNoSak : Obligations.AbsentSlaveGivesNoSak := by
  intro s hi ha hp
  have hs := hi.1
  refine ⟨fun i hcase => OpensTransaction.absent ?_ hi ⟨ha, hp⟩, fun hk => ?_⟩
  · rcases hcase with hmem | ⟨hmem, hb⟩ | ⟨v, rfl⟩ | ⟨a, n, rfl, hb⟩ | ⟨a, n, p, rfl, hb, hc⟩ | ⟨a, n, p, rfl, hb⟩
    · simp only [List.mem_cons, List.not_mem_nil, or_false] at hmem
      rcases hmem with rfl | rfl | rfl
      · exact wren_opens hs
      · exact wrdi_opens hs
      · exact rdsr_opens hs
    · simp only [List.mem_cons, List.not_mem_nil, or_false] at hmem
      rcases hmem with rfl | rfl
      · exact eral_opens hs hb
      · exact setal_opens hs hb
    · exact wrsr_opens hs v
    · exact read_opens hs hb
    · exact write_opens hs hb hc
    · exact pagedWrite_opens hs hb
  · obtain ⟨-, hd, -, hg⟩ := hi
    obtain ⟨t, evs, hw, hcnt, hevs, hshape, hgt, hdt, hlt⟩ := waitOp_absent (s := begin s) hk ⟨ha, hp⟩ hd hg
    refine ⟨ret .nosak t, evs, ?_, ret_ended .nosak hgt hdt hlt, hcnt, hevs, hshape⟩
    rw [exec_waitWip hs, hw]
    rfl

end Sys2Proof.Machine

/-! PROOFS. What the operand checks refuse (R181, R220, R243), and the commands that are one transaction: READ, RDSR, WREN,
WRDI, WRSR, ERAL and SETAL (44_commands.md sections 2 to 5). -/

namespace Sys2Proof.Machine

open Sys2Proof.Safety

/-- A READ whose length is out of bounds fails its check (R184, D12). -/
theorem readBadLen_eq_true {p : Params} {n : Nat} (h : n = 0 ∨ ∃ m, p.maxLen = some m ∧ m < n) :
    readBadLen p n = true := by
  rcases h with rfl | ⟨m, hm, hlt⟩
  · rfl
  · simp [readBadLen, hm, hlt]

/-- A WRITE whose payload is not as long as it says fails its check (R186, D12). -/
theorem writeBadLen_eq_true {n : Nat} {p : List Byte} (h : n = 0 ∨ p.length ≠ n) : writeBadLen n p = true := by
  simpa [writeBadLen] using h

/-- A PAGED_WRITE with such a payload, or past the top, fails its check (R201, D13). -/
theorem pagedBadLen_eq_true {a : Addr} {n : Nat} {p : List Byte}
    (h : n = 0 ∨ p.length ≠ n ∨ 0x10000 < a.toNat + n) : pagedBadLen a n p = true := by
  simpa [pagedBadLen, Config.addrTop, or_assoc] using h

/-- A WRITE that would leave its page (R187, R196). -/
theorem crossesPage_eq_true {a : Addr} {n : Nat} (h : 16 < a.toNat % 16 + n) : crossesPage a n = true :=
  decide_eq_true h

/-- Settles O40: each failed check, at `IDLE`, is what decides its command. -/
theorem failedChecksTouchNothing : Obligations.FailedChecksTouchNothing := by
  intro s hs
  refine ⟨fun a n h => ?_, fun a n p h => ?_, fun a n p h0 hlen hcross => ?_, fun a n p h => ?_⟩
  · simp only [exec, execRead, issue_idle _ hs, readBadLen_eq_true h, if_true, decline]
  · simp only [exec, execWrite, issue_idle _ hs, writeBadLen_eq_true h, if_true, decline]
  · have hpass : writeBadLen n p = false := writeBadLen_eq_false (Nat.one_le_iff_ne_zero.mpr h0) hlen
    simp only [exec, execWrite, issue_idle _ hs, hpass, crossesPage_eq_true hcross, Bool.false_eq_true, if_false, if_true]
    simp [ret, rejected, hs]
  · simp only [exec, execPagedWrite, issue_idle _ hs, pagedBadLen_eq_true h, if_true, decline]

/-- Settles O41, by the one check of the two commands. -/
theorem bulkCommandsRefusedByDefault : Obligations.BulkCommandsRefusedByDefault := by
  intro s hs hb
  constructor
  · simp only [exec, execEral, issue_idle _ hs, hb, Bool.false_eq_true, if_false, decline]
  · simp only [exec, execSetal, issue_idle _ hs, hb, Bool.false_eq_true, if_false, decline]

/-- A chunk that is not the whole rest ends where the next page begins (R202). -/
theorem chunkLen_end (a : Addr) (n : Nat) : chunkLen a n = n ∨ (a.toNat + chunkLen a n) % 16 = 0 := by
  rcases Nat.le_total n (16 - a.toNat % 16) with h | h
  · exact Or.inl (Nat.min_eq_left h)
  · refine Or.inr ?_
    rw [chunkLen, Config.page, Nat.min_eq_right h]
    omega

/-- Below the top the address after a chunk does not wrap (R196(e)). -/
theorem addrPlus_toNat {a : Addr} {c : Nat} (h : a.toNat + c < 0x10000) : (addrPlus a c).toNat = a.toNat + c := by
  rw [addrPlus, BitVec.toNat_add, BitVec.toNat_ofNat, Nat.mod_eq_of_lt (by omega : c < 2 ^ 16), Nat.mod_eq_of_lt h]

/-- Settles O42, from the bounds of a chunk (`chunkLen_pos`, `chunkLen_le`), the checks it passes (`chunk_fits`), and where
it ends. -/
theorem chunksStayInOnePage : Obligations.ChunksStayInOnePage := by
  intro a p hp _ c
  obtain ⟨hlen, hbad, hcross⟩ := chunk_fits a p hp
  exact ⟨chunkLen_pos a (List.length_pos_iff.mpr hp), chunkLen_le a p.length, hlen.symm ▸ hbad, hlen.symm ▸ hcross,
    chunkLen_end a p.length, addrPlus_toNat⟩

section
variable {s : State} (hs : s.seq = [])
include hs

theorem exec_wren : exec .wren s = conclude (wrenOp (begin s)) := by simp only [exec, execWren, issue_idle _ hs]

theorem exec_wrdi : exec .wrdi s = conclude (wrdiOp (begin s)) := by simp only [exec, execWrdi, issue_idle _ hs]

theorem exec_rdsr : exec .rdsr s = concludeData (rdsrOp (begin s)) := by simp only [exec, execRdsr, issue_idle _ hs]

theorem exec_wrsr (v : Byte) : exec (.wrsr v) s = conclude (wrsrOp v (begin s)) := by
  simp only [exec, execWrsr, issue_idle _ hs]

theorem exec_eral (hb : s.params.bulkOps = true) : exec .eral s = conclude (eralOp (begin s)) := by
  simp only [exec, execEral, issue_idle _ hs, hb, if_true]

theorem exec_setal (hb : s.params.bulkOps = true) : exec .setal s = conclude (setalOp (begin s)) := by
  simp only [exec, execSetal, issue_idle _ hs, hb, if_true]

end

/-- A command that is one transaction with a data frame of `n` received bytes (R180, R226): its events and result, the
bytes handed over where all were acknowledged, the idle line, and its frame. -/
theorem readingCommand_completes {i : Instr} {s : State} (a : Addr) (m : Nat) (frame : List Byte) (n : Nat)
    (hg : s.guard = false)
    (hx : exec i s = concludeData (transact frame [] false (recvFrame n) (loadAddr a m (begin s)))) :
    ∃ t evs r, exec i s = .next t ∧ t.events = s.events ++ evs ∧
      Transaction s.timing (standbyShape s.timing) (sentSlots frame false ++ receivedSlots n) evs r ∧
      Ended t r (if r = .ok then some ((frameBytes evs).drop frame.length) else none) ∧ CommandFrame s t ∧
      SlaveKept s t ∧ t.addr = a ∧ t.len = m ∧ t.pollcnt = (begin s).pollcnt := by
  obtain ⟨u, evs, r, h, hr, ht, hbuf, hgu, hdu, hlu⟩ :=
    concludeData_transact frame [] false n (loadAddr a m (begin s)) hg
  have hf : CommandFrame s u := commandFrame_trans (commandFrame_operands a m (begin s).pollcnt s) hr.frame
  rw [h] at hx
  by_cases hok : r = .ok
  · subst hok
    exact ⟨_, evs, .ok, hx, hr.events, ht, hbuf rfl ▸ retData_ended hgu hdu hlu, commandFrame_retData hf, hr.slaveKept,
      hr.addr, hr.len, hr.pollcnt⟩
  · rw [if_neg hok] at hx
    exact ⟨_, evs, r, hx, hr.events, ht, if_neg hok ▸ ret_ended r hgu hdu hlu, commandFrame_ret r hf, hr.slaveKept,
      hr.addr, hr.len, hr.pollcnt⟩

/-- A command that is one transaction of a final command frame without data (R83, R180). -/
theorem bareCommand_completes {i : Instr} {s : State} (frame : List Byte) (hg : s.guard = false)
    (hx : exec i s = conclude (transact frame [] true noData (begin s))) :
    ∃ t evs r, exec i s = .next t ∧ t.events = s.events ++ evs ∧
      Transaction s.timing (standbyShape s.timing) (sentSlots frame true) evs r ∧
      Ended t r none ∧ CommandFrame s t ∧ SlaveKept s t ∧ OperandsUnwritten s t := by
  obtain ⟨u, evs, r, h, hr, ht, hgu, hdu, hlu⟩ :=
    conclude_transact frame [] true noData [] False (begin s) noData_frame hg
  rw [List.append_nil] at ht
  exact ⟨ret r u, evs, r, hx.trans h, hr.events, ht, ret_ended r hgu hdu hlu,
    commandFrame_ret r (commandFrame_trans (commandFrame_begin s) hr.frame), hr.slaveKept, hr.addr, hr.len, hr.pollcnt⟩

/-- Settles O28: READ is one transaction with a data frame, its operands loaded before. -/
theorem readCompletes : Obligations.ReadCompletes := by
  rintro s a n ⟨hs, hg⟩ hn
  exact readingCommand_completes a n (cmdframe4 s.devaddr .read a) n hg (exec_read hs hn)

/-- Settles O30: each of the two is one transaction without data. -/
theorem wrenAndWrdiComplete : Obligations.WrenAndWrdiComplete := by
  rintro s i o ⟨hs, hg⟩ (⟨rfl, rfl⟩ | ⟨rfl, rfl⟩)
  · exact bareCommand_completes (cmdframe2 s.devaddr .wren) hg (exec_wren hs)
  · exact bareCommand_completes (cmdframe2 s.devaddr .wrdi) hg (exec_wrdi hs)

/-- Settles O31: RDSR is one transaction with a data frame of one byte, and loads no operand. -/
theorem rdsrCompletes : Obligations.RdsrCompletes := by
  rintro s ⟨hs, hg⟩
  obtain ⟨t, evs, r, hx, hev, ht, hend, hf, hk, ha, hl, hc⟩ :=
    readingCommand_completes (begin s).addr (begin s).len (cmdframe2 s.devaddr .rdsr) 1 hg (exec_rdsr hs)
  exact ⟨t, evs, r, hx, hev, ht, hend, hf, hk, ha, hl, hc⟩

/-- Settles O32: WRSR is one transaction without data, its value the third byte of the frame. -/
theorem wrsrCompletes : Obligations.WrsrCompletes := by
  rintro s v ⟨hs, hg⟩
  exact bareCommand_completes (cmdframe3 s.devaddr .wrsr v) hg (exec_wrsr hs v)

/-- Settles O33: past their check each of the two is one transaction without data. -/
theorem bulkCommandsComplete : Obligations.BulkCommandsComplete := by
  rintro s i o ⟨hs, hg⟩ hb (⟨rfl, rfl⟩ | ⟨rfl, rfl⟩)
  · exact bareCommand_completes (cmdframe2 s.devaddr .eral) hg (exec_eral hs hb)
  · exact bareCommand_completes (cmdframe2 s.devaddr .setal) hg (exec_setal hs hb)

end Sys2Proof.Machine

/-! PROOFS. WAIT_WIP as a whole command (44_commands.md section 7), and what the commands request and emit where all was
acknowledged (R283). -/

namespace Sys2Proof.Machine

open Sys2Proof.Safety

/-- The start of WAIT_WIP and its poll count leave what outlives a command alone (R27, R35). -/
theorem commandFrame_polls (n : Nat) (s : State) : CommandFrame s (withPolls n (begin s)) :=
  ⟨rfl, rfl, rfl, rfl, fun _ => rfl⟩

/-- Settles O35: the turns of `waitOp_limited`, after which the command has its result. -/
theorem waitWipCompletes : Obligations.WaitWipCompletes := by
  rintro s k ⟨hs, hd, hl, hg⟩ hk
  obtain ⟨r, t, turns, h, hr, hrun, htg, htd, htl⟩ := waitOp_limited (begin s) k hk hg
  rw [show (begin s).params.pollLimit = some k from hk] at hrun
  refine ⟨ret r t, turns, r, ?_, hr.events, hrun, hr.pollcnt, ret_ended r htg (htd hd) (htl hl),
    commandFrame_ret r (commandFrame_trans (commandFrame_polls _ s) hr.frame), hr.slaveKept, hr.addr, hr.len⟩
  rw [exec_waitWip hs, h]
  rfl

/-- Settles O36: the turn of `waitOp_unlimited`, after which the command polls on or has its result. -/
theorem waitWipWithoutLimit : Obligations.WaitWipWithoutLimit := by
  rintro s ⟨hs, hg⟩ hk
  obtain ⟨e, t, evs, r, h, hr, hturn, he, htg, htd, htl⟩ := waitOp_unlimited (begin s) hk hg
  have hf : CommandFrame s t := commandFrame_trans (commandFrame_polls 1 s) hr.frame
  have hx := exec_waitWip hs
  rw [h, he] at hx
  by_cases hb : r = .ok ∧ turnBusy evs = true
  · rw [if_pos hb] at hx
    have hrest : lineOf t = Line.rest := by rw [lineOf, htd, htl, htg, Line.rest]
    refine ⟨_, evs, r, hx, hr.events, hturn, hr.pollcnt, hr.addr, hr.len,
      commandFrame_trans hf ⟨rfl, rfl, rfl, rfl, fun _ => rfl⟩, hr.slaveKept, ?_⟩
    rw [if_pos hb]
    exact ⟨rfl, hrest, hr.done⟩
  · rw [if_neg hb] at hx
    refine ⟨_, evs, r, hx, hr.events, hturn, hr.pollcnt, hr.addr, hr.len, commandFrame_ret r hf, hr.slaveKept, ?_⟩
    rw [if_neg hb]
    exact ret_ended r htg htd htl

/-- Byte slots of `n` events each (R140, R146). -/
theorem slots_length {t : Timing} {slots : List ByteSlot} {n : Nat} (h : ∀ b ∈ slots, (byteShape t b).length = n) :
    (slots.flatMap (byteShape t)).length = n * slots.length := by
  rw [List.length_flatMap, List.map_congr_left h, List.map_const', List.sum_replicate, smul_eq_mul, Nat.mul_comm]

theorem sentSlots_events (t : Timing) (bytes : List Byte) (final : Bit) :
    ((sentSlots bytes final).flatMap (byteShape t)).length = 82 * bytes.length := by
  rw [slots_length (sentSlots_shape_length t bytes final), sentSlots_length]

theorem receivedSlots_events (t : Timing) (n : Nat) :
    ((receivedSlots n).flatMap (byteShape t)).length = 98 * n := by
  have h := receivedSlots_length_shape t n n
  rwa [List.take_of_length_le (receivedSlots_length n).le, receivedSlots_length] at h

/-- At the constants of R25 every byte slot requests 600 microseconds (R148). -/
theorem requestedTime_slots (slots : List ByteSlot) :
    requestedTime (slots.flatMap (byteShape Config.timing)) = 600 * slots.length := by
  induction slots with
  | nil => rfl
  | cons b rest ih =>
    have hb : requestedTime (byteShape Config.timing b) = 600 := by
      cases b with
      | sent v m => exact requestedTime_byteShape_sent Config.timing v m
      | received m => exact requestedTime_byteShape_received Config.timing m
    rw [List.flatMap_cons, requestedTime_append, hb, ih, List.length_cons]
    omega

/-- The start header is 84 events and requests 610 microseconds (R168). -/
theorem headerShape_costs (t : Timing) :
    (headerShape t).length = 84 ∧ requestedTime (headerShape Config.timing) = 610 := by
  have h : requestedTime (headerShape Config.timing) =
      10 + requestedTime (byteShape Config.timing (.sent Config.startHeader true)) := rfl
  exact ⟨rfl, by rw [h, requestedTime_byteShape_sent]; rfl⟩

/-- What an acknowledged transaction emits: its lead, the header, `LOCK` and `UNLOCK`, and its byte slots (R84). -/
theorem Transaction.length_ok {t : Timing} {lead : List Event} {slots : List ByteSlot} {evs : List Event}
    (h : Transaction t lead slots evs .ok) :
    evs.length = lead.length + 86 + (slots.flatMap (byteShape t)).length := by
  rcases h with ⟨-, he, -⟩ | ⟨hr, -⟩
  · rw [← List.length_map (f := eraseSample), he, guardedShape]
    simp only [List.length_append, List.length_cons, List.length_nil, (headerShape_costs t).1]
    omega
  · cases hr

/-- What an acknowledged transaction requests at the constants of R25. -/
theorem Transaction.time_ok {lead : List Event} {slots : List ByteSlot} {evs : List Event}
    (h : Transaction Config.timing lead slots evs .ok) :
    requestedTime evs = requestedTime lead + 610 + 600 * slots.length := by
  rcases h with ⟨-, he, -⟩ | ⟨hr, -⟩
  · rw [← requestedTime_erase, he, guardedShape]
    simp only [requestedTime_append, List.cons_append, requestedTime, (headerShape_costs Config.timing).2,
      requestedTime_slots]
    omega
  · cases hr

/-- From `s` to `t` the trace has grown by `n` events, which request `us` microseconds. -/
def Costs (s t : State) (n us : Nat) : Prop :=
  t.trace.length = s.trace.length + n ∧ requestedTime t.events = requestedTime s.events + us

theorem Costs.eq {s t : State} {n m us vs : Nat} (h : Costs s t n us) (hn : n = m) (hu : us = vs) : Costs s t m vs :=
  hn ▸ hu ▸ h

theorem costs_of_events {s t : State} {evs : List Event} (h : t.events = s.events ++ evs) :
    Costs s t evs.length (requestedTime evs) := by
  have hlen := congrArg List.length h
  rw [List.length_append, State.events, State.events, List.length_reverse, List.length_reverse] at hlen
  exact ⟨hlen, by rw [h, requestedTime_append]⟩

/-- An acknowledged turn of WAIT_WIP: 349 events and 2425 microseconds (R283). -/
theorem PollTurn.costs {d : Byte} {evs : List Event} (h : PollTurn Config.timing d evs .ok) :
    evs.length = 349 ∧ requestedTime evs = 2425 := by
  have hn : ((statusSlots d).flatMap (byteShape Config.timing)).length = 262 := by
    rw [statusSlots, List.flatMap_append, List.length_append, sentSlots_events, receivedSlots_events]
    rfl
  exact ⟨by rw [Transaction.length_ok h, hn]; rfl, by rw [Transaction.time_ok h]; rfl⟩

/-- Acknowledged turns of WAIT_WIP. -/
theorem pollTurns_cost {d : Byte} {turns : List (List Event)} (h : ∀ e ∈ turns, PollTurn Config.timing d e .ok) :
    turns.flatten.length = 349 * turns.length ∧ requestedTime turns.flatten = 2425 * turns.length := by
  induction turns with
  | nil => exact ⟨rfl, rfl⟩
  | cons e rest ih =>
    obtain ⟨he, hrest⟩ := List.forall_mem_cons.mp h
    obtain ⟨hlen, htime⟩ := PollTurn.costs he
    obtain ⟨hl, ht⟩ := ih hrest
    rw [List.flatten_cons, List.length_append, requestedTime_append, hlen, htime, hl, ht, List.length_cons]
    omega

/-- Unless WAIT_WIP ended with `NOSAK`, all its turns were acknowledged (R198). -/
theorem PollRun.acknowledged {t : Timing} {d : Byte} {limit : Option Nat} {turns : List (List Event)} {r : Result}
    (h : PollRun t d limit turns r) (hr : r ≠ .nosak) : ∀ e ∈ turns, PollTurn t d e .ok := by
  rcases h with ⟨-, busy, last, rfl, hb, hp, -⟩ | ⟨hno, -⟩ | ⟨-, -, hb⟩
  · exact List.forall_mem_append.mpr ⟨fun e he => (hb e he).1, List.forall_mem_singleton.mpr hp⟩
  · exact absurd hno hr
  · exact fun e he => (hb e he).1

/-- The byte slots of a final command frame: their events and their number (R140). -/
theorem finalSlots_size (t : Timing) (frame : List Byte) :
    ((sentSlots frame true).flatMap (byteShape t)).length = 82 * frame.length ∧
      (sentSlots frame true).length = frame.length :=
  ⟨sentSlots_events t frame true, sentSlots_length frame true⟩

/-- The byte slots of a sent frame and `n` received bytes: their events and their number (R140, R146). -/
theorem readSlots_size (t : Timing) (frame : List Byte) (n : Nat) :
    ((sentSlots frame false ++ receivedSlots n).flatMap (byteShape t)).length = 82 * frame.length + 98 * n ∧
      (sentSlots frame false ++ receivedSlots n).length = frame.length + n := by
  rw [List.flatMap_append, List.length_append, List.length_append, sentSlots_events, receivedSlots_events,
    sentSlots_length, receivedSlots_length]
  exact ⟨rfl, rfl⟩

/-- The byte slots of a command frame and a payload. -/
theorem writeSlots_size (t : Timing) (frame p : List Byte) :
    ((sentSlots frame false ++ sentSlots p true).flatMap (byteShape t)).length = 82 * frame.length + 82 * p.length ∧
      (sentSlots frame false ++ sentSlots p true).length = frame.length + p.length := by
  rw [List.flatMap_append, List.length_append, List.length_append, sentSlots_events, sentSlots_events,
    sentSlots_length, sentSlots_length]
  exact ⟨rfl, rfl⟩

/-- A WRITE that passes its length check (R186). -/
theorem writeBadLen_bounds {n : Nat} {p : List Byte} (h : writeBadLen n p = false) : 1 ≤ n ∧ p.length = n := by
  simp only [writeBadLen, Bool.or_eq_false_iff, decide_eq_false_iff_not, not_not] at h
  exact ⟨Nat.one_le_iff_ne_zero.mpr h.1, h.2⟩

/-- A WRITE that stays in its page (R55). -/
theorem crossesPage_bound {a : Addr} {n : Nat} (h : crossesPage a n = false) : a.toNat % 16 + n ≤ 16 :=
  Nat.le_of_not_lt (of_decide_eq_false h)

/-- A command that has ended with `OK` after one transaction with a standby pulse: 90 events and 1230 microseconds, and
what its byte slots take (R283). -/
theorem costs_acknowledged {i : Instr} {s t t' : State} {slots : List ByteSlot} {evs : List Event} {r : Result}
    {d : Option (List Byte)} {n k : Nat} (htime : s.timing = Config.timing) (hx : exec i s = .next t) (hok : t.result = .ok)
    (hx' : exec i s = .next t') (hev : t'.events = s.events ++ evs)
    (h : Transaction s.timing (standbyShape s.timing) slots evs r) (hend : Ended t' r d)
    (hsize : (slots.flatMap (byteShape s.timing)).length = n ∧ slots.length = k) :
    Costs s t (90 + n) (1230 + 600 * k) := by
  obtain ⟨rfl, rfl⟩ := hsize
  obtain rfl : t = t' := by simpa using hx.symm.trans hx'
  obtain rfl : r = .ok := hend.result.symm.trans hok
  have hcost := costs_of_events hev
  have hlen := Transaction.length_ok h
  rw [htime] at h hlen ⊢
  rw [hlen, Transaction.time_ok h] at hcost
  exact hcost

/-- WREN, WRDI, ERAL and SETAL, where they answer a next state, are a final two-byte frame (R188, R189, R194, R195). -/
theorem twoByteCommand {i : Instr} {s t : State} (hs : s.seq = []) (hi : i ∈ ([.wren, .wrdi, .eral, .setal] : List Instr))
    (hx : exec i s = .next t) :
    ∃ o : Opcode, exec i s = conclude (transact (cmdframe2 s.devaddr o) [] true noData (begin s)) := by
  have hbulk : i = .eral ∨ i = .setal → s.params.bulkOps = true := by
    intro hi
    by_contra hb
    obtain ⟨heral, hsetal⟩ := bulkCommandsRefusedByDefault s hs (Bool.eq_false_of_not_eq_true hb)
    rcases hi with rfl | rfl
    · cases hx.symm.trans heral
    · cases hx.symm.trans hsetal
  simp only [List.mem_cons, List.not_mem_nil, or_false] at hi
  rcases hi with rfl | rfl | rfl | rfl
  · exact ⟨.wren, exec_wren hs⟩
  · exact ⟨.wrdi, exec_wrdi hs⟩
  · exact ⟨.eral, exec_eral hs (hbulk (Or.inl rfl))⟩
  · exact ⟨.setal, exec_setal hs (hbulk (Or.inr rfl))⟩

/-- WAIT_WIP that has not ended with `NOSAK`: 349 events and 2425 microseconds per turn (R199, R283). -/
theorem costs_waitWip {s t : State} (hr : Ready s) (htime : s.timing = Config.timing) (hx : exec .waitWip s = .next t)
    (hno : t.done = true → t.result ≠ .nosak) : Costs s t (349 * t.pollcnt) (2425 * t.pollcnt) := by
  obtain ⟨hs, hg⟩ := hr
  suffices h : ∃ turns : List (List Event), t.events = s.events ++ turns.flatten ∧ t.pollcnt = turns.length ∧
      ∀ e ∈ turns, PollTurn Config.timing s.devaddr e .ok by
    obtain ⟨turns, hev, hcnt, hturns⟩ := h
    obtain ⟨hlen, htm⟩ := pollTurns_cost hturns
    rw [hcnt, ← hlen, ← htm]
    exact costs_of_events hev
  cases hk : s.params.pollLimit with
  | none =>
    obtain ⟨t', evs, r, hx', hev, hturn, hcnt, -, -, -, -, hend⟩ := waitWipWithoutLimit s ⟨hs, hg⟩ hk
    obtain rfl : t = t' := by simpa using hx.symm.trans hx'
    have hrok : r = .ok := by
      by_contra hne
      rw [if_neg (fun h => hne h.1)] at hend
      rcases hturn with ⟨h, -⟩ | ⟨h, -⟩
      · exact hne h
      · exact hno hend.done (hend.result.trans h)
    refine ⟨[evs], by simpa using hev, hcnt, List.forall_mem_singleton.mpr ?_⟩
    rw [← htime, ← hrok]
    exact hturn
  | some k =>
    obtain ⟨r, u, turns, h, hran, hrun, -⟩ := waitOp_limited (begin s) k hk hg
    rw [exec_waitWip hs, h] at hx
    injection hx with hx
    subst hx
    rw [show (begin s).timing = Config.timing from htime] at hrun
    exact ⟨turns, hran.events, hran.pollcnt, PollRun.acknowledged hrun (hno rfl)⟩

/-- Settles O44: of each command its transaction (`costs_acknowledged`), of WAIT_WIP its turns (`costs_waitWip`). -/
theorem requestedTimes : Obligations.RequestedTimes := by
  intro s t hr htime
  refine ⟨fun a n hx hok hb => ?_, fun a n p hx hok hb hc => ?_, fun i hi hx hok => ?_, fun hx hok => ?_,
    fun v hx hok => ?_, fun hx hno => costs_waitWip hr htime hx hno⟩
  · obtain ⟨t', evs, r, hx', hev, ht, hend, -⟩ := readCompletes s a n hr hb
    obtain ⟨hlen, htm⟩ := costs_acknowledged htime hx hok hx' hev ht hend (readSlots_size _ _ n)
    simp only [cmdframe4, List.length_cons, List.length_nil] at hlen htm
    omega
  · obtain ⟨hn, rfl⟩ := writeBadLen_bounds hb
    obtain ⟨t', evs, r, hx', hev, ht, hend, -⟩ := writeCompletes s a p.length p hr hn rfl (crossesPage_bound hc)
    obtain ⟨hlen, htm⟩ := costs_acknowledged htime hx hok hx' hev ht hend (writeSlots_size _ _ p)
    simp only [cmdframe4, List.length_cons, List.length_nil] at hlen htm
    omega
  · obtain ⟨o, hi⟩ := twoByteCommand hr.1 hi hx
    obtain ⟨t', evs, r, hx', hev, ht, hend, -⟩ := bareCommand_completes _ hr.2 hi
    exact (costs_acknowledged htime hx hok hx' hev ht hend (finalSlots_size _ _)).eq (by simp [cmdframe2])
      (by simp [cmdframe2])
  · obtain ⟨t', evs, r, hx', hev, ht, hend, -⟩ := rdsrCompletes s hr
    exact (costs_acknowledged htime hx hok hx' hev ht hend (readSlots_size _ _ 1)).eq (by simp [cmdframe2]) (by simp [cmdframe2])
  · obtain ⟨t', evs, r, hx', hev, ht, hend, -⟩ := wrsrCompletes s v hr
    exact (costs_acknowledged htime hx hok hx' hev ht hend (finalSlots_size _ _)).eq (by simp) (by simp)

end Sys2Proof.Machine

/-! PROOFS. RDSR, WAIT_WIP and PAGED_WRITE with the reference slave of 95_test_vectors.md section 3: the status byte it
sends, the polls its write cycle takes, and the payload it stores. -/

namespace Sys2Proof.Machine

open Sys2Proof.Safety

/-- Settles O52: the byte handed over is the one `rdsrOp_slave` puts in `RBUF`, and a status read keeps the array. -/
theorem rdsrReturnsStatusRegister : Obligations.RdsrReturnsStatusRegister := by
  rintro s ⟨hseq, hd, -, hg⟩ hs
  obtain ⟨u, hop, hu, hbuf, -⟩ := rdsrOp_slave (begin s) s.env.slave (Talks.refl (s := begin s) hg hd hs)
  have hx : exec .rdsr s = .next (retData u) := by
    rw [exec_rdsr hseq, hop]
    rfl
  obtain ⟨t, evs, r, hx', -, -, hend, -⟩ := rdsrCompletes s ⟨hseq, hg⟩
  obtain rfl : retData u = t := by simpa using hx.symm.trans hx'
  exact ⟨retData u, hx, ⟨hend.idle, rfl, rfl, congrArg some hbuf⟩, hu.mem.trans (Slave.statusRead_mem _)⟩

/-- WAIT_WIP whose turns have a result ends with it (R198). -/
theorem waitWip_ends {s u : State} {k : Nat} {r : Result} (hi : Idle s) (hk : s.params.pollLimit = some k)
    (h : waitOp (begin s) = .ok (.ends r, u)) : exec .waitWip s = .next (ret r u) ∧ Ended (ret r u) r none := by
  obtain ⟨hseq, hd, hl, hg⟩ := hi
  obtain ⟨r', t, turns, h', -, -, htg, htd, htl⟩ := waitOp_limited (begin s) k hk hg
  obtain ⟨rfl, rfl⟩ : r = r' ∧ u = t := by simpa using h.symm.trans h'
  exact ⟨by rw [exec_waitWip hseq, h]; rfl, ret_ended r htg (htd hd) (htl hl)⟩

/-- A slave that never clears `WIP` is polled until the limit is reached (R198, R199). -/
theorem waitTurns_neverIdle (j : Nat) {s : State} {sl : Slave} {k : Nat} (h : Talks s sl) (hsk : sl.k = 0)
    (hb : sl.status.getLsbD 0 = true) (hk : s.params.pollLimit = some k) (hcnt : s.pollcnt + j = k) :
    ∃ t, waitTurns (j + 1) s = .ok (.ends .timeout, t) ∧ t.pollcnt = k := by
  induction j generalizing s with
  | zero =>
    have hl : limitReached s = true := by simpa [limitReached, hk] using hcnt
    exact ⟨s, by rw [waitTurns, if_pos hl], hcnt⟩
  | succ j ih =>
    obtain ⟨t, hturn, ht, hpoll, hpar, -⟩ := waitTurns_busy (j + 1) s sl h (limitReached_lt hk (by omega)) hb
    rw [Slave.statusRead, if_pos hsk] at ht
    obtain ⟨u, hu, hend⟩ := ih ht (hpar ▸ hk) (by omega)
    exact ⟨u, hturn.trans hu, hend⟩

/-- Settles O57: a write cycle that is over or ends is `waitOp_slave`, one that does not end `waitTurns_neverIdle`. -/
theorem waitWipCountsPolls : Obligations.WaitWipCountsPolls := by
  intro s k hi hs hk
  have htalks : Talks (begin s) s.env.slave := Talks.refl (s := begin s) hi.2.2.2 hi.2.1 hs
  refine ⟨fun hb hk1 => ?_, fun hb hsk hk1 => ?_, fun hb hsk => ?_⟩
  · obtain ⟨u, -, hop, -, hcnt, -⟩ := waitOp_slave (begin s) _ k htalks hk (Or.inl ⟨hb, hk1⟩)
    obtain ⟨hx, hend⟩ := waitWip_ends hi hk hop
    rw [hb] at hcnt
    exact ⟨_, hx, hend, hcnt⟩
  · obtain ⟨u, -, hop, -, hcnt, -⟩ := waitOp_slave (begin s) _ k htalks hk (Or.inr ⟨hb, hsk, hk1⟩)
    obtain ⟨hx, hend⟩ := waitWip_ends hi hk hop
    rw [hb] at hcnt
    exact ⟨_, hx, hend, hcnt⟩
  · have h0 : Talks (pollStart (begin s)) s.env.slave := Talks.refl (s := pollStart (begin s)) hi.2.2.2 hi.2.1 hs
    obtain ⟨u, hturns, hcnt⟩ := waitTurns_neverIdle k h0 hsk hb hk (Nat.zero_add k)
    have hop : waitOp (begin s) = .ok (.ends .timeout, u) := by
      rw [waitOp, turnsPerRun, show (begin s).params.pollLimit = some k from hk]
      exact hturns
    obtain ⟨hx, hend⟩ := waitWip_ends hi hk hop
    exact ⟨_, hx, hend, hcnt⟩

/-- Bytes written in two parts, the second where the first ends (R53). -/
theorem Memory.writeMany_append (m : List Host.Cell) (a : Nat) (xs ys : List Byte) :
    Memory.writeMany m a (xs ++ ys) = Memory.writeMany (Memory.writeMany m a xs) (a + xs.length) ys := by
  induction xs generalizing m a with
  | nil => rfl
  | cons v rest ih =>
    rw [List.cons_append, Memory.writeMany, Memory.writeMany, ih, List.length_cons, Nat.add_right_comm, Nat.add_assoc]

/-- WREN and WRITE of a chunk to the reference slave (R201, rule 5). -/
theorem chunkOp_slave (a : Addr) {chunk : List Byte} {s : State} {sl : Slave} (h : Talks s sl) (hp : chunk ≠ [])
    (hc : crossesPage a chunk.length = false) :
    ∃ t, chunkOp a chunk s = .ok (.ok, t) ∧ Talks t (sl.written a.toNat chunk) ∧ t.params = s.params := by
  obtain ⟨t, hwren, ht, htp, -⟩ := wrenOp_slave s sl h
  obtain ⟨u, hwrite, hu, hup, -⟩ := writeOp_slave t sl a chunk ht hp hc
  exact ⟨u, by rw [chunkOp, hwren]; exact hwrite, hu, hup.trans htp⟩

/-- After a WRITE the write cycle takes `K0` polls (rule 5), and the limit allows them. -/
theorem Slave.written_cycle (sl : Slave) (a : Nat) (p : List Byte) {k : Nat} (hb : sl.status.getLsbD 0 = false)
    (hk : sl.k0 + 1 ≤ k) :
    ((sl.written a p).status.getLsbD 0 = false ∧ 1 ≤ k) ∨
      ((sl.written a p).status.getLsbD 0 = true ∧ 1 ≤ (sl.written a p).k ∧ (sl.written a p).k + 1 ≤ k) := by
  by_cases h0 : sl.k0 = 0
  · exact Or.inl ⟨by simp only [Slave.written, h0, if_true, hb], by omega⟩
  · exact Or.inr ⟨by simp [Slave.written, h0], Nat.one_le_iff_ne_zero.mpr h0, hk⟩

/-- A turn of the page loop with the reference slave: the chunk is stored, and the slave idle again (R201, R202). -/
theorem pagedTurns_chunk_slave (turns : Nat) (a : Addr) {p : List Byte} {s : State} {sl : Slave} {k : Nat} (h : Talks s sl)
    (hp : p ≠ []) (hb : sl.status.getLsbD 0 = false) (hk : s.params.pollLimit = some k) (hk0 : sl.k0 + 1 ≤ k) :
    ∃ u sl', pagedTurns (turns + 1) a p s =
        pagedTurns turns (addrPlus a (chunkLen a p.length)) (p.drop (chunkLen a p.length)) u ∧
      Talks u sl' ∧ sl'.mem = Memory.writeMany sl.mem a.toNat (p.take (chunkLen a p.length)) ∧ sl'.k0 = sl.k0 ∧
      sl'.status.getLsbD 0 = false ∧ u.params = s.params := by
  obtain ⟨hlen, -, hcross⟩ := chunk_fits a p hp
  have hc0 : p.take (chunkLen a p.length) ≠ [] :=
    List.length_pos_iff.mp (hlen.symm ▸ chunkLen_pos a (List.length_pos_iff.mpr hp))
  have hload : Talks (loadAddr a p.length s) sl := ⟨h.guard, h.dir, h.answers, h.present, h.saddr, h.put⟩
  obtain ⟨t, hchunk, ht, htp⟩ := chunkOp_slave a hload hc0 (hlen.symm ▸ hcross)
  obtain ⟨u, sl', hwait, hu, -, hup, -, hmem, hcyc, hidle⟩ :=
    waitOp_slave t _ k ht (htp ▸ hk) (sl.written_cycle a.toNat _ hb hk0)
  have hpe : p.isEmpty = false := by simpa using hp
  refine ⟨u, sl', ?_, hu, hmem, hcyc, hidle, hup.trans htp⟩
  simp only [pagedTurns, hpe, hchunk, hwait, Bool.false_eq_true, if_false]

/-- The page loop with the reference slave: the whole payload is stored (R201, R202). -/
theorem pagedTurns_slave {turns : Nat} {a : Addr} {p : List Byte} {s : State} {sl : Slave} {k : Nat} (h : Talks s sl)
    (hb : sl.status.getLsbD 0 = false) (hk : s.params.pollLimit = some k) (hk0 : sl.k0 + 1 ≤ k)
    (hn : p.length ≤ turns) (hfit : a.toNat + p.length ≤ Config.addrTop) :
    ∃ u sl', pagedTurns turns a p s = .ok (.ends .ok, u) ∧ Talks u sl' ∧
      sl'.mem = Memory.writeMany sl.mem a.toNat p := by
  induction turns generalizing a p s sl with
  | zero =>
    obtain rfl : p = [] := List.length_eq_zero_iff.mp (Nat.le_zero.mp hn)
    exact ⟨s, sl, rfl, h, rfl⟩
  | succ turns ih =>
    by_cases hp : p = []
    · subst hp
      exact ⟨s, sl, pagedTurns_nil _ _ _, h, rfl⟩
    have hpos : 1 ≤ chunkLen a p.length := chunkLen_pos a (List.length_pos_iff.mpr hp)
    have hle : chunkLen a p.length ≤ p.length := chunkLen_le a p.length
    obtain ⟨u, sl', hturn, hu, hmem, hcyc, hidle, hup⟩ := pagedTurns_chunk_slave turns a h hp hb hk hk0
    generalize hc : chunkLen a p.length = c at *
    by_cases hlast : c = p.length
    · subst hlast
      rw [List.drop_length, pagedTurns_nil] at hturn
      rw [List.take_length] at hmem
      exact ⟨u, sl', hturn, hu, hmem⟩
    · rw [Config.addrTop] at hfit
      have hnext : (addrPlus a c).toNat = a.toNat + c := addrPlus_toNat (by omega)
      obtain ⟨v, sl'', hrest, hv, hmem'⟩ := ih (a := addrPlus a c) (p := p.drop c) hu hidle (hup ▸ hk) (hcyc ▸ hk0)
        (by rw [List.length_drop]; omega) (by rw [List.length_drop, hnext, Config.addrTop]; omega)
      refine ⟨v, sl'', hturn.trans hrest, hv, ?_⟩
      calc sl''.mem
          = Memory.writeMany (Memory.writeMany sl.mem a.toNat (p.take c)) (a.toNat + c) (p.drop c) := by
            rw [hmem', hmem, hnext]
        _ = Memory.writeMany sl.mem a.toNat (p.take c ++ p.drop c) := by
            rw [Memory.writeMany_append, List.length_take_of_le hle]
        _ = Memory.writeMany sl.mem a.toNat p := by rw [List.take_append_drop]

/-- Settles O58: the array after the page loop is the one before with the payload written over it. -/
theorem pagedWriteStoresPayload : Obligations.PagedWriteStoresPayload := by
  rintro s a n p k hi hs hw hb hk hk0 hn rfl hfit
  obtain ⟨t, evs, r, before, lost, hx, -, -, -, -, hend, -⟩ := pagedWriteCompletes s a p.length p k hi hk hn rfl hfit
  obtain ⟨hseq, hd, -, hg⟩ := hi
  obtain ⟨u, sl, hturns, hu, hmem⟩ := pagedTurns_slave (Talks.refl (s := begin s) hg hd hs) hb hk hk0 le_rfl hfit
  have hx' : exec (.pagedWrite a p.length p) s = .next (ret .ok u) := by
    rw [exec_pagedWrite hseq (pagedBadLen_eq_false hn rfl hfit), hturns]
    rfl
  obtain rfl : t = ret .ok u := by simpa using hx.symm.trans hx'
  obtain rfl : Result.ok = r := hend.result
  have harray : (ret .ok u).env.slave.mem = Memory.writeMany s.env.slave.mem a.toNat p := hu.mem.trans hmem
  refine ⟨ret .ok u, hx, hend, ?_, fun x hx => ?_⟩
  · rw [harray, Memory.readMany_writeMany _ _ _ hw hfit]
  · rw [harray, Memory.writeMany_read_outside _ _ _ _ hw hfit hx]

end Sys2Proof.Machine

/-! PROOFS. The failure of a command (60_exceptions.md): no byte is handed over with another code than `OK` (R224, R226). -/

namespace Sys2Proof.Machine

/-- Settles O43: `rdata` at the end of a failed command is among what `exec_next` says of every command but the header
(`Executed.noData`): `retData` alone fills it, and its code is `OK`. -/
theorem noDataOnFailure : Obligations.NoDataOnFailure := by
  intro i s t hi h hdone hfail
  obtain ⟨evs, hx⟩ := exec_next i hi h
  exact hx.noData hdone hfail

end Sys2Proof.Machine

/-! PROOFS. The reset state and the invariant (R260, R262): the start of which `stepKeepsInvariant` is the step. -/

namespace Sys2Proof.Machine

open Sys2Proof.Safety

/-- The line of the reset state is idle (R262), by the values of R38 and R260. -/
theorem idle_reset : Idle State.reset := by
  obtain ⟨-, hdir, hlvl, hguard, hseq, -, -⟩ := resetValues
  exact ⟨hseq, hdir, hlvl, hguard⟩

/-- Settles O9: from the idle line nothing is left to do (`settles_idle`), and the array of the reset slave lists no
cell. -/
theorem resetMeetsInvariant : Obligations.ResetMeetsInvariant := by
  obtain ⟨hseq, hdir, hlvl, hguard⟩ := idle_reset
  have harray : Memory.wf State.reset.env.slave.mem = true := rfl
  exact ⟨⟨settles_idle hseq hdir hlvl hguard, harray⟩, idle_reset⟩

end Sys2Proof.Machine
